-- ==== Sys2Proof/Word.lean ====
section
/-! DEFINITION. The word types of the LZW decoder block: bytes, byte strings and 32-bit register words
(spec/00_scope.md section 5, R4). -/

namespace Sys2Proof

/-- A byte, 0 to 255 (00_scope.md section 5). -/
abbrev Byte := BitVec 8

/-- A host register word (R4: "host registers are 32 bits wide"). -/
abbrev Word := BitVec 32

/-- A byte string `[b0, b1, ...]` (00_scope.md section 5). -/
abbrev Bytes := List Byte

end Sys2Proof
end

