-- ==== Sys2Proof/Config.lean ====
section
/-! DEFINITION. What an instance of the block fixes (the parameters of R3) and the free values of the behaviours the
spec leaves to "any value" (93_implementation_defined.md I9 to I13). -/

namespace Sys2Proof.Config

/-- The three parameters R3 leaves open: the capacities of IN and OUT in bytes and the number of sample descriptors. -/
structure Params where
  inCap : Nat
  outCap : Nat
  maxSpp : Nat
deriving DecidableEq, Repr

/-- The ranges R3 gives the parameters. -/
def Params.legal (p : Params) : Bool :=
  1 ≤ p.inCap && p.inCap ≤ 2 ^ 28 && 1 ≤ p.outCap && p.outCap ≤ 2 ^ 32 - 1 && 1 ≤ p.maxSpp && p.maxSpp ≤ 16

/-- The instance `State.reset` describes: the parameters 95_test_vectors.md uses "unless a row says otherwise".
DESIGN CHOICE, unsafe (log 1): R3 leaves them open. They stand in State as data no step writes, so a statement over all
states is one over all parameter values. -/
def params : Params := { inCap := 2 ^ 20, outCap := 2 ^ 20, maxSpp := 16 }

/-- The two byte buffers (R50). -/
inductive Buffer where
  | input
  | output
deriving DecidableEq, Repr

/-- FREE VALUE (I9, I10; R45, R52, R240): the byte at an address of a buffer that nothing has written since the
`n`th hardware reset; "drawn once and then stable until written". -/
opaque powerOnByte : Buffer → Nat → Nat → Byte

/-- FREE VALUE (I11; R51): what the `n`th draw gives a host read of IN or OUT while BUSY = 1. -/
opaque busyReadByte : Nat → Byte

/-- FREE VALUE (I12; R40): which of the values reached so far the `n`th draw gives a host read of CURSOR, OUT_POS,
LZW_STATE or STATUS while BUSY = 1 (taken modulo the number of values reached). -/
opaque busyReadPick : Nat → Nat

/-- FREE VALUE (I13; R41): the string of a DICT entry that no addition has defined. "No rule reads them": only an LZW
code executed outside the class R84 gives it would. -/
opaque undefinedEntry : Nat → Bytes

end Sys2Proof.Config
end

