-- ==== Sys2Proof/Syntax.lean ====
section
/-! DEFINITION. The instructions of the LZW decoder block: one constructor of `Instr` per row of
spec/opcode_table.json, in the table's order. Operands are those the encodings of 30_encoding.md carry; every other
operand is a register, read where the rule reads it. -/

namespace Sys2Proof

/-- The registers a CONFIG_WRITE can name (R119, table row CONFIG_WRITE). -/
inductive CfgReg where
  | mode
  | width
  | rows
  | spp
  | inLen
  | sdesc (i : Fin 16)
deriving DecidableEq, Repr

/-- The rows of the opcode table. -/
inductive Instr where
  /-- F-OP, R111. -/
  | opExternalNone
  /-- F-OP, R112. -/
  | opExternalHpred
  /-- F-OP, R113. -/
  | opExternalFpred
  /-- F-OP, R114. -/
  | opPackbits
  /-- F-OP, R115. -/
  | opLzw
  /-- F-OP, R116. -/
  | opLzwHpred
  /-- F-HOST, R101: a CTRL write with START = 1 and SRST = 0; its IRQ_EN bit. -/
  | start (irqEn : Bool)
  /-- F-HOST, R117: a CTRL write with SRST = 1; its START and IRQ_EN bits. -/
  | srst (startBit irqEn : Bool)
  /-- F-HOST, R118: a STATUS write with bit 1 = 1. -/
  | doneAck
  /-- F-HOST, R119: a write of `data` to a configuration register. -/
  | configWrite (reg : CfgReg) (data : Word)
  /-- F-PB, R133: control byte 0x80. -/
  | pbNop
  /-- F-PB, R131: control byte 0x00 to 0x7F, C = `c`. -/
  | pbLiteral (c : BitVec 7)
  /-- F-PB, R132: control byte `u`, 0x81 to 0xFF. -/
  | pbReplicate (u : Byte)
  /-- F-LZW, R155: code 256. -/
  | lzwClear
  /-- F-LZW, R157: code 257. -/
  | lzwEnd
  /-- F-LZW, R156: the code below 256 right after a CLEAR. -/
  | lzwFirst (c : Byte)
  /-- F-LZW, R159: a code below 256. -/
  | lzwLiteral (c : Byte)
  /-- F-LZW, R160: a code from 258 to TSIZE - 1. -/
  | lzwTable (c : BitVec 12)
  /-- F-LZW, R161: the code equal to TSIZE. -/
  | lzwPending
  /-- F-LZW, R162 (and R155): a code that names no string. -/
  | lzwInvalid (c : BitVec 12)
  /-- F-LZW, R163: a code other than 256 and 257 before any CLEAR. -/
  | lzwNoClear (c : BitVec 12)
  /-- F-LZW, R158: fewer than CW bits remain. -/
  | lzwImplicitEnd
  /-- F-PRED, R182. -/
  | hpred8
  /-- F-PRED, R183. -/
  | hpred16
  /-- F-PRED, R184. -/
  | hpred32
  /-- F-PRED, R186. -/
  | fpred16
  /-- F-PRED, R187. -/
  | fpred24
  /-- F-PRED, R188. -/
  | fpred32
  /-- F-PRED, R189. -/
  | fpred64
deriving DecidableEq, Repr

end Sys2Proof
end

