-- ==== Sys2Proof/WellFormed.lean ====
section
/-! DEFINITION. Which instructions are well formed: operand values that 30_encoding.md gives an encoding to
(R82, R84). Conditions on the LZW state are not here: they are `Instr.inContext` in Decode.lean. -/

namespace Sys2Proof

/-- The operand checks of R82 and R84. A PB_REPLICATE control byte has bit 7 set and is not 0x80; a table code is 258
or more; an invalid code is neither a byte nor END; a code before any CLEAR is neither CLEAR nor END. -/
def Instr.wellFormed : Instr → Bool
  | .opExternalNone => true
  | .opExternalHpred => true
  | .opExternalFpred => true
  | .opPackbits => true
  | .opLzw => true
  | .opLzwHpred => true
  | .start _ => true
  | .srst _ _ => true
  | .doneAck => true
  | .configWrite _ _ => true
  | .pbNop => true
  | .pbLiteral _ => true
  | .pbReplicate u => 0x81 ≤ u.toNat
  | .lzwClear => true
  | .lzwEnd => true
  | .lzwFirst _ => true
  | .lzwLiteral _ => true
  | .lzwTable c => 258 ≤ c.toNat
  | .lzwPending => true
  | .lzwInvalid c => 256 ≤ c.toNat && c.toNat != 257
  | .lzwNoClear c => c.toNat != 256 && c.toNat != 257
  | .lzwImplicitEnd => true
  | .hpred8 => true
  | .hpred16 => true
  | .hpred32 => true
  | .fpred16 => true
  | .fpred24 => true
  | .fpred32 => true
  | .fpred64 => true

end Sys2Proof
end

