-- ==== Sys2Proof/Decode.lean ====
section
/-! DEFINITION. Decoding, total on every encoded item, rejecting by name (30_encoding.md, 40_operation.md R101 and
R117 to R119), and after it the encoder. The block reads three kinds of encoded item (30_encoding.md) and takes host
register writes; which kind an item is follows from where it stands, so an item carries its place. -/

namespace Sys2Proof

/-- Why an item decodes to no row of the opcode table. -/
inductive Reject where
  /-- COMP = 3 to 7 (R81, R105). -/
  | unsupportedCompression
  /-- PRED = 3, or a predictor its compression does not take (R81, R106). -/
  | illegalPredictor
  /-- A register write that is no command of the table (R27, R28, R119). -/
  | noCommand
  /-- A (PRED, BPS) pair R87 does not list. -/
  | noSubOperation
  /-- A table word longer than its format, in `decodeTableWord` only. -/
  | noFormat
deriving DecidableEq, Repr

/-- What the class of an LZW code depends on (R84): the code width, the table size, whether PREV holds a string, and
whether the code is the one right after a CLEAR. -/
structure LzwContext where
  cw : Nat
  tsize : Nat
  prevSet : Bool
  afterClear : Bool
deriving DecidableEq, Repr

/-- An encoded item with its place: the MODE word at START (R81); a host write to the register at offset
`4 * index` (R25, R26); a PackBits control byte, normalised (R82); the next bits of the input, in stream order, all CW
of them or none (R83, R152); the predictor selection (R87). -/
inductive Encoded where
  | operation (mode : Word)
  | hostWrite (index : Fin 32) (data : Word)
  | packBits (u : Byte)
  | lzw (ctx : LzwContext) (bits : List Bool)
  | predictor (pred : BitVec 2) (bps : Byte)
deriving DecidableEq, Repr

/-! ### Register fields used by decoding -/

/-- MODE.COMP, bits 2:0 (R29). -/
def compOf (mode : Word) : BitVec 3 := mode.extractLsb' 0 3

/-- MODE.PRED, bits 5:4 (R29). -/
def predOf (mode : Word) : BitVec 2 := mode.extractLsb' 4 2

/-! ### F-OP -/

/-- R81: the operation a MODE word selects. -/
def decodeOperation (mode : Word) : Except Reject Instr :=
  match (predOf mode).toNat, (compOf mode).toNat with
  | 0, 0 => .ok .opExternalNone
  | 1, 0 => .ok .opExternalHpred
  | 2, 0 => .ok .opExternalFpred
  | 0, 1 => .ok .opPackbits
  | 0, 2 => .ok .opLzw
  | 1, 2 => .ok .opLzwHpred
  | _, c => if 3 ≤ c then .error .unsupportedCompression else .error .illegalPredictor

/-! ### F-HOST -/

/-- R27, R28, R119: the command a register write is. A CTRL write with SRST = 1 is SRST whatever START is. -/
def decodeHostWrite (index : Fin 32) (data : Word) : Except Reject Instr :=
  if index.val = 0 then
    if data.getLsbD 1 then .ok (.srst (data.getLsbD 0) (data.getLsbD 2))
    else if data.getLsbD 0 then .ok (.start (data.getLsbD 2))
    else .error .noCommand
  else if index.val = 1 then
    if data.getLsbD 1 then .ok .doneAck else .error .noCommand
  else if index.val = 2 then .ok (.configWrite .mode data)
  else if index.val = 3 then .ok (.configWrite .width data)
  else if index.val = 4 then .ok (.configWrite .rows data)
  else if index.val = 5 then .ok (.configWrite .spp data)
  else if index.val = 6 then .ok (.configWrite .inLen data)
  else if 16 ≤ index.val then .ok (.configWrite (.sdesc (Fin.ofNat 16 (index.val - 16))) data)
  else .error .noCommand

/-! ### F-PB -/

/-- The classes of PackBits record (R82). -/
inductive Record where
  | nop
  | literal (c : BitVec 7)
  | replicate (u : Byte)
deriving DecidableEq, Repr

/-- R82: the record a control byte starts; 0x80 is checked before the replicate range. -/
def recordOf (u : Byte) : Record :=
  if u.toNat = 0x80 then .nop
  else if u.toNat < 0x80 then .literal (u.setWidth 7)
  else .replicate u

/-- The row of the opcode table a record is. -/
def Record.instr : Record → Instr
  | .nop => .pbNop
  | .literal c => .pbLiteral c
  | .replicate u => .pbReplicate u

/-! ### F-LZW -/

/-- The classes of LZW code (R84), with the implicit END (R158). -/
inductive CodeClass where
  | clear
  | endCode
  | first (c : Byte)
  | literal (c : Byte)
  | table (c : BitVec 12)
  | pending
  | invalid (c : BitVec 12)
  | noClear (c : BitVec 12)
  | implicitEnd
deriving DecidableEq, Repr

/-- The row of the opcode table a code class is. -/
def CodeClass.instr : CodeClass → Instr
  | .clear => .lzwClear
  | .endCode => .lzwEnd
  | .first c => .lzwFirst c
  | .literal c => .lzwLiteral c
  | .table c => .lzwTable c
  | .pending => .lzwPending
  | .invalid c => .lzwInvalid c
  | .noClear c => .lzwNoClear c
  | .implicitEnd => .lzwImplicitEnd

/-- R83: the value of the bits of a code, the first bit the most significant. -/
def codeValue (bits : List Bool) : Nat :=
  bits.foldl (fun v b => 2 * v + b.toNat) 0

/-- R84, in the order of R154 and R155: the class of a code that has been read. -/
def classOf (ctx : LzwContext) (code : Nat) : CodeClass :=
  if code = 257 then .endCode
  else if ctx.afterClear then
    if 256 ≤ code then .invalid (BitVec.ofNat 12 code) else .first (BitVec.ofNat 8 code)
  else if code = 256 then .clear
  else if !ctx.prevSet then .noClear (BitVec.ofNat 12 code)
  else if code < 256 then .literal (BitVec.ofNat 8 code)
  else if code < ctx.tsize then .table (BitVec.ofNat 12 code)
  else if code = ctx.tsize then .pending
  else .invalid (BitVec.ofNat 12 code)

/-- R83, R84, R152, R158: the class of the next code; fewer than CW bits are an implicit END. -/
def classOfBits (ctx : LzwContext) (bits : List Bool) : CodeClass :=
  if bits.length < ctx.cw then .implicitEnd else classOf ctx (codeValue (bits.take ctx.cw))

/-- R164: the code width a table size goes with. -/
def widthFor (tsize : Nat) : Nat :=
  if tsize < 511 then 9 else if tsize < 1023 then 10 else if tsize < 2047 then 11 else 12

/-! ### F-PRED -/

/-- The predictor sub-operations (R87). -/
inductive RowOp where
  | hpred8
  | hpred16
  | hpred32
  | fpred16
  | fpred24
  | fpred32
  | fpred64
deriving DecidableEq, Repr

/-- The row of the opcode table a sub-operation is. -/
def RowOp.instr : RowOp → Instr
  | .hpred8 => .hpred8
  | .hpred16 => .hpred16
  | .hpred32 => .hpred32
  | .fpred16 => .fpred16
  | .fpred24 => .fpred24
  | .fpred32 => .fpred32
  | .fpred64 => .fpred64

/-- R87: the sub-operation that PRED and BPS select. -/
def rowOpOf (pred : BitVec 2) (bps : Byte) : Except Reject RowOp :=
  match pred.toNat, bps.toNat with
  | 1, 8 => .ok .hpred8
  | 1, 16 => .ok .hpred16
  | 1, 32 => .ok .hpred32
  | 2, 16 => .ok .fpred16
  | 2, 24 => .ok .fpred24
  | 2, 32 => .ok .fpred32
  | 2, 64 => .ok .fpred64
  | _, _ => .error .noSubOperation

/-! ### The decoder -/

/-- The instruction an encoded item is. -/
def decode : Encoded → Except Reject Instr
  | .operation mode => decodeOperation mode
  | .hostWrite index data => decodeHostWrite index data
  | .packBits u => .ok (recordOf u).instr
  | .lzw ctx bits => .ok (classOfBits ctx bits).instr
  | .predictor pred bps => (rowOpOf pred bps).map RowOp.instr

/-! ### The encoder -/

/-- `n` bits of `v`, most significant first (R92). -/
def bitsOf : Nat → Nat → List Bool
  | 0, _ => []
  | n + 1, v => v.testBit n :: bitsOf n v

/-- A CTRL word with the given START, SRST and IRQ_EN bits (R27). -/
def ctrlWord (startBit srstBit irqEn : Bool) : Word :=
  (if startBit then 1#32 else 0#32) ||| (if srstBit then 2#32 else 0#32) ||| (if irqEn then 4#32 else 0#32)

/-- The register index (offset div 4) of a configuration register (R25). -/
def CfgReg.index : CfgReg → Fin 32
  | .mode => 2
  | .width => 3
  | .rows => 4
  | .spp => 5
  | .inLen => 6
  | .sdesc i => Fin.ofNat 32 (16 + i.val)

/-- The encoding of an instruction; an LZW code is written with the width and table size of the context it stands in
(R92). An implicit END is the absence of a code: no bits. -/
def encode (ctx : LzwContext) : Instr → Encoded
  | .opExternalNone => .operation 0x00#32
  | .opExternalHpred => .operation 0x10#32
  | .opExternalFpred => .operation 0x20#32
  | .opPackbits => .operation 0x01#32
  | .opLzw => .operation 0x02#32
  | .opLzwHpred => .operation 0x12#32
  | .start irqEn => .hostWrite 0 (ctrlWord true false irqEn)
  | .srst startBit irqEn => .hostWrite 0 (ctrlWord startBit true irqEn)
  | .doneAck => .hostWrite 1 2#32
  | .configWrite reg data => .hostWrite reg.index data
  | .pbNop => .packBits 0x80#8
  | .pbLiteral c => .packBits (c.setWidth 8)
  | .pbReplicate u => .packBits u
  | .lzwClear => .lzw ctx (bitsOf ctx.cw 256)
  | .lzwEnd => .lzw ctx (bitsOf ctx.cw 257)
  | .lzwFirst c => .lzw ctx (bitsOf ctx.cw c.toNat)
  | .lzwLiteral c => .lzw ctx (bitsOf ctx.cw c.toNat)
  | .lzwTable c => .lzw ctx (bitsOf ctx.cw c.toNat)
  | .lzwPending => .lzw ctx (bitsOf ctx.cw ctx.tsize)
  | .lzwInvalid c => .lzw ctx (bitsOf ctx.cw c.toNat)
  | .lzwNoClear c => .lzw ctx (bitsOf ctx.cw c.toNat)
  | .lzwImplicitEnd => .lzw ctx []
  | .hpred8 => .predictor 1 8
  | .hpred16 => .predictor 1 16
  | .hpred32 => .predictor 1 32
  | .fpred16 => .predictor 2 16
  | .fpred24 => .predictor 2 24
  | .fpred32 => .predictor 2 32
  | .fpred64 => .predictor 2 64

/-- A context the LZW unit can be in when it reads a code (R13, R164; right after a CLEAR, R151). -/
def LzwContext.legal (ctx : LzwContext) : Bool :=
  258 ≤ ctx.tsize && ctx.tsize ≤ 4096 && ctx.cw == widthFor ctx.tsize && (!ctx.afterClear || ctx.tsize == 258)

/-- The conditions R84 puts on an instruction of the LZW stream in a context; other instructions have none. -/
def Instr.inContext (ctx : LzwContext) : Instr → Bool
  | .opExternalNone => true
  | .opExternalHpred => true
  | .opExternalFpred => true
  | .opPackbits => true
  | .opLzw => true
  | .opLzwHpred => true
  | .start _ => true
  | .srst _ _ => true
  | .doneAck => true
  | .configWrite _ _ => true
  | .pbNop => true
  | .pbLiteral _ => true
  | .pbReplicate _ => true
  | .lzwClear => !ctx.afterClear
  | .lzwEnd => true
  | .lzwFirst _ => ctx.afterClear
  | .lzwLiteral _ => ctx.prevSet && !ctx.afterClear
  | .lzwTable c => ctx.prevSet && !ctx.afterClear && c.toNat < ctx.tsize
  | .lzwPending => ctx.prevSet && !ctx.afterClear && ctx.tsize ≤ 4095
  | .lzwInvalid c => c.toNat < 2 ^ ctx.cw && (ctx.afterClear || (ctx.prevSet && ctx.tsize < c.toNat))
  | .lzwNoClear c => !ctx.prevSet && !ctx.afterClear && c.toNat < 2 ^ ctx.cw
  | .lzwImplicitEnd => true
  | .hpred8 => true
  | .hpred16 => true
  | .hpred32 => true
  | .fpred16 => true
  | .fpred24 => true
  | .fpred32 => true
  | .fpred64 => true

/-! ### Words as the opcode table numbers them -/

/-- The format a table word is read in. The words of different formats overlap, and the machine tells them apart by
where they stand; a bare word has no place, so `decodeTableWord` takes, DESIGN CHOICE (log 13): up to 8 bits a MODE word
that selects an operation and has no reserved bit set, else a CTRL word with START or SRST and no reserved bit, else a
PackBits control byte; up to 16 bits a code of at most 12 bits; up to 32 bits the data of a CONFIG_WRITE. -/
inductive TableFormat where
  | operation
  | command
  | record
  | code
  | config
  | none
deriving DecidableEq, Repr

/-- The width of a table code: 9 bits where it fits, else 12. -/
def tableCodeWidth (w : Nat) : Nat := if w < 512 then 9 else 12

/-- See `TableFormat`. -/
def tableFormat (nbits w : Nat) : TableFormat :=
  if nbits ≤ 8 then
    if w = 0x00 ∨ w = 0x10 ∨ w = 0x20 ∨ w = 0x01 ∨ w = 0x02 ∨ w = 0x12 then .operation
    else if w < 8 ∧ w % 4 ≠ 0 then .command
    else if w < 256 then .record
    else .none
  else if nbits ≤ 16 then
    if w < 4096 then .code else .none
  else if nbits ≤ 32 then
    if w < 2 ^ 32 then .config else .none
  else .none

/-- The context a table code is read in: just after a CLEAR and its first code. -/
def tableContext (w : Nat) : LzwContext :=
  { cw := tableCodeWidth w, tsize := 258, prevSet := true, afterClear := false }

/-- The encoded item a table word stands for; the data of a CONFIG_WRITE goes to MODE, the first register the row
lists (log 13). -/
def tableItem (nbits w : Nat) : Except Reject Encoded :=
  match tableFormat nbits w with
  | .operation => .ok (.operation (BitVec.ofNat 32 w))
  | .command => .ok (.hostWrite 0 (BitVec.ofNat 32 w))
  | .record => .ok (.packBits (BitVec.ofNat 8 w))
  | .code => .ok (.lzw (tableContext w) (bitsOf (tableCodeWidth w) w))
  | .config => .ok (.hostWrite 2 (BitVec.ofNat 32 w))
  | .none => .error .noFormat

/-- The instruction the decoder reads from a word of the opcode table. -/
def decodeTableWord (nbits w : Nat) : Option Instr :=
  match tableItem nbits w with
  | .ok e => (decode e).toOption
  | .error _ => none

end Sys2Proof
end

