-- ==== Sys2Proof/Machine/State.lean ====
section
/-! DEFINITION. The state of the LZW decoder block (10_state.md, 20_memory.md R50), the moves of its surroundings, the
ways a step can stop, and the state after reset (R45). -/

namespace Sys2Proof.Machine

/-- Sparse data by address, addresses strictly rising (`Store.wf` in Ops.lean). -/
abbrev Store (α : Type) := List (Nat × α)

/-- A byte buffer: the bytes written since the last hardware reset (a list of `Host.Cell`). An address not listed
holds the free value `Config.powerOnByte` (log 2). -/
abbrev Memory := Store Byte

/-- The error codes of STATUS.ERR (R19, R210). Codes 9 to 15 are "never reported". -/
inductive ErrCode where
  | none
  | unsupportedCompression
  | illegalPredictor
  | badLayout
  | capacity
  | legacyLzw
  | lzwBadCode
  | lzwNoClear
  | lzwTableFull
deriving DecidableEq, Repr

/-- STATUS (R17 to R22, R28). -/
structure Status where
  busy : Bool
  done : Bool
  err : ErrCode
  wTrunc : Bool
  wOverrun : Bool
  wUnderfill : Bool
deriving DecidableEq, Repr

/-- The configuration registers (R29 to R33, R38). `mode` and `sdesc` are whole register words whose reserved bits are
0; the slots of `sdesc` at MAX_SPP and above are not there: `sdescWord` in Ops.lean reads them as 0 (log 12). -/
structure ConfigRegs where
  mode : Word
  width : BitVec 16
  rows : BitVec 16
  spp : BitVec 8
  inLen : Word
  sdesc : Vector Word 16
deriving DecidableEq, Repr

/-- The LZW datapath (R12 to R14, R41): TSIZE, CW, PREV and the DICT entries that additions have defined since the
last CLEAR; entries 0 to 255 are the single bytes and are not stored. -/
structure LzwRegs where
  tsize : BitVec 13
  cw : BitVec 4
  prev : Option Bytes
  dict : Store Bytes
deriving DecidableEq, Repr

/-- Which step of the running operation comes next (R100, R109; log 5): a decode step, the predictor step of a row,
the finish step with its code. MODEL's representation, DEDUCED. -/
inductive Phase where
  | idle
  | decode
  | predict (row : Nat)
  | finish (e : ErrCode)
deriving DecidableEq, Repr

/-- The registers a host may read while BUSY = 1 and get an earlier value of (R40). -/
structure Snapshot where
  cursor : Word
  outPos : Word
  lzwState : Word
  status : Word
deriving DecidableEq, Repr

/-- A move of the block's surroundings (log 3): a register write or read at offset `4 * index` (R26), a byte write or
read of IN or OUT (R51), the reset input (R240). -/
inductive HostMove where
  | writeReg (index : Fin 32) (data : Word)
  | readReg (index : Fin 32)
  | writeByte (buffer : Config.Buffer) (address : Nat) (value : Byte)
  | readByte (buffer : Config.Buffer) (address : Nat)
  | hardReset
deriving DecidableEq, Repr

/-- Whose turn it is (log 3). -/
inductive Turn where
  | host (move : HostMove)
  | block
deriving DecidableEq, Repr

/-- What the last host read returned (log 6). -/
inductive HostValue where
  | nothing
  | word (v : Word)
  | byte (v : Byte)
deriving DecidableEq, Repr

/-- The state of the machine. The first ten fields are the spec's; `phase` and `trail` are state the spec implies; the
last four are the MODEL's own (INVENTORY.md). -/
structure State where
  /-- IN_CAP, OUT_CAP, MAX_SPP (R3): constant. -/
  params : Config.Params
  /-- CTRL.IRQ_EN (R27). -/
  irqEn : Bool
  /-- STATUS (R28). -/
  status : Status
  /-- MODE, WIDTH, ROWS, SPP, IN_LEN, SDESC (R29 to R33, R38). -/
  config : ConfigRegs
  /-- CURSOR (R15), the block's program counter, in bits. -/
  cursor : Word
  /-- OUT_POS (R16). -/
  outPos : Word
  /-- TSIZE, CW, PREV, DICT (R12 to R14, R41). -/
  lzw : LzwRegs
  /-- IN (R50). -/
  inBuf : Memory
  /-- OUT (R50). -/
  outBuf : Memory
  /-- The step of the running operation that comes next (R100). -/
  phase : Phase
  /-- The values reached by the running operation, latest first (R40). -/
  trail : List Snapshot
  /-- The turns still to come; when there are none the block goes on by itself (log 3). -/
  turns : List Turn
  /-- What the last host read returned (log 6). -/
  hostRead : HostValue
  /-- How many free values host reads have drawn (log 4). -/
  draws : Nat
  /-- How many hardware resets there have been since the state began (log 2). -/
  powerUps : Nat
deriving DecidableEq, Repr

/-- Why the machine stops with a fault. -/
inductive Fault where
  /-- Raised by `step` and by an operation's predictor step when BUSY = 1, the start check is behind and MODE selects no
  operation, or PRED and BPS select no sub-operation: a state the start check (R105, R106) and R39 exclude, for which
  the spec has no rule. Safe: no run from reset reaches it (log 9). -/
  | rejected (r : Reject)
deriving DecidableEq, Repr

/-- Why the machine refuses an instruction. -/
inductive Refusal where
  /-- An instruction with no meaning yet, raised by `exec` only. Safe. No arm uses it. -/
  | notModelled (mnemonic : String)
deriving DecidableEq, Repr

/-- STATUS after reset (R45). -/
def Status.reset : Status :=
  { busy := false, done := false, err := .none, wTrunc := false, wOverrun := false, wUnderfill := false }

/-- The configuration registers after reset (R45). -/
def ConfigRegs.reset : ConfigRegs :=
  { mode := 0x00000000#32, width := 0, rows := 0, spp := 1, inLen := 0, sdesc := Vector.replicate 16 0x00000008#32 }

/-- The LZW datapath after reset (R45). -/
def LzwRegs.reset : LzwRegs :=
  { tsize := 258, cw := 9, prev := none, dict := [] }

/-- The state right after a hardware reset of an instance with parameters `p` (R45, R240). -/
def State.resetOf (p : Config.Params) : State :=
  { params := p
    irqEn := false
    status := Status.reset
    config := ConfigRegs.reset
    cursor := 0
    outPos := 0
    lzw := LzwRegs.reset
    inBuf := []
    outBuf := []
    phase := .idle
    trail := []
    turns := []
    hostRead := .nothing
    draws := 0
    powerUps := 0 }

/-- The machine right after reset, for the instance of `Config.params` (log 1). -/
def State.reset : State := State.resetOf Config.params

end Sys2Proof.Machine
end

