-- ==== Sys2Proof/Machine/Flags.lean ====
section
/-! DEFINITION. Status and flag computation: the STATUS word and its bits, the warnings, the interrupt output and the
LZW_STATE word (10_state.md section 4, R24, R28, R37; 60_exceptions.md R213, R215). -/

namespace Sys2Proof.Machine

/-- R210: the number of an error code. -/
def ErrCode.code : ErrCode → BitVec 4
  | .none => 0
  | .unsupportedCompression => 1
  | .illegalPredictor => 2
  | .badLayout => 3
  | .capacity => 4
  | .legacyLzw => 5
  | .lzwBadCode => 6
  | .lzwNoClear => 7
  | .lzwTableFull => 8

/-- A flag as a register word: `bit` where it is set. -/
def flagWord (bit : Word) (b : Bool) : Word := if b then bit else 0

/-- R28: the STATUS register word. -/
def Status.word (st : Status) : Word :=
  flagWord 0x001 st.busy ||| flagWord 0x002 st.done ||| (st.err.code.setWidth 32 <<< 4) |||
    flagWord 0x100 st.wTrunc ||| flagWord 0x200 st.wOverrun ||| flagWord 0x400 st.wUnderfill

/-- R37: the LZW_STATE register word, TSIZE in bits 12:0 and CW in bits 19:16. -/
def LzwRegs.word (z : LzwRegs) : Word := z.tsize.setWidth 32 ||| (z.cw.setWidth 32 <<< 16)

/-- The warnings (R213). -/
inductive Warning where
  | trunc
  | overrun
  | underfill
deriving DecidableEq, Repr

/-- R213: `warn(W_X)` sets bit W_X. -/
def Status.warn (w : Warning) (st : Status) : Status :=
  match w with
  | .trunc => { st with wTrunc := true }
  | .overrun => { st with wOverrun := true }
  | .underfill => { st with wUnderfill := true }

/-- R213, on the state. -/
def State.warn (w : Warning) (s : State) : State := { s with status := s.status.warn w }

/-- R101: STATUS when START begins an operation. -/
def Status.started : Status :=
  { busy := true, done := false, err := .none, wTrunc := false, wOverrun := false, wUnderfill := false }

/-- R110: STATUS after the finish step with code `e`; the warnings stay. -/
def Status.finished (e : ErrCode) (st : Status) : Status := { st with err := e, busy := false, done := true }

/-- R24, R215: the interrupt output, a level. -/
def State.irq (s : State) : Bool := s.status.done && s.irqEn

/-- The values a busy read of R40 can later return. -/
def State.snapshot (s : State) : Snapshot :=
  { cursor := s.cursor, outPos := s.outPos, lzwState := s.lzw.word, status := s.status.word }

end Sys2Proof.Machine
end

