-- ==== Sys2Proof/Machine/Ops.lean ====
section
/-! DEFINITION. The named operations over memory and registers (20_memory.md section 3, 42_lzw.md section 1,
40_operation.md R102, R109, R110) and the one way an operation takes a fatal error and ends (60_exceptions.md R211). -/

namespace Sys2Proof.Machine

/-! ### Sparse stores -/

/-- What a store lists at an address. -/
def Store.get? {α : Type} : Store α → Nat → Option α
  | [], _ => none
  | (k, v) :: m, a => if k = a then some v else Store.get? m a

/-- The store with `v` at address `a`; every other address keeps what it lists. -/
def Store.set {α : Type} : Store α → Nat → α → Store α
  | [], a, v => [(a, v)]
  | (k, w) :: m, a, v =>
    if a < k then (a, v) :: (k, w) :: m
    else if a = k then (a, v) :: m
    else (k, w) :: Store.set m a v

/-- Every address of the store is above `b`, and addresses rise strictly. -/
def Store.above {α : Type} (b : Nat) : Store α → Bool
  | [] => true
  | (k, _) :: m => b < k && Store.above k m

/-- The canonical form: addresses rise strictly. An unlisted address holds no value written since reset, so there is
no value whose writing would remove an entry (log 2). -/
def Store.wf {α : Type} : Store α → Bool
  | [] => true
  | (k, _) :: m => Store.above k m

/-- `Store.wf` of a byte buffer. -/
def Memory.wf (m : Memory) : Bool := Store.wf m

/-- The byte at an address of IN (R52; I9). -/
def State.readIn (s : State) (a : Nat) : Byte :=
  (Store.get? s.inBuf a).getD (Config.powerOnByte .input s.powerUps a)

/-- The byte at an address of OUT (R52; I9). -/
def State.readOut (s : State) (a : Nat) : Byte :=
  (Store.get? s.outBuf a).getD (Config.powerOnByte .output s.powerUps a)

/-- Store a byte in OUT. -/
def State.writeOut (a : Nat) (b : Byte) (s : State) : State := { s with outBuf := Store.set s.outBuf a b }

/-- Store a byte in IN (by the host only, R69). -/
def State.writeIn (a : Nat) (b : Byte) (s : State) : State := { s with inBuf := Store.set s.inBuf a b }

/-! ### Configuration registers -/

/-- SDESC[i] (R38): reserved, reading 0, for i >= MAX_SPP. -/
def State.sdescWord (s : State) (i : Nat) : Word :=
  if i < s.params.maxSpp then s.config.sdesc[i]?.getD 0 else 0

/-- SDESC[i].BPS, bits 7:0 (R38). -/
def State.bps (s : State) (i : Nat) : Byte := (s.sdescWord i).extractLsb' 0 8

/-- SDESC[i].SFMT, bits 10:8 (R38). -/
def State.sfmt (s : State) (i : Nat) : BitVec 3 := (s.sdescWord i).extractLsb' 8 3

/-- MODE.COMP (R29). -/
def State.comp (s : State) : BitVec 3 := compOf s.config.mode

/-- MODE.PRED (R29). -/
def State.pred (s : State) : BitVec 2 := predOf s.config.mode

/-- MODE.BYTE_ORDER, bit 8 (R29): true is little-endian. -/
def State.littleEndian (s : State) : Bool := s.config.mode.getLsbD 8

/-- MODE.FILL_ORDER, bit 9 (R29): true is LSB-first. -/
def State.lsbFirst (s : State) : Bool := s.config.mode.getLsbD 9

/-- R34: bitsPerPixel, the sum of BPS over the samples of a pixel. -/
def State.bitsPerPixel (s : State) : Nat := ((List.range s.config.spp.toNat).map fun i => (s.bps i).toNat).sum

/-- R34: BPR, `ceil(bpp * WIDTH / 8)`. -/
def State.bytesPerRow (s : State) : Nat := (s.bitsPerPixel * s.config.width.toNat + 7) / 8

/-- R34, R107: L, the exact output length. -/
def State.outLenExact (s : State) : Nat := s.bytesPerRow * s.config.rows.toNat

/-- R34: `x[OUT_LEN]`, L saturated at 2^32 - 1, and 0 if SPP is not legal. -/
def State.outLen (s : State) : Nat :=
  if 1 ≤ s.config.spp.toNat ∧ s.config.spp.toNat ≤ s.params.maxSpp then min s.outLenExact (2 ^ 32 - 1) else 0

/-- R32, R119: the bits of a register word that are defined fields. -/
def modeMask : Word := 0x337#32

/-- R38, R119: the defined bits of SDESC. -/
def sdescMask : Word := 0x7FF#32

/-- R119: a configuration register takes the written bits of its defined fields; a reserved SDESC takes none (R38). -/
def State.storeConfig (reg : CfgReg) (data : Word) (s : State) : State :=
  match reg with
  | .mode => { s with config := { s.config with mode := data &&& modeMask } }
  | .width => { s with config := { s.config with width := data.setWidth 16 } }
  | .rows => { s with config := { s.config with rows := data.setWidth 16 } }
  | .spp => { s with config := { s.config with spp := data.setWidth 8 } }
  | .inLen => { s with config := { s.config with inLen := data } }
  | .sdesc i =>
    if i.val < s.params.maxSpp then
      { s with config := { s.config with sdesc := s.config.sdesc.set i.val (data &&& sdescMask) i.isLt } }
    else s

/-- R25 to R38: what each host register holds, by `index = offset / 4`. Reserved registers read 0. -/
def State.registerWord (s : State) (index : Fin 32) : Word :=
  if index.val = 0 then flagWord 4 s.irqEn
  else if index.val = 1 then s.status.word
  else if index.val = 2 then s.config.mode
  else if index.val = 3 then s.config.width.setWidth 32
  else if index.val = 4 then s.config.rows.setWidth 32
  else if index.val = 5 then s.config.spp.setWidth 32
  else if index.val = 6 then s.config.inLen
  else if index.val = 7 then BitVec.ofNat 32 s.outLen
  else if index.val = 8 then s.cursor
  else if index.val = 9 then s.outPos
  else if index.val = 10 then s.lzw.word
  else if 16 ≤ index.val then s.sdescWord (index.val - 16)
  else 0

/-! ### Datapath -/

/-- CURSOR moves past `n` bits (R15). -/
def State.advance (n : Nat) (s : State) : State := { s with cursor := s.cursor + BitVec.ofNat 32 n }

/-- R63: `Emit(b)`. -/
def State.emit (b : Byte) (s : State) : State :=
  if s.outPos.toNat < s.outLen then
    { s with outBuf := Store.set s.outBuf s.outPos.toNat b, outPos := s.outPos + 1 }
  else s.warn .overrun

/-- R63: `Emit` of a byte string, in order. -/
def State.emitAll : Bytes → State → State
  | [], s => s
  | b :: bs, s => State.emitAll bs (s.emit b)

/-- R151: `ClearTable`. PREV stays. -/
def LzwRegs.cleared (z : LzwRegs) : LzwRegs := { z with tsize := 258, cw := 9, dict := [] }

/-- R151, on the state. -/
def State.clearTable (s : State) : State := { s with lzw := s.lzw.cleared }

/-- R153: CW after an addition that made the table size `t`. -/
def widthAfter (t : BitVec 13) (cw : BitVec 4) : BitVec 4 :=
  if t.toNat = 511 then 10 else if t.toNat = 1023 then 11 else if t.toNat = 2047 then 12 else cw

/-- R153: `AddEntry(str)`; `none` where it raises Fatal(8), with nothing changed. -/
def State.addEntry (str : Bytes) (s : State) : Option State :=
  if s.lzw.tsize.toNat = 4096 then none
  else some { s with lzw :=
    { s.lzw with
      dict := Store.set s.lzw.dict s.lzw.tsize.toNat str
      tsize := s.lzw.tsize + 1
      cw := widthAfter (s.lzw.tsize + 1) s.lzw.cw } }

/-- R41: the string of a DICT entry; 256, 257 and undefined entries hold a free value no rule reads (log 8). -/
def State.entry (s : State) (k : Nat) : Bytes :=
  if k < 256 then [BitVec.ofNat 8 k] else (Store.get? s.lzw.dict k).getD (Config.undefinedEntry k)

/-- PREV becomes `str`. -/
def State.setPrev (str : Bytes) (s : State) : State := { s with lzw := { s.lzw with prev := some str } }

/-- R102: `InitOperation`. -/
def State.initOperation (s : State) : State :=
  { s with cursor := 0, outPos := 0, lzw := { s.lzw.cleared with prev := none } }

/-! ### How an operation goes on and ends -/

/-- R211: a fatal error ends the decode at once: the finish step comes next, nothing else changes. This is the one way
an operation takes an error. -/
def State.fatal (e : ErrCode) (s : State) : State := { s with phase := .finish e }

/-- R109, R181: after the decode, or at once where there is none, comes the predictor, row 0 first, if PRED selects one
and there is a row; else the finish step. -/
def State.enterPredictor (s : State) : State :=
  if (s.pred.toNat = 1 ∨ s.pred.toNat = 2) ∧ 0 < s.config.rows.toNat then { s with phase := .predict 0 }
  else { s with phase := .finish .none }

/-- R109: a decode loop has returned 0: W_UNDERFILL if OUT_POS < OUT_LEN, then the predictor or the finish step. These
lines belong to the step that ends the loop (R100; log 5). -/
def State.afterDecode (s : State) : State :=
  if s.outPos.toNat < s.outLen then (s.warn .underfill).enterPredictor else s.enterPredictor

/-- R109: what comes first once the start check has passed: the decode loop for PACKBITS and LZW, else the
predictor. -/
def State.enterOperation (s : State) : State :=
  if s.comp.toNat = 1 ∨ s.comp.toNat = 2 then { s with phase := .decode } else s.enterPredictor

/-- R110: `Finish(e)`, after which the block is idle (R216). -/
def State.finish (e : ErrCode) (s : State) : State :=
  { s with status := s.status.finished e, phase := .idle, trail := [] }

/-- R181: the row after `r`, or the finish step after the last one. -/
def State.nextRow (r : Nat) (s : State) : State :=
  if r + 1 < s.config.rows.toNat then { s with phase := .predict (r + 1) } else { s with phase := .finish .none }

/-- R40: while the operation runs, remember the values a step of it has reached. -/
def State.noted (s : State) : State :=
  if s.status.busy then { s with trail := s.snapshot :: s.trail } else s

/-- R45, R117: every register and datapath register at its reset value; IN, OUT and the model's own fields stay
(log 7). -/
def State.softReset (s : State) : State :=
  { s with
    irqEn := false
    status := Status.reset
    config := ConfigRegs.reset
    cursor := 0
    outPos := 0
    lzw := LzwRegs.reset
    phase := .idle
    trail := [] }

/-- R240: as the soft reset, and the contents of IN and OUT are unspecified anew (I9, I10; log 2). -/
def State.hardReset (s : State) : State :=
  { s.softReset with inBuf := [], outBuf := [], powerUps := s.powerUps + 1 }

end Sys2Proof.Machine
end

