-- ==== Sys2Proof/Machine/Operands.lean ====
section
/-! DEFINITION. Operand forms: input bytes and bits, codes, PackBits counts, samples and rows of OUT (20_memory.md
R58, R59, R61, R62; 30_encoding.md R82 to R85, R88; 42_lzw.md R152; 43_predictor.md R180). -/

namespace Sys2Proof.Machine

/-! ### Input -/

/-- R58: `bitrev8`. -/
def bitrev8 (u : Byte) : Byte :=
  BitVec.ofBoolListBE [u.getLsbD 0, u.getLsbD 1, u.getLsbD 2, u.getLsbD 3, u.getLsbD 4, u.getLsbD 5, u.getLsbD 6,
    u.getLsbD 7]

/-- R58: `InByte(i)`. -/
def State.inByte (s : State) (i : Nat) : Byte := if s.lsbFirst then bitrev8 (s.readIn i) else s.readIn i

/-- R59: `InBit(p)`. -/
def State.inBit (s : State) (p : Nat) : Bool := (s.inByte (p / 8)).getLsbD (7 - p % 8)

/-- The `n` bits of the input from bit `p` on, in stream order. -/
def State.inBits (s : State) : Nat → Nat → List Bool
  | _, 0 => []
  | p, n + 1 => s.inBit p :: State.inBits s (p + 1) n

/-- R130, R131, R132: the byte CURSOR stands at, if IN_LEN has one there. -/
def State.byteHere (s : State) : Option Byte :=
  if s.config.inLen.toNat ≤ s.cursor.toNat / 8 then none else some (s.inByte (s.cursor.toNat / 8))

/-- R152: the bits of the next code: CW bits from CURSOR, or none where fewer than CW remain. -/
def State.codeBits (s : State) : List Bool :=
  if 8 * s.config.inLen.toNat < s.cursor.toNat + s.lzw.cw.toNat then []
  else s.inBits s.cursor.toNat s.lzw.cw.toNat

/-- R152: `ReadCode`: the code and the state with CURSOR past it, or `none` for NOCODE. -/
def State.readCode (s : State) : Option (Nat × State) :=
  if 8 * s.config.inLen.toNat < s.cursor.toNat + s.lzw.cw.toNat then none
  else some (codeValue (s.inBits s.cursor.toNat s.lzw.cw.toNat), s.advance s.lzw.cw.toNat)

/-- R84: the context the next code of the stream is classified in. -/
def State.lzwContext (s : State) : LzwContext :=
  { cw := s.lzw.cw.toNat, tsize := s.lzw.tsize.toNat, prevSet := s.lzw.prev.isSome, afterClear := false }

/-! ### PackBits counts -/

/-- 00_scope.md section 5: `sext_8`. -/
def sext8 (u : Byte) : Int := u.toInt

/-- R85: the number of bytes of a literal record, `C + 1`. -/
def literalCount (c : BitVec 7) : Nat := c.toNat + 1

/-- R85: the number of copies of a replicate record, `1 - C`. -/
def replicateCount (u : Byte) : Nat := (1 - sext8 u).toNat

/-! ### Samples of OUT -/

/-- The bytes `OUT[a]`, ..., `OUT[a+n-1]`. -/
def State.outBytes (s : State) : Nat → Nat → Bytes
  | _, 0 => []
  | a, n + 1 => s.readOut a :: State.outBytes s (a + 1) n

/-- The value of a byte string whose first byte is the most significant. -/
def bigEndianValue (bs : Bytes) : Nat := bs.foldl (fun v b => 256 * v + b.toNat) 0

/-- The `n` low bytes of `v`, most significant first. -/
def bigEndianBytes : Nat → Nat → Bytes
  | 0, _ => []
  | n + 1, v => BitVec.ofNat 8 (v / 256 ^ n) :: bigEndianBytes n v

/-- R61: `OutRead(a, n)`. -/
def State.outRead (s : State) (a n : Nat) : Nat :=
  bigEndianValue (if s.littleEndian then (s.outBytes a n).reverse else s.outBytes a n)

/-- Write a byte string to OUT from address `a` on. -/
def State.writeBytes : Nat → Bytes → State → State
  | _, [], s => s
  | a, b :: bs, s => State.writeBytes (a + 1) bs (s.writeOut a b)

/-- R62: `OutWrite(a, n, v)`. -/
def State.outWrite (a n v : Nat) (s : State) : State :=
  State.writeBytes a (if s.littleEndian then (bigEndianBytes n v).reverse else bigEndianBytes n v) s

/-- R180: n, the samples of a row. -/
def State.samplesPerRow (s : State) : Nat := s.config.width.toNat * s.config.spp.toNat

/-- R180: the first byte of row `r` for samples of `b` bytes. -/
def State.rowBase (s : State) (b r : Nat) : Nat := r * (s.samplesPerRow * b)

end Sys2Proof.Machine
end

