-- ==== Sys2Proof/Machine/Lzw.lean ====
section
/-! DEFINITION. The LZW unit (42_lzw.md). A code has been read, and CURSOR is past it, when its meaning runs (R154). A
code that ends the decode loop goes on as R109 says: `State.afterDecode` for `return 0`, `State.fatal` for a code. -/

namespace Sys2Proof.Machine

/-- R159, R160, R161: emit `str`, add `entry`, make `str` the previous string. A full table is fatal after the string
has been emitted (R153, R212), and PREV stays. -/
def State.emitAndAdd (str entry : Bytes) (s : State) : State :=
  match (s.emitAll str).addEntry entry with
  | none => (s.emitAll str).fatal .lzwTableFull
  | some s' => s'.setPrev str

/-- R157: LZW_END. -/
def execLzwEnd (s : State) : Host.Outcome State Fault Refusal := .next s.afterDecode

/-- R158: LZW_IMPLICIT_END. -/
def execLzwImplicitEnd (s : State) : Host.Outcome State Fault Refusal := .next (s.warn .trunc).afterDecode

/-- R162: LZW_INVALID. The code has no effect but that CURSOR is past it. -/
def execLzwInvalid (_c : BitVec 12) (s : State) : Host.Outcome State Fault Refusal := .next (s.fatal .lzwBadCode)

/-- R163: LZW_NO_CLEAR. -/
def execLzwNoClear (_c : BitVec 12) (s : State) : Host.Outcome State Fault Refusal := .next (s.fatal .lzwNoClear)

/-- R156: LZW_FIRST. -/
def execLzwFirst (c : Byte) (s : State) : Host.Outcome State Fault Refusal :=
  .next ((s.emitAll (s.entry c.toNat)).setPrev (s.entry c.toNat))

/-- R155: LZW_CLEAR: ClearTable, then the code after it, read at 9 bits, in the same step (R154). -/
def execLzwClear (s : State) : Host.Outcome State Fault Refusal :=
  match s.clearTable.readCode with
  | none => execLzwImplicitEnd s.clearTable
  | some (c, s') =>
    if c = 257 then execLzwEnd s'
    else if 256 ≤ c then execLzwInvalid (BitVec.ofNat 12 c) s'
    else execLzwFirst (BitVec.ofNat 8 c) s'

/-- R159: LZW_LITERAL. With PREV = NONE the loop's earlier test applies (R154, R163; log 10). -/
def execLzwLiteral (c : Byte) (s : State) : Host.Outcome State Fault Refusal :=
  match s.lzw.prev with
  | none => .next (s.fatal .lzwNoClear)
  | some p => .next (s.emitAndAdd (s.entry c.toNat) (p ++ (s.entry c.toNat).take 1))

/-- R160: LZW_TABLE. With PREV = NONE the loop's earlier test applies (R154, R163; log 10). -/
def execLzwTable (c : BitVec 12) (s : State) : Host.Outcome State Fault Refusal :=
  match s.lzw.prev with
  | none => .next (s.fatal .lzwNoClear)
  | some p => .next (s.emitAndAdd (s.entry c.toNat) (p ++ (s.entry c.toNat).take 1))

/-- R161: LZW_PENDING. With PREV = NONE the loop's earlier test applies (R154, R163; log 10). -/
def execLzwPending (s : State) : Host.Outcome State Fault Refusal :=
  match s.lzw.prev with
  | none => .next (s.fatal .lzwNoClear)
  | some p => .next (s.emitAndAdd (p ++ p.take 1) (p ++ p.take 1))

/-- Run a code class. -/
def runCode (k : CodeClass) (s : State) : Host.Outcome State Fault Refusal :=
  match k with
  | .clear => execLzwClear s
  | .endCode => execLzwEnd s
  | .first c => execLzwFirst c s
  | .literal c => execLzwLiteral c s
  | .table c => execLzwTable c s
  | .pending => execLzwPending s
  | .invalid c => execLzwInvalid c s
  | .noClear c => execLzwNoClear c s
  | .implicitEnd => execLzwImplicitEnd s

/-- R154: one iteration of `LzwDecode`, one decode step. -/
def lzwStep (s : State) : Host.Outcome State Fault Refusal :=
  if s.outLen ≤ s.outPos.toNat then .next s.afterDecode
  else
    match s.readCode with
    | none => runCode .implicitEnd s
    | some (code, s') => runCode (classOf s.lzwContext code) s'

end Sys2Proof.Machine
end

