-- ==== Sys2Proof/Machine/PackBits.lean ====
section
/-! DEFINITION. The PackBits unit (41_packbits.md). The control byte of a record has been consumed when its meaning
runs (R130). A record that ends the decode loop by TRUNCATED goes on as R109 says (`State.afterDecode`). -/

namespace Sys2Proof.Machine

/-- R131: the loop of PB_LITERAL, `n` bytes still to copy. -/
def literalLoop : Nat → State → State
  | 0, s => s
  | n + 1, s =>
    match s.byteHere with
    | none => (s.warn .trunc).afterDecode
    | some b => literalLoop n ((s.emit b).advance 8)

/-- R131: PB_LITERAL. -/
def execPbLiteral (c : BitVec 7) (s : State) : Host.Outcome State Fault Refusal :=
  .next (literalLoop (literalCount c) s)

/-- R132: PB_REPLICATE. -/
def execPbReplicate (u : Byte) (s : State) : Host.Outcome State Fault Refusal :=
  match s.byteHere with
  | none => .next (s.warn .trunc).afterDecode
  | some b => .next ((s.advance 8).emitAll (List.replicate (replicateCount u) b))

/-- R133: PB_NOP: the control byte has been consumed, nothing else happens. -/
def execPbNop (s : State) : Host.Outcome State Fault Refusal := .next s

/-- Run a record. -/
def runRecord (r : Record) (s : State) : Host.Outcome State Fault Refusal :=
  match r with
  | .nop => execPbNop s
  | .literal c => execPbLiteral c s
  | .replicate u => execPbReplicate u s

/-- R130: one iteration of `PackBitsDecode`, one decode step. -/
def packBitsStep (s : State) : Host.Outcome State Fault Refusal :=
  if s.outLen ≤ s.outPos.toNat then .next s.afterDecode
  else
    match s.byteHere with
    | none => .next (s.warn .trunc).afterDecode
    | some u => runRecord (recordOf u) (s.advance 8)

end Sys2Proof.Machine
end

