-- ==== Sys2Proof/Machine/Predictor.lean ====
section
/-! DEFINITION. The predictor unit (43_predictor.md): one step per row (R181). A sub-operation transforms the row that
is due and makes the next one due; where no row is due there is nothing to transform (log 5). -/

namespace Sys2Proof.Machine

/-- 43_predictor.md section 2: the loop of HPRED_ROW from sample `i` on, `k` samples still to do, for samples of `b`
bytes in the row at `base`. -/
def hpredLoop (b base : Nat) : Nat → Nat → State → State
  | 0, _, s => s
  | k + 1, i, s =>
    hpredLoop b base k (i + 1)
      (s.outWrite (base + i * b) b
        ((s.outRead (base + i * b) b + s.outRead (base + (i - s.config.spp.toNat) * b) b) % 2 ^ (8 * b)))

/-- R182, R183, R184: HPRED_ROW(base): samples SPP to n - 1 in increasing order. -/
def hpredRow (b base : Nat) (s : State) : State :=
  hpredLoop b base (s.samplesPerRow - s.config.spp.toNat) s.config.spp.toNat s

/-- R185, phase 1: byte-wise prefix sum with the given stride from byte `i` on, `k` bytes still to do. -/
def prefixLoop (stride : Nat) : Nat → Nat → Bytes → Bytes
  | 0, _, tmp => tmp
  | k + 1, i, tmp => prefixLoop stride k (i + 1) (tmp.set i (tmp[i]?.getD 0 + tmp[i - stride]?.getD 0))

/-- R185, phase 2: the row regrouped from the byte planes of `n` samples of `b` bytes; row byte `t` is byte
`t mod b` of sample `t div b`. -/
def regroup (little : Bool) (b n : Nat) (tmp : Bytes) : Bytes :=
  (List.range (n * b)).map fun t => tmp[(if little then b - 1 - t % b else t % b) * n + t / b]?.getD 0

/-- R185: FPRED_ROW(base). -/
def fpredRow (b base : Nat) (s : State) : State :=
  s.writeBytes base
    (regroup s.littleEndian b s.samplesPerRow
      (prefixLoop s.config.spp.toNat (s.samplesPerRow * b - s.config.spp.toNat) s.config.spp.toNat
        (s.outBytes base (s.samplesPerRow * b))))

/-- R181: transform the row that is due, of samples of `b` bytes, then go to the next. -/
def rowStep (b : Nat) (row : Nat → Nat → State → State) (s : State) : Host.Outcome State Fault Refusal :=
  match s.phase with
  | .predict r => .next ((row b (s.rowBase b r) s).nextRow r)
  | .idle => .next s
  | .decode => .next s
  | .finish _ => .next s

/-- R182: HPRED8. -/
def execHpred8 (s : State) : Host.Outcome State Fault Refusal := rowStep 1 hpredRow s

/-- R183: HPRED16. -/
def execHpred16 (s : State) : Host.Outcome State Fault Refusal := rowStep 2 hpredRow s

/-- R184: HPRED32. -/
def execHpred32 (s : State) : Host.Outcome State Fault Refusal := rowStep 4 hpredRow s

/-- R186: FPRED16. -/
def execFpred16 (s : State) : Host.Outcome State Fault Refusal := rowStep 2 fpredRow s

/-- R187: FPRED24. -/
def execFpred24 (s : State) : Host.Outcome State Fault Refusal := rowStep 3 fpredRow s

/-- R188: FPRED32. -/
def execFpred32 (s : State) : Host.Outcome State Fault Refusal := rowStep 4 fpredRow s

/-- R189: FPRED64. -/
def execFpred64 (s : State) : Host.Outcome State Fault Refusal := rowStep 8 fpredRow s

/-- Run a sub-operation. -/
def runRow (op : RowOp) (s : State) : Host.Outcome State Fault Refusal :=
  match op with
  | .hpred8 => execHpred8 s
  | .hpred16 => execHpred16 s
  | .hpred32 => execHpred32 s
  | .fpred16 => execFpred16 s
  | .fpred24 => execFpred24 s
  | .fpred32 => execFpred32 s
  | .fpred64 => execFpred64 s

/-- R87, R181: one predictor step: the sub-operation that the operation's PRED and SDESC[0].BPS select. The start check
(R106) leaves no pair that selects none (log 9). -/
def predictorStep (pred : BitVec 2) (s : State) : Host.Outcome State Fault Refusal :=
  match rowOpOf pred (s.bps 0) with
  | .ok op => runRow op s
  | .error r => .fault (.rejected r)

end Sys2Proof.Machine
end

