-- ==== Sys2Proof/Machine/Operation.lean ====
section
/-! DEFINITION. The six operations and the start check (40_operation.md sections 3 to 5). An operation is a sequence of
steps (R100): executing an operation word takes the next step of the operation: a decode step, a predictor step or the
finish step. START has done the first (HostCommand.lean; log 5). -/

namespace Sys2Proof.Machine

/-! ### The start check -/

/-- R104: LayoutOK. -/
def State.layoutOk (s : State) : Bool :=
  1 ≤ s.config.spp.toNat && s.config.spp.toNat ≤ s.params.maxSpp &&
    (List.range s.config.spp.toNat).all fun i =>
      1 ≤ (s.bps i).toNat && (s.bps i).toNat ≤ 64 && (s.sfmt i).toNat ≤ 3

/-- R106: `uniform`. -/
def State.uniformBps (s : State) : Bool := (List.range s.config.spp.toNat).all fun i => s.bps i == s.bps 0

/-- R106: PredictorOK. -/
def State.predictorOk (s : State) : Bool :=
  if s.pred.toNat = 3 then false
  else if s.pred.toNat = 0 then true
  else if s.comp.toNat = 1 then false
  else if s.comp.toNat = 2 ∧ s.pred.toNat = 2 then false
  else if s.pred.toNat = 1 then s.uniformBps && [8, 16, 32].contains (s.bps 0).toNat
  else s.uniformBps && [16, 24, 32, 64].contains (s.bps 0).toNat &&
    (List.range s.config.spp.toNat).all fun i => (s.sfmt i).toNat == 2

/-- R107: CapacityOK, on the exact output length. -/
def State.capacityOk (s : State) : Bool :=
  s.outLenExact ≤ s.params.outCap &&
    (!(s.comp.toNat == 1 || s.comp.toNat == 2) || s.config.inLen.toNat ≤ s.params.inCap)

/-- R150: LegacyLZW, on normalised bytes. -/
def State.legacyLzw (s : State) : Bool :=
  2 ≤ s.config.inLen.toNat && s.inByte 0 == 0x00#8 && s.inByte 1 == 0x01#8

/-- R103: ConfigCheck: the first failing check, in the order of R103. -/
def State.configCheck (s : State) : ErrCode :=
  if 3 ≤ s.comp.toNat then .unsupportedCompression
  else if !s.layoutOk then .badLayout
  else if !s.predictorOk then .illegalPredictor
  else if !s.capacityOk then .capacity
  else if s.comp.toNat = 2 ∧ s.legacyLzw then .legacyLzw
  else .none

/-! ### The steps of an operation -/

/-- R109: with COMP = EXTERNAL there is no decode (`e <- 0`). -/
def noDecode (s : State) : Host.Outcome State Fault Refusal := .next s.enterPredictor

/-- R100, R109: the next step of the running operation, whose decode loop is `decodeStep` and whose predictor is `pred`
(0 NONE, 1 HORIZONTAL, 2 FLOAT). With nothing running there is no step to take. -/
def operationStep (decodeStep : State → Host.Outcome State Fault Refusal) (pred : BitVec 2) (s : State) :
    Host.Outcome State Fault Refusal :=
  match s.phase with
  | .idle => .next s
  | .decode => decodeStep s
  | .predict _ => predictorStep pred s
  | .finish e => .next (s.finish e)

/-- R111: OP_EXTERNAL_NONE: no decode, no predictor. -/
def execOpExternalNone (s : State) : Host.Outcome State Fault Refusal := operationStep noDecode 0 s

/-- R112: OP_EXTERNAL_HPRED: no decode, then HorizontalReverse. -/
def execOpExternalHpred (s : State) : Host.Outcome State Fault Refusal := operationStep noDecode 1 s

/-- R113: OP_EXTERNAL_FPRED: no decode, then FloatReverse. -/
def execOpExternalFpred (s : State) : Host.Outcome State Fault Refusal := operationStep noDecode 2 s

/-- R114: OP_PACKBITS: PackBitsDecode, no predictor. -/
def execOpPackbits (s : State) : Host.Outcome State Fault Refusal := operationStep packBitsStep 0 s

/-- R115: OP_LZW: LzwDecode, no predictor. -/
def execOpLzw (s : State) : Host.Outcome State Fault Refusal := operationStep lzwStep 0 s

/-- R116: OP_LZW_HPRED: LzwDecode, then HorizontalReverse. -/
def execOpLzwHpred (s : State) : Host.Outcome State Fault Refusal := operationStep lzwStep 1 s

/-- A MODE word that selects no operation has failed the start check (R105, R106): the finish step with its code is all
that is left (R109). Any other step of it is one no run reaches (log 9). -/
def rejectedStep (r : Reject) (s : State) : Host.Outcome State Fault Refusal :=
  match s.phase with
  | .finish e => .next (s.finish e)
  | .idle => .next s
  | .decode => .fault (.rejected r)
  | .predict _ => .fault (.rejected r)

end Sys2Proof.Machine
end

