-- ==== Sys2Proof/Machine/HostCommand.lean ====
section
/-! DEFINITION. The host's commands (40_operation.md sections 2 and 6) and its other accesses (10_state.md R26, R27,
R40; 20_memory.md R51). -/

namespace Sys2Proof.Machine

/-! ### Commands of the opcode table -/

/-- R100 step 1, R101, R102, R103: the START step. Status is cleared, the per-operation state initialised and the
configuration checked; a failed check leaves only the finish step (R109). -/
def State.startStep (s : State) : State :=
  let s' := ({ s with status := Status.started } : State).initOperation
  let s'' := if s'.configCheck = .none then s'.enterOperation else s'.fatal s'.configCheck
  { s'' with trail := [s''.snapshot] }

/-- R101, R27, R39: START: IRQ_EN is stored first; while BUSY = 1 nothing else happens. -/
def execStart (irqEn : Bool) (s : State) : Host.Outcome State Fault Refusal :=
  if s.status.busy then .next { s with irqEn := irqEn } else .next ({ s with irqEn := irqEn } : State).startStep

/-- R117, R27, R39: SRST: IRQ_EN is stored first; with BUSY = 0 the soft reset follows and START is ignored; while
BUSY = 1 nothing else happens. -/
def execSrst (_startBit irqEn : Bool) (s : State) : Host.Outcome State Fault Refusal :=
  if s.status.busy then .next { s with irqEn := irqEn } else .next ({ s with irqEn := irqEn } : State).softReset

/-- R118: DONE_ACK. -/
def execDoneAck (s : State) : Host.Outcome State Fault Refusal :=
  .next { s with status := { s.status with done := false } }

/-- R119, R39: CONFIG_WRITE. -/
def execConfigWrite (reg : CfgReg) (data : Word) (s : State) : Host.Outcome State Fault Refusal :=
  if s.status.busy then .next s else .next (s.storeConfig reg data)

/-! ### Other host accesses -/

/-- A register write that is no command: a CTRL write without START and SRST stores IRQ_EN (R27); every other has no
effect (R25, R28, R118, R119). -/
def plainWrite (index : Fin 32) (data : Word) (s : State) : State :=
  if index.val = 0 then { s with irqEn := data.getLsbD 2 } else s

/-- R40: the registers whose value moves while BUSY = 1. -/
def movesWhileBusy (index : Fin 32) : Bool :=
  index.val == 1 || index.val == 8 || index.val == 9 || index.val == 10

/-- The register of R40 at `index`, in a snapshot. -/
def Snapshot.at (p : Snapshot) (index : Fin 32) : Word :=
  if index.val = 1 then p.status
  else if index.val = 8 then p.cursor
  else if index.val = 9 then p.outPos
  else p.lzwState

/-- R40, I12: the snapshot a busy read draws: one the operation has reached. -/
def State.drawSnapshot (s : State) : Snapshot :=
  s.trail[Config.busyReadPick s.draws % s.trail.length]?.getD s.snapshot

/-- R26, R40: a register read: no side effect on the block. -/
def State.readRegister (index : Fin 32) (s : State) : State :=
  if s.status.busy && movesWhileBusy index then
    { s with hostRead := .word (s.drawSnapshot.at index), draws := s.draws + 1 }
  else { s with hostRead := .word (s.registerWord index) }

/-- The capacity of a buffer (R50). -/
def State.capacity (s : State) : Config.Buffer → Nat
  | .input => s.params.inCap
  | .output => s.params.outCap

/-- R51: a host write of a byte. -/
def State.hostWriteByte (buffer : Config.Buffer) (a : Nat) (v : Byte) (s : State) : State :=
  if s.status.busy then s
  else if s.capacity buffer ≤ a then s
  else
    match buffer with
    | .input => s.writeIn a v
    | .output => s.writeOut a v

/-- R51: what a host read of a byte returns with BUSY = 0. -/
def State.byteAt (s : State) (buffer : Config.Buffer) (a : Nat) : Byte :=
  if s.capacity buffer ≤ a then 0
  else
    match buffer with
    | .input => s.readIn a
    | .output => s.readOut a

/-- R51, I11: a host read of a byte; any value while BUSY = 1. -/
def State.hostReadByte (buffer : Config.Buffer) (a : Nat) (s : State) : State :=
  if s.status.busy then { s with hostRead := .byte (Config.busyReadByte s.draws), draws := s.draws + 1 }
  else { s with hostRead := .byte (s.byteAt buffer a) }

/-! ### Placing a word of the opcode table where the next step reads it (log 13, log 14) -/

/-- The bytes of IN, from address 0, that put a table word at CURSOR = 0: the record's or code's bytes, then zeros. -/
def placedBytes (format : TableFormat) (w : Nat) : Bytes :=
  match format with
  | .record => BitVec.ofNat 8 w :: List.replicate 128 0
  | .code => bigEndianBytes 2 (w * 2 ^ (16 - tableCodeWidth w)) ++ [0, 0, 0]
  | .operation => []
  | .command => []
  | .config => []
  | .none => []

/-- IN with a byte string from address `a` on. -/
def State.loadIn : Nat → Bytes → State → State
  | _, [], s => s
  | a, b :: bs, s => State.loadIn (a + 1) bs (s.writeIn a b)

/-- A decode with COMP = `mode` just begun: registers as START leaves them, one row of 128 bytes, `n` input bytes. -/
def State.decoding (mode : Word) (n : Nat) (s : State) : State :=
  { s with
    turns := []
    status := Status.started
    config := { ConfigRegs.reset with mode := mode, width := 128, rows := 1, inLen := BitVec.ofNat 32 n }
    cursor := 0
    outPos := 0
    phase := .decode }

/-- See `State.withFetchWord` in Step.lean. -/
def State.placeTableWord (s : State) (nbits w : Nat) : State :=
  match tableFormat nbits w with
  | .operation =>
    ({ s with
        turns := []
        status := Status.started
        config := { s.config with mode := BitVec.ofNat 32 w } } : State).enterOperation
  | .command => { s with turns := .host (.writeReg 0 (BitVec.ofNat 32 w)) :: s.turns }
  | .config => { s with turns := .host (.writeReg 2 (BitVec.ofNat 32 w)) :: s.turns }
  | .record => (s.loadIn 0 (placedBytes .record w)).decoding 1 129
  | .code =>
    { (s.loadIn 0 (placedBytes .code w)).decoding 2 5 with
      lzw := { LzwRegs.reset with cw := BitVec.ofNat 4 (tableCodeWidth w), prev := some [0] } }
  | .none => s

end Sys2Proof.Machine
end

