-- ==== Sys2Proof/Machine/Dispatch.lean ====
section
/-! DEFINITION. The meaning of every instruction of the opcode table. -/

namespace Sys2Proof.Machine

def exec (i : Instr) (s : State) : Host.Outcome State Fault Refusal :=
  match i with
  | .opExternalNone => Sys2Proof.Machine.execOpExternalNone s
  | .opExternalHpred => Sys2Proof.Machine.execOpExternalHpred s
  | .opExternalFpred => Sys2Proof.Machine.execOpExternalFpred s
  | .opPackbits => Sys2Proof.Machine.execOpPackbits s
  | .opLzw => Sys2Proof.Machine.execOpLzw s
  | .opLzwHpred => Sys2Proof.Machine.execOpLzwHpred s
  | .start irqEn => Sys2Proof.Machine.execStart irqEn s
  | .srst startBit irqEn => Sys2Proof.Machine.execSrst startBit irqEn s
  | .doneAck => Sys2Proof.Machine.execDoneAck s
  | .configWrite reg data => Sys2Proof.Machine.execConfigWrite reg data s
  | .pbNop => Sys2Proof.Machine.execPbNop s
  | .pbLiteral c => Sys2Proof.Machine.execPbLiteral c s
  | .pbReplicate u => Sys2Proof.Machine.execPbReplicate u s
  | .lzwClear => Sys2Proof.Machine.execLzwClear s
  | .lzwEnd => Sys2Proof.Machine.execLzwEnd s
  | .lzwFirst c => Sys2Proof.Machine.execLzwFirst c s
  | .lzwLiteral c => Sys2Proof.Machine.execLzwLiteral c s
  | .lzwTable c => Sys2Proof.Machine.execLzwTable c s
  | .lzwPending => Sys2Proof.Machine.execLzwPending s
  | .lzwInvalid c => Sys2Proof.Machine.execLzwInvalid c s
  | .lzwNoClear c => Sys2Proof.Machine.execLzwNoClear c s
  | .lzwImplicitEnd => Sys2Proof.Machine.execLzwImplicitEnd s
  | .hpred8 => Sys2Proof.Machine.execHpred8 s
  | .hpred16 => Sys2Proof.Machine.execHpred16 s
  | .hpred32 => Sys2Proof.Machine.execHpred32 s
  | .fpred16 => Sys2Proof.Machine.execFpred16 s
  | .fpred24 => Sys2Proof.Machine.execFpred24 s
  | .fpred32 => Sys2Proof.Machine.execFpred32 s
  | .fpred64 => Sys2Proof.Machine.execFpred64 s

end Sys2Proof.Machine
end

