-- ==== Sys2Proof/Machine/Step.lean ====
section
/-! DEFINITION. One step of the machine: the next move of its surroundings, or the next step of the running operation
(R100, R66; log 3). -/

namespace Sys2Proof.Machine

/-- The next step of the block. While BUSY = 1 it executes the operation its MODE word is (R81; R39 keeps the word), and
the values the step reaches are remembered for R40. With BUSY = 0 the block is idle and all state survives (R220). -/
def blockStep (s : State) : Host.Outcome State Fault Refusal :=
  if s.status.busy then
    match (match decode (.operation s.config.mode) with
      | .ok i => exec i s
      | .error r => rejectedStep r s) with
    | .next t => .next t.noted
    | .fault f => .fault f
    | .refused r => .refused r
  else .next s

/-- A move of the surroundings. A register write that is a command of the opcode table executes it. -/
def hostStep (move : HostMove) (s : State) : Host.Outcome State Fault Refusal :=
  match move with
  | .writeReg index data =>
    match decode (.hostWrite index data) with
    | .ok i => exec i s
    | .error _ => .next (plainWrite index data s)
  | .readReg index => .next (s.readRegister index)
  | .writeByte buffer a v => .next (s.hostWriteByte buffer a v)
  | .readByte buffer a => .next (s.hostReadByte buffer a)
  | .hardReset => .next s.hardReset

/-- One step: the next turn, or, with no turn left, the block's next step. -/
def step (s : State) : Host.Outcome State Fault Refusal :=
  match s.turns with
  | .host move :: rest => hostStep move { s with turns := rest }
  | .block :: rest => blockStep { s with turns := rest }
  | [] => blockStep s

/-- `s` with the instruction that `decodeTableWord nbits w` reads placed where the next step reads it: an operation
word in MODE with the operation begun; a command or configuration write as the host's next move; a record or code at
the head of IN with its decode begun (log 13, log 14). -/
def State.withFetchWord (s : State) (nbits w : Nat) : State := s.placeTableWord nbits w

end Sys2Proof.Machine
end

