-- ==== Sys2Proof/Safety.lean ====
section
/-! DEFINITION. What a safe run is, in the terms the statements use: the invariant of the machine, the bound of R121,
and the relations and stream notations that several statements share. -/

namespace Sys2Proof.Machine

/-- A defined dictionary string (R41): a single byte, or the string of an entry that an addition has defined. -/
def LzwRegs.holds (z : LzwRegs) (str : Bytes) : Prop := str.length = 1 ∨ str ∈ z.dict.map Prod.snd

/-- What holds of the LZW datapath between steps. -/
structure LzwRegs.Ok (z : LzwRegs) : Prop where
  /-- R13. -/
  low : 258 ≤ z.tsize.toNat
  /-- R13. -/
  high : z.tsize.toNat ≤ 4096
  /-- R164: CW is the function of TSIZE. -/
  width : z.cw.toNat = widthFor z.tsize.toNat
  /-- R41: the defined entries are 258 to TSIZE - 1. -/
  keys : z.dict.map Prod.fst = List.range' 258 (z.tsize.toNat - 258)
  /-- R42: the length of every entry, and its prefix is in the dictionary. -/
  entries : ∀ e ∈ z.dict, 2 ≤ e.2.length ∧ e.2.length ≤ e.1 - 256 ∧ z.holds e.2.dropLast
  /-- R12, R42: the length of PREV. -/
  prevLength : ∀ p ∈ z.prev, 1 ≤ p.length ∧ p.length ≤ 3839

/-- The configuration errors (R210). -/
def ErrCode.isConfiguration : ErrCode → Bool
  | .none => false
  | .unsupportedCompression => true
  | .illegalPredictor => true
  | .badLayout => true
  | .capacity => true
  | .legacyLzw => true
  | .lzwBadCode => false
  | .lzwNoClear => false
  | .lzwTableFull => false

/-- The error code a state reports or is about to report (R110). -/
def State.reports (s : State) (e : ErrCode) : Prop := s.status.err = e ∨ s.phase = .finish e

/-- What holds between any two steps of a run from reset. -/
structure State.Inv (s : State) : Prop where
  /-- R3. -/
  params : s.params.legal = true
  /-- R25, R29: reserved bits of MODE read 0. -/
  modeBits : s.config.mode &&& ~~~modeMask = 0
  /-- R25, R38: reserved bits of SDESC read 0. -/
  sdescBits : ∀ i : Fin 16, s.config.sdesc[i] &&& ~~~sdescMask = 0
  /-- IN is in canonical form, within its capacity (R50). -/
  inForm : Memory.wf s.inBuf = true
  inBound : ∀ c ∈ s.inBuf, c.1 < s.params.inCap
  /-- OUT is in canonical form, within its capacity (R50, R53). -/
  outForm : Memory.wf s.outBuf = true
  outBound : ∀ c ∈ s.outBuf, c.1 < s.params.outCap
  /-- R12 to R14, R41, R42, R164. -/
  lzw : s.lzw.Ok
  /-- R17: BUSY from START to the finish step. -/
  busyPhase : s.status.busy = true ↔ s.phase ≠ .idle
  /-- R101, R110: while BUSY = 1, DONE = 0 and ERR = 0. -/
  busyDone : s.status.busy = true → s.status.done = false ∧ s.status.err = .none
  /-- R40: a running operation has reached some values, an idle block none. -/
  trailBusy : s.status.busy = true ↔ s.trail ≠ []
  /-- R15. -/
  cursorBound : s.status.busy = true → s.cursor.toNat ≤ 8 * s.config.inLen.toNat
  /-- R15: CURSOR is a multiple of 8 in a PackBits operation. -/
  cursorByte : s.status.busy = true → s.comp = 1 → s.cursor.toNat % 8 = 0
  /-- R16. -/
  outPosBound : s.status.busy = true → s.outPos.toNat ≤ s.outLen
  /-- R37: only an LZW operation moves the LZW datapath. -/
  lzwOnly : s.status.busy = true → s.comp ≠ 2 → s.lzw = LzwRegs.reset
  /-- R103, R212: no decode or predictor step without a passed start check. -/
  checked : s.status.busy = true → (∃ e, s.phase = .finish e) ∨ s.configCheck = .none
  /-- R109: only PACKBITS and LZW decode. -/
  decodeComp : s.phase = .decode → s.comp = 1 ∨ s.comp = 2
  /-- R20 to R22, R214: the warnings during a decode. -/
  decodeWarnings : s.phase = .decode →
    s.status.wTrunc = false ∧ s.status.wUnderfill = false ∧ (s.status.wOverrun = true → s.outLen ≤ s.outPos.toNat)
  /-- R12, R42: during a decode PREV is a dictionary string shorter than the entry it can start. -/
  decodePrev : s.phase = .decode → ∀ p ∈ s.lzw.prev, p.length ≤ s.lzw.tsize.toNat - 257 ∧ s.lzw.holds p
  /-- R181: the row that is due exists, and there is a predictor. -/
  predictRow : ∀ r, s.phase = .predict r → r < s.config.rows.toNat ∧ (s.pred = 1 ∨ s.pred = 2)
  /-- R214: which warnings stand with which error. -/
  errorWarnings : ∀ e, s.reports e → e ≠ .none →
    s.status.wTrunc = false ∧ s.status.wUnderfill = false ∧ (s.status.wOverrun = true → e = .lzwTableFull)
  /-- R210, R212: a configuration error is reported before any decode step. -/
  errorEarly : ∀ e, s.reports e → e.isConfiguration = true →
    s.cursor = 0 ∧ s.outPos = 0 ∧ s.lzw = LzwRegs.reset ∧ s.status.wOverrun = false

/-! ### Relations the statements share -/

/-- R63, as a relation: `u` is `s` after `Emit(bs)`. As many bytes as there is room for go to OUT at OUT_POS; if any is
dropped W_OVERRUN is set; nothing else changes. -/
structure State.Emitted (s : State) (bs : Bytes) (u : State) : Prop where
  outPos : u.outPos.toNat = s.outPos.toNat + min bs.length (s.outLen - s.outPos.toNat)
  status : u.status = if s.outLen - s.outPos.toNat < bs.length then { s.status with wOverrun := true } else s.status
  bytes : ∀ a, u.readOut a =
    if s.outPos.toNat ≤ a ∧ a < u.outPos.toNat then bs[a - s.outPos.toNat]?.getD 0 else s.readOut a
  frame : u = { s with outPos := u.outPos, status := u.status, outBuf := u.outBuf }

/-- R153, R159 to R161, as a relation: `y` is `z` after the addition of `entry` and with PREV = `str`. -/
structure LzwRegs.Added (z : LzwRegs) (str entry : Bytes) (y : LzwRegs) : Prop where
  tsize : y.tsize.toNat = z.tsize.toNat + 1
  cw : y.cw = if z.tsize.toNat + 1 = 511 then 10 else if z.tsize.toNat + 1 = 1023 then 11
    else if z.tsize.toNat + 1 = 2047 then 12 else z.cw
  prev : y.prev = some str
  dict : ∀ k, Store.get? y.dict k = if k = z.tsize.toNat then some entry else Store.get? z.dict k

/-- HPRED_ROW (43_predictor.md section 2) as a relation, for samples of `b` bytes: in row `r` every sample from SPP on is
its old value plus the new value of the sample SPP before it, modulo 2^(8b); the first SPP samples stay. -/
def State.HorizontalRow (b r : Nat) (s t : State) : Prop :=
  ∀ i < s.samplesPerRow,
    t.outRead (s.rowBase b r + i * b) b =
      if i < s.config.spp.toNat then s.outRead (s.rowBase b r + i * b) b
      else (s.outRead (s.rowBase b r + i * b) b +
        t.outRead (s.rowBase b r + (i - s.config.spp.toNat) * b) b) % 2 ^ (8 * b)

/-- FPRED_ROW (R185) as a relation, for samples of `b` bytes: there is a byte-wise prefix sum `tmp` of row `r` with
stride SPP, and byte `j` of sample `k` is byte `k` of plane `q` of `tmp`, `q` as BYTE_ORDER says. -/
def State.FloatRow (b r : Nat) (s t : State) : Prop :=
  ∃ tmp : Nat → Byte,
    (∀ i < s.samplesPerRow * b, tmp i =
      if i < s.config.spp.toNat then s.readOut (s.rowBase b r + i)
      else s.readOut (s.rowBase b r + i) + tmp (i - s.config.spp.toNat)) ∧
    ∀ k < s.samplesPerRow, ∀ j < b, t.readOut (s.rowBase b r + k * b + j) =
      tmp ((if s.littleEndian then b - 1 - j else j) * s.samplesPerRow + k)

/-- The bytes of row `r` for samples of `b` bytes (R180). -/
def State.inRow (s : State) (b r a : Nat) : Prop :=
  s.rowBase b r ≤ a ∧ a < s.rowBase b r + s.samplesPerRow * b

/-- R121: the number of decode steps an operation may take. -/
def State.decodeBound (s : State) : Nat :=
  if s.comp.toNat = 1 then s.config.inLen.toNat + 1
  else if s.comp.toNat = 2 then 8 * s.config.inLen.toNat / 9 + 2
  else 0

/-- The encoding of a PackBits record with its payload (R82, R91): a literal run, a replicated byte, a no-op. -/
inductive RecordText where
  | lit (bytes : Bytes)
  | rep (n : Nat) (b : Byte)
  | nop
deriving DecidableEq, Repr

/-- R91: the counts a record can have. -/
def RecordText.ok : RecordText → Bool
  | .lit bs => 1 ≤ bs.length && bs.length ≤ 128
  | .rep n _ => 2 ≤ n && n ≤ 128
  | .nop => true

/-- R91: the bytes a record assembles to. -/
def RecordText.assemble : RecordText → Bytes
  | .lit bs => BitVec.ofNat 8 (bs.length - 1) :: bs
  | .rep n b => [BitVec.ofNat 8 (257 - n), b]
  | .nop => [0x80#8]

/-- R82, R91: the bytes a record stands for. -/
def RecordText.expand : RecordText → Bytes
  | .lit bs => bs
  | .rep n b => List.replicate n b
  | .nop => []

/-- The string a code names, for a dictionary whose added entries are `table` (code 258 first) and a previous string `p`
(R41, R159 to R161): a byte, an entry, or the pending string. -/
def codeString (table : List Bytes) (p : Bytes) (code : Nat) : Option Bytes :=
  if code < 256 then some [BitVec.ofNat 8 code]
  else if code < 258 then none
  else if code = 258 + table.length then some (p ++ p.take 1)
  else table[code - 258]?

/-- `LzwText table prev bits m`: from a dictionary with the added entries `table` and the previous string `prev`, the bits
`bits` are codes that spell `m`, each written at the width of R86 and R92, by any encoder that keeps the same table. -/
inductive LzwText : List Bytes → Option Bytes → List Bool → Bytes → Prop where
  /-- The end of the stream; END may follow, or nothing. -/
  | stop (table : List Bytes) (prev : Option Bytes) : LzwText table prev [] []
  /-- CLEAR and the code after it (R155, R156). -/
  | clear (table : List Bytes) (prev : Option Bytes) (c : Byte) (bits : List Bool) (m : Bytes) :
    258 + table.length ≤ 4096 → LzwText [] (some [c]) bits m →
    LzwText table prev (bitsOf (widthFor (258 + table.length)) 256 ++ (bitsOf 9 c.toNat ++ bits)) (c :: m)
  /-- Any other code (R159 to R161); the table has room for the addition. -/
  | code (table : List Bytes) (p str : Bytes) (code : Nat) (bits : List Bool) (m : Bytes) :
    258 + table.length < 4096 → codeString table p code = some str →
    LzwText (table ++ [p ++ str.take 1]) (some str) bits m →
    LzwText table (some p) (bitsOf (widthFor (258 + table.length)) code ++ bits) (str ++ m)

end Sys2Proof.Machine
end

