-- ==== Sys2Proof/Certificates/Slice0/Obligations.lean ====
section
/-! DEFINITION. The statements for the provers, from the numbered rules of spec/. A rule named in a docstring is the one
the statement formalises; what rests on a choice of the model says so and names its log entry. -/

open Sys2Proof Sys2Proof.Machine

/-! ### Decoding -/

/-- R81, R82, R84, R87, R92, R101, R117 to R119. Decoding the encoding of a well-formed instruction, in a context where
R84 allows it, gives the instruction back: every operand, at every value its encoding admits. -/
def Obligations.DecodeUndoesEncode : Prop :=
  ∀ (ctx : LzwContext) (i : Instr),
    ctx.legal = true → i.wellFormed = true → i.inContext ctx = true → decode (encode ctx i) = .ok i

/-- R82, R84. Whatever decodes is well formed, and an LZW code decodes only to a class its context allows. -/
def Obligations.DecodedIsWellFormed : Prop :=
  (∀ (e : Encoded) (i : Instr), (∀ ctx bits, e = .lzw ctx bits → ctx.legal = true ∧ bits.length ≤ ctx.cw) →
    decode e = .ok i → i.wellFormed = true) ∧
  (∀ (ctx : LzwContext) (bits : List Bool) (i : Instr), ctx.legal = true → bits.length ≤ ctx.cw →
    decode (.lzw ctx bits) = .ok i → i.inContext ctx = true)

/-- R27, R81, R82, R84, R87: a few words of the spec, decoded. -/
def Obligations.SpecWordsDecode : Prop :=
  decode (.operation 0x00000312#32) = .ok .opLzwHpred ∧
  decode (.operation 0x00000120#32) = .ok .opExternalFpred ∧
  decode (.operation 0x00000022#32) = .error .illegalPredictor ∧
  decode (.operation 0x00000003#32) = .error .unsupportedCompression ∧
  decode (.hostWrite 0 0x00000005#32) = .ok (.start true) ∧
  decode (.hostWrite 0 0x00000003#32) = .ok (.srst true false) ∧
  decode (.hostWrite 17 0x00000220#32) = .ok (.configWrite (.sdesc 1) 0x220#32) ∧
  decode (.packBits 0x80#8) = .ok .pbNop ∧
  decode (.packBits 0xFD#8) = .ok (.pbReplicate 0xFD#8) ∧
  decode (.lzw ⟨9, 260, true, false⟩ [true, false, false, false, false, false, true, false, false]) = .ok .lzwPending ∧
  decode (.predictor 2 24#8) = .ok .fpred24

/-! ### Steps -/

/-- R100, R101, R109: a step runs the decoded instruction. A register write that is a command executes it; while
BUSY = 1 the block executes the operation its MODE word is, and the values it reaches are noted for R40; with BUSY = 0
the block does nothing. -/
def Obligations.StepRunsDecodedInstruction : Prop :=
  ∀ (s : State) (rest : List Turn),
    (∀ index data i, s.turns = .host (.writeReg index data) :: rest → decode (.hostWrite index data) = .ok i →
      step s = exec i { s with turns := rest }) ∧
    (∀ i t, (s.turns = .block :: rest ∨ s.turns = [] ∧ rest = []) → s.status.busy = true →
      decode (.operation s.config.mode) = .ok i → exec i { s with turns := rest } = .next t →
      step s = .next t.noted) ∧
    ((s.turns = .block :: rest ∨ s.turns = [] ∧ rest = []) → s.status.busy = false →
      step s = .next { s with turns := rest })

/-- R130, R154, R181: the item a running operation executes is the one its next record, code or row decodes to, CURSOR
having passed the control byte or the code. -/
def Obligations.OperationRunsDecodedItem : Prop :=
  (∀ (s : State) (u : Byte) (i : Instr), s.phase = .decode → s.outPos.toNat < s.outLen →
    s.cursor.toNat / 8 < s.config.inLen.toNat → u = s.inByte (s.cursor.toNat / 8) →
    decode (.packBits u) = .ok i →
    exec .opPackbits s = exec i { s with cursor := s.cursor + 8 }) ∧
  (∀ (s : State) (i : Instr), s.phase = .decode → s.outPos.toNat < s.outLen → 9 ≤ s.lzw.cw.toNat →
    decode (.lzw s.lzwContext s.codeBits) = .ok i →
    ∀ op ∈ [Instr.opLzw, Instr.opLzwHpred], exec op s =
      exec i (if 8 * s.config.inLen.toNat < s.cursor.toNat + s.lzw.cw.toNat then s
        else { s with cursor := s.cursor + s.lzw.cw.setWidth 32 })) ∧
  (∀ (s : State) (r : Nat) (i op : Instr) (p : BitVec 2), s.phase = .predict r →
    (op, p) ∈ [(Instr.opExternalHpred, 1#2), (Instr.opLzwHpred, 1#2), (Instr.opExternalFpred, 2#2)] →
    decode (.predictor p (s.bps 0)) = .ok i → exec op s = exec i s)

/-- R110, R100: the finish step, whatever MODE holds: ERR, BUSY, DONE; CURSOR, OUT_POS, TSIZE, CW, OUT and the warnings
keep their values, and `irq` is IRQ_EN (R24). -/
def Obligations.FinishStepReports : Prop :=
  ∀ (s : State) (e : ErrCode), s.status.busy = true → s.turns = [] → s.phase = .finish e →
    ∃ t, step s = .next t ∧
      t = { s with status := { s.status with err := e, busy := false, done := true }, phase := .idle, trail := [] } ∧
      t.irq = s.irqEn

/-- R109, R110, R130, R154: each of the six operations takes the steps that are its own: the finish step; with the
output complete the end of its decode loop; in PackBits also with the input at its end. With nothing running it does
nothing (the model's choice, log 5). -/
def Obligations.OperationsEndTheirLoops : Prop :=
  ∀ (s : State),
    (∀ op ∈ [Instr.opExternalNone, .opExternalHpred, .opExternalFpred, .opPackbits, .opLzw, .opLzwHpred],
      (∀ e, s.phase = .finish e → exec op s = .next
        { s with status := { s.status with err := e, busy := false, done := true }, phase := .idle, trail := [] }) ∧
      (s.phase = .idle → exec op s = .next s)) ∧
    (s.phase = .decode → s.outLen ≤ s.outPos.toNat →
      ∀ op ∈ [Instr.opPackbits, .opLzw, .opLzwHpred], exec op s = .next s.afterDecode) ∧
    (s.phase = .decode → s.outPos.toNat < s.outLen → s.config.inLen.toNat ≤ s.cursor.toNat / 8 →
      exec .opPackbits s = .next ({ s with status := { s.status with wTrunc := true } } : State).afterDecode)

/-- R114 to R116, R130, R154, R53, R15: in the decode phase the three decoding operations take a decode step from every
state. It changes STATUS in its warnings only, which it never clears, moves OUT_POS forward only, writes OUT from OUT_POS to
OUT_LEN only, and in PackBits leaves the LZW datapath alone. -/
def Obligations.DecodeStepsComplete : Prop :=
  ∀ (s : State), s.phase = .decode → ∀ op ∈ [Instr.opPackbits, .opLzw, .opLzwHpred],
    ∃ t, exec op s = .next t ∧
      t = { s with
        status := t.status, cursor := t.cursor, outPos := t.outPos, lzw := t.lzw, outBuf := t.outBuf, phase := t.phase } ∧
      t.status = { s.status with
        wTrunc := t.status.wTrunc, wOverrun := t.status.wOverrun, wUnderfill := t.status.wUnderfill } ∧
      (s.status.wTrunc = true → t.status.wTrunc = true) ∧ (s.status.wOverrun = true → t.status.wOverrun = true) ∧
      (s.status.wUnderfill = true → t.status.wUnderfill = true) ∧
      s.outPos.toNat ≤ t.outPos.toNat ∧ (∀ a, a < s.outPos.toNat ∨ s.outLen ≤ a → t.readOut a = s.readOut a) ∧
      (op = .opPackbits → t.lzw = s.lzw)

/-- R112, R113, R116, R181, R87: with a row due the operations with a predictor transform it, by the sub-operation that
SDESC[0].BPS = 8 * b selects, and make the next row due; nothing else changes. -/
def Obligations.PredictorStepsComplete : Prop :=
  ∀ (s : State) (r b : Nat), s.phase = .predict r → (s.bps 0).toNat = 8 * b →
    (b ∈ [1, 2, 4] → ∀ op ∈ [Instr.opExternalHpred, .opLzwHpred],
      ∃ t, exec op s = .next t ∧ s.HorizontalRow b r t ∧ (∀ a, ¬ s.inRow b r a → t.readOut a = s.readOut a) ∧
        t = { s with
          outBuf := t.outBuf
          phase := if r + 1 < s.config.rows.toNat then .predict (r + 1) else .finish .none }) ∧
    (b ∈ [2, 3, 4, 8] →
      ∃ t, exec .opExternalFpred s = .next t ∧ s.FloatRow b r t ∧ (∀ a, ¬ s.inRow b r a → t.readOut a = s.readOut a) ∧
        t = { s with
          outBuf := t.outBuf
          phase := if r + 1 < s.config.rows.toNat then .predict (r + 1) else .finish .none })

/-- R109, R22: what follows a decode loop that returned 0: W_UNDERFILL if OUT_POS < OUT_LEN, then the predictor from row
0 if there is one and a row to reverse, else the finish step. (That these lines belong to the step that ends the loop is
the model's reading, log 5.) -/
def Obligations.EndOfDecodeReportsUnderfill : Prop :=
  ∀ (s : State), s.afterDecode =
    { s with
      status := if s.outPos.toNat < s.outLen then { s.status with wUnderfill := true } else s.status
      phase := if (s.pred = 1 ∨ s.pred = 2) ∧ 0 < s.config.rows.toNat then .predict 0 else .finish .none }

/-! ### Host commands -/

/-- R101, R102, R27: START, a CTRL write with bit 0 = 1 and bit 1 = 0. With BUSY = 1 only IRQ_EN is stored. With BUSY = 0:
status cleared, CURSOR and OUT_POS 0, PREV NONE, the table cleared, whatever the state before; the start check decides what
comes next. -/
def Obligations.StartBeginsOperation : Prop :=
  ∀ (s : State) (irqEn : Bool),
    (∀ data : Word, data.getLsbD 0 = true → data.getLsbD 1 = false →
      hostStep (.writeReg 0 data) s = exec (.start (data.getLsbD 2)) s) ∧
    (s.status.busy = true → exec (.start irqEn) s = .next { s with irqEn := irqEn }) ∧
    (s.status.busy = false → exec (.start irqEn) s = .next
      { s with
        irqEn := irqEn
        status := { busy := true, done := false, err := .none, wTrunc := false, wOverrun := false, wUnderfill := false }
        cursor := 0
        outPos := 0
        lzw := { tsize := 258, cw := 9, prev := none, dict := [] }
        phase :=
          if s.configCheck ≠ .none then .finish s.configCheck
          else if s.comp = 1 ∨ s.comp = 2 then .decode
          else if (s.pred = 1 ∨ s.pred = 2) ∧ 0 < s.config.rows.toNat then .predict 0
          else .finish .none
        trail := [{ cursor := 0, outPos := 0, lzwState := 0x00090102#32, status := 0x00000001#32 }] })

/-- R102, R247: nothing of an earlier operation reaches the next: START leads from two idle states with the same parameters,
configuration and IN to states that differ in OUT alone, whatever the registers of the datapath and STATUS held. -/
def Obligations.StartForgetsEarlierOperation : Prop :=
  ∀ (s₁ s₂ : State) (irqEn : Bool), s₁.status.busy = false → s₂.status.busy = false →
    s₂ = { s₁ with
      irqEn := s₂.irqEn, status := s₂.status, cursor := s₂.cursor, outPos := s₂.outPos, lzw := s₂.lzw
      outBuf := s₂.outBuf, phase := s₂.phase, trail := s₂.trail } →
    ∃ t : State, exec (.start irqEn) s₁ = .next { t with outBuf := s₁.outBuf } ∧
      exec (.start irqEn) s₂ = .next { t with outBuf := s₂.outBuf }

/-- R103 to R107, R150: the start check reports the first failure in the order of R103, and START of an operation that
fails it leaves only the finish step with that code, IN, OUT and the configuration as they were. -/
def Obligations.StartCheckReportsFirstFailure : Prop :=
  ∀ (s : State),
    (s.status.busy = false → ∀ irqEn, ∃ t, exec (.start irqEn) s = .next t ∧ t.inBuf = s.inBuf ∧ t.outBuf = s.outBuf ∧
      t.config = s.config ∧ (s.configCheck ≠ .none → t.phase = .finish s.configCheck)) ∧
    let n := s.config.spp.toNat
    let layout := 1 ≤ n ∧ n ≤ s.params.maxSpp ∧
      ∀ i < n, 1 ≤ (s.bps i).toNat ∧ (s.bps i).toNat ≤ 64 ∧ (s.sfmt i).toNat ≤ 3
    let uniform := ∀ i < n, s.bps i = s.bps 0
    let predictor := s.pred = 0 ∨
      (s.pred = 1 ∧ s.comp ≠ 1 ∧ uniform ∧ (s.bps 0 = 8 ∨ s.bps 0 = 16 ∨ s.bps 0 = 32)) ∨
      (s.pred = 2 ∧ s.comp ≠ 1 ∧ s.comp ≠ 2 ∧ uniform ∧
        (s.bps 0 = 16 ∨ s.bps 0 = 24 ∨ s.bps 0 = 32 ∨ s.bps 0 = 64) ∧ ∀ i < n, s.sfmt i = 2)
    let length := ((∑ i ∈ Finset.range n, (s.bps i).toNat) * s.config.width.toNat + 7) / 8 * s.config.rows.toNat
    let capacity := length ≤ s.params.outCap ∧
      (s.comp = 1 ∨ s.comp = 2 → s.config.inLen.toNat ≤ s.params.inCap)
    let legacy := 2 ≤ s.config.inLen.toNat ∧ s.inByte 0 = 0x00#8 ∧ s.inByte 1 = 0x01#8
    (3 ≤ s.comp.toNat → s.configCheck = .unsupportedCompression) ∧
    (s.comp.toNat < 3 → ¬ layout → s.configCheck = .badLayout) ∧
    (s.comp.toNat < 3 → layout → ¬ predictor → s.configCheck = .illegalPredictor) ∧
    (s.comp.toNat < 3 → layout → predictor → ¬ capacity → s.configCheck = .capacity) ∧
    (s.comp = 2 → layout → predictor → capacity → legacy → s.configCheck = .legacyLzw) ∧
    (s.comp.toNat < 3 → layout → predictor → capacity → ¬ (s.comp = 2 ∧ legacy) → s.configCheck = .none)

/-- R117, R27, R39, R45: SRST, a CTRL write with bit 1 = 1, whatever bit 0 is. With BUSY = 0 every register and datapath
register takes its reset value and IN and OUT stay; with BUSY = 1 only IRQ_EN is stored. (That IRQ_EN is 0 after a write
that has bit 2 set, with BUSY = 0, is the model's reading of R27, R117 and R45, and that its own fields stay is its choice:
log 7.) -/
def Obligations.SoftResetRestoresRegisters : Prop :=
  ∀ (s : State) (startBit irqEn : Bool),
    (∀ data : Word, data.getLsbD 1 = true →
      hostStep (.writeReg 0 data) s = exec (.srst (data.getLsbD 0) (data.getLsbD 2)) s) ∧
    (s.status.busy = false → exec (.srst startBit irqEn) s = .next
      { s with
        irqEn := false
        status := { busy := false, done := false, err := .none, wTrunc := false, wOverrun := false, wUnderfill := false }
        config := { mode := 0, width := 0, rows := 0, spp := 1, inLen := 0, sdesc := Vector.replicate 16 8 }
        cursor := 0
        outPos := 0
        lzw := { tsize := 258, cw := 9, prev := none, dict := [] }
        phase := .idle
        trail := [] }) ∧
    (s.status.busy = true → exec (.srst startBit irqEn) s = .next { s with irqEn := irqEn })

/-- R118: DONE_ACK clears DONE, so `irq` falls; all other STATUS bits and everything else stay. With DONE = 0, as while
BUSY = 1, it has no effect; nor has a STATUS write with bit 1 = 0. -/
def Obligations.DoneAckClearsDone : Prop :=
  ∀ (s : State) (data : Word),
    (∃ t, exec .doneAck s = .next t ∧ t = { s with status := { s.status with done := false } } ∧ t.irq = false) ∧
    (s.status.done = false → exec .doneAck s = .next s) ∧
    (data.getLsbD 1 = true → hostStep (.writeReg 1 data) s = exec .doneAck s) ∧
    (data.getLsbD 1 = false → hostStep (.writeReg 1 data) s = .next s)

/-- R24, R215: `irq` is DONE and IRQ_EN, a level: a CTRL write without START and SRST masks or raises it at once, DONE
staying. -/
def Obligations.InterruptIsDoneAndEnabled : Prop :=
  ∀ (s : State) (data : Word), s.irq = (s.status.done && s.irqEn) ∧
    (data.getLsbD 0 = false → data.getLsbD 1 = false →
      ∃ t, hostStep (.writeReg 0 data) s = .next t ∧ t.status = s.status ∧ t.irq = (s.status.done && data.getLsbD 2))

/-- R119, R29 to R33, R38: a configuration write with BUSY = 0: the register reads back the written bits of its defined
fields, every other register but the computed OUT_LEN reads as before, and nothing but the configuration changes. A write to
a reserved SDESC, a read-only register (of STATUS, anything but DONE) or a reserved offset has no effect. -/
def Obligations.ConfigWriteReadsBack : Prop :=
  ∀ (s : State) (reg : CfgReg) (index : Fin 32) (data : Word), s.status.busy = false →
    (∃ t, exec (.configWrite reg data) s = .next t ∧ t = { s with config := t.config } ∧
      t.registerWord reg.index =
        (match reg with
        | .mode => data &&& 0x337#32
        | .width => data &&& 0xFFFF#32
        | .rows => data &&& 0xFFFF#32
        | .spp => data &&& 0xFF#32
        | .inLen => data
        | .sdesc i => if i.val < s.params.maxSpp then data &&& 0x7FF#32 else 0#32) ∧
      (index ≠ reg.index → index ≠ 7 → t.registerWord index = s.registerWord index) ∧
      ∀ i, reg = .sdesc i → s.params.maxSpp ≤ i.val → t = s) ∧
    hostStep (.writeReg reg.index data) s = exec (.configWrite reg data) s ∧
    hostStep (.writeReg 1 data) s = .next
      { s with status := { s.status with done := s.status.done && !data.getLsbD 1 } } ∧
    (7 ≤ index.val → index.val < 16 → hostStep (.writeReg index data) s = .next s)

/-- R39, R101, R117, R245: while BUSY = 1 a host register write changes nothing but IRQ_EN (by a write to CTRL) and DONE
(by a DONE acknowledge, R118). -/
def Obligations.WritesWhileBusyAreIgnored : Prop :=
  ∀ (s : State) (index : Fin 32) (data : Word), s.status.busy = true →
    hostStep (.writeReg index data) s = .next
      { s with
        irqEn := if index = 0 then data.getLsbD 2 else s.irqEn
        status := if index = 1 ∧ data.getLsbD 1 = true then { s.status with done := false } else s.status }

/-- R25, R27, R119: with BUSY = 0 a register write that is no command of the table changes nothing but, in CTRL,
IRQ_EN. -/
def Obligations.OtherWritesHaveNoEffect : Prop :=
  ∀ (s : State) (index : Fin 32) (data : Word),
    (index = 0 → data.getLsbD 0 = false → data.getLsbD 1 = false →
      hostStep (.writeReg index data) s = .next { s with irqEn := data.getLsbD 2 }) ∧
    (index = 1 → data.getLsbD 1 = false → hostStep (.writeReg index data) s = .next s) ∧
    (7 ≤ index.val → index.val < 16 → hostStep (.writeReg index data) s = .next s)

/-- R23, R26, R40: a register read has no effect on the block. With BUSY = 0, and for the registers that do not move, it
returns the register; for CURSOR, OUT_POS, LZW_STATE and STATUS with BUSY = 1 a value reached by the operation. (Which one
is a free draw, log 4; where the value returned is kept is the model's choice, log 6.) -/
def Obligations.RegisterReadReturnsReachedValue : Prop :=
  ∀ (s : State) (index : Fin 32),
    ∃ t, hostStep (.readReg index) s = .next t ∧ t = { s with hostRead := t.hostRead, draws := t.draws } ∧
      (s.status.busy = false → t.hostRead = .word (s.registerWord index)) ∧
      (index ∉ [(1 : Fin 32), 8, 9, 10] → t.hostRead = .word (s.registerWord index)) ∧
      (s.status.busy = true → s.trail ≠ [] → ∃ p ∈ s.trail,
        (index = 1 → t.hostRead = .word p.status) ∧ (index = 8 → t.hostRead = .word p.cursor) ∧
        (index = 9 → t.hostRead = .word p.outPos) ∧ (index = 10 → t.hostRead = .word p.lzwState))

/-- R51: host byte accesses. With BUSY = 0 a write below the capacity stores the byte and no other, at or above it has no
effect; a read returns the stored byte or 0. With BUSY = 1 a write has no effect and a read changes nothing of the
block. -/
def Obligations.HostByteAccess : Prop :=
  ∀ (s : State) (a : Nat) (v : Byte),
    (s.status.busy = false → a < s.params.inCap → ∃ t, hostStep (.writeByte .input a v) s = .next t ∧
      t = { s with inBuf := t.inBuf } ∧ ∀ b, t.readIn b = if b = a then v else s.readIn b) ∧
    (s.status.busy = false → a < s.params.outCap → ∃ t, hostStep (.writeByte .output a v) s = .next t ∧
      t = { s with outBuf := t.outBuf } ∧ ∀ b, t.readOut b = if b = a then v else s.readOut b) ∧
    (s.status.busy = true ∨ s.params.inCap ≤ a → hostStep (.writeByte .input a v) s = .next s) ∧
    (s.status.busy = true ∨ s.params.outCap ≤ a → hostStep (.writeByte .output a v) s = .next s) ∧
    (s.status.busy = false → hostStep (.readByte .input a) s = .next
      { s with hostRead := .byte (if a < s.params.inCap then s.readIn a else 0) }) ∧
    (s.status.busy = false → hostStep (.readByte .output a) s = .next
      { s with hostRead := .byte (if a < s.params.outCap then s.readOut a else 0) }) ∧
    (s.status.busy = true → ∀ buffer, ∃ t, hostStep (.readByte buffer a) s = .next t ∧
      t = { s with hostRead := t.hostRead, draws := t.draws })

/-- R240, R45: hardware reset, at any time: the reset state, with the contents of IN and OUT unspecified anew (the model's
free values, log 2). -/
def Obligations.HardResetAbandonsOperation : Prop :=
  ∀ (s : State), hostStep .hardReset s = .next
    { State.resetOf s.params with turns := s.turns, hostRead := s.hostRead, draws := s.draws, powerUps := s.powerUps + 1 }

/-! ### PackBits -/

/-- R133: PB_NOP changes nothing (the control byte has been consumed by R130). -/
def Obligations.PbNopChangesNothing : Prop :=
  ∀ (s : State), exec .pbNop s = .next s

/-- R131: PB_LITERAL copies the next C + 1 input bytes, as far as the input has them, to OUT as far as there is room;
CURSOR passes every byte copied or dropped; input that ends inside the payload ends the decode with W_TRUNC. Nothing else
changes. -/
def Obligations.PbLiteralCopiesPayload : Prop :=
  ∀ (s : State) (c : BitVec 7), s.config.inLen.toNat ≤ 2 ^ 28 →
    let n := c.toNat + 1
    let i := s.cursor.toNat / 8
    let k := min n (s.config.inLen.toNat - i)
    ∃ u, s.Emitted ((List.range k).map fun j => s.inByte (i + j)) u ∧
      exec (.pbLiteral c) s = .next
        (let v := { u with cursor := s.cursor + BitVec.ofNat 32 (8 * k) }
        if k < n then ({ v with status := { v.status with wTrunc := true } } : State).afterDecode else v)

/-- R132, R85: PB_REPLICATE reads one byte and emits it 1 - C = 257 - u times; without that byte it ends the decode with
W_TRUNC. Nothing else changes. -/
def Obligations.PbReplicateRepeatsByte : Prop :=
  ∀ (s : State) (u : Byte), 0x81 ≤ u.toNat →
    (s.config.inLen.toNat ≤ s.cursor.toNat / 8 →
      exec (.pbReplicate u) s = .next ({ s with status := { s.status with wTrunc := true } } : State).afterDecode) ∧
    (s.cursor.toNat / 8 < s.config.inLen.toNat →
      ∃ v, s.Emitted (List.replicate (257 - u.toNat) (s.inByte (s.cursor.toNat / 8))) v ∧
        exec (.pbReplicate u) s = .next { v with cursor := s.cursor + 8 })

/-- R134: a PackBits decode step does not depend on what OUT held: from two states that differ in OUT alone it reaches two
that differ in OUT alone, and every byte of OUT is written the same in both or left alone in both. -/
def Obligations.PackBitsIgnoresOldOutput : Prop :=
  ∀ (s₁ s₂ : State), s₂ = { s₁ with outBuf := s₂.outBuf } → s₁.phase = .decode →
    ∃ t₁ t₂, exec .opPackbits s₁ = .next t₁ ∧ exec .opPackbits s₂ = .next t₂ ∧
      t₂ = { t₁ with outBuf := t₂.outBuf } ∧
      ∀ a, t₁.readOut a = t₂.readOut a ∨ (t₁.readOut a = s₁.readOut a ∧ t₂.readOut a = s₂.readOut a)

/-- R135: whatever records expand to x, with OUT_LEN = |x| and IN holding their encoding, the operation writes OUT = x with
OUT_POS = |x|, no warning and no error; for |x| = 0 it reads no input. -/
def Obligations.PackBitsRoundTrip : Prop :=
  ∀ (s : State) (records : List RecordText),
    s.status = { busy := true, done := false, err := .none, wTrunc := false, wOverrun := false, wUnderfill := false } →
    s.turns = [] → s.phase = .decode → s.comp = 1 → s.pred = 0 → s.cursor = 0 → s.outPos = 0 →
    s.config.inLen.toNat ≤ 2 ^ 28 →
    (∀ r ∈ records, r.ok = true) →
    (records.flatMap RecordText.assemble).length ≤ s.config.inLen.toNat →
    (∀ i < (records.flatMap RecordText.assemble).length,
      some (s.inByte i) = (records.flatMap RecordText.assemble)[i]?) →
    s.outLen = (records.flatMap RecordText.expand).length →
    ∃ n t, Host.Core.run Sys2Proof.core n s = .next t ∧
      t.status = { busy := false, done := true, err := .none, wTrunc := false, wOverrun := false, wUnderfill := false } ∧
      t.outPos.toNat = (records.flatMap RecordText.expand).length ∧
      (∀ i < (records.flatMap RecordText.expand).length,
        some (t.readOut i) = (records.flatMap RecordText.expand)[i]?) ∧
      (records.flatMap RecordText.expand = [] → t.cursor = 0) ∧
      ∀ i, (records.flatMap RecordText.expand).length ≤ i → t.readOut i = s.readOut i

/-! ### LZW -/

/-- R152, R83: ReadCode: NOCODE exactly when fewer than CW bits remain; else the code is the value of the next CW bits,
most significant first, and CURSOR is past them. -/
def Obligations.ReadCodeTakesNextBits : Prop :=
  ∀ (s : State),
    (8 * s.config.inLen.toNat < s.cursor.toNat + s.lzw.cw.toNat → s.readCode = none) ∧
    (s.cursor.toNat + s.lzw.cw.toNat ≤ 8 * s.config.inLen.toNat →
      s.readCode = some
        (∑ k ∈ Finset.range s.lzw.cw.toNat,
          (s.inBit (s.cursor.toNat + k)).toNat * 2 ^ (s.lzw.cw.toNat - 1 - k),
        { s with cursor := s.cursor + s.lzw.cw.setWidth 32 }))

/-- R58, R59: input bytes and bits. FILL_ORDER reverses the bits of every input byte; stream bit p is bit 7 - (p mod 8) of
byte p div 8. -/
def Obligations.FillOrderReversesInputBytes : Prop :=
  ∀ (s : State),
    (∀ i k, k < 8 → (s.inByte i).getLsbD k =
      if s.config.mode.getLsbD 9 then (s.readIn i).getLsbD (7 - k) else (s.readIn i).getLsbD k) ∧
    (∀ p, s.inBit p = (s.inByte (p / 8)).getLsbD (7 - p % 8))

/-- R159, R153: LZW_LITERAL, with PREV holding a string, emits its byte and adds PREV ++ the byte; with a full table the
addition is fatal after the byte has been emitted. Nothing else changes. -/
def Obligations.LzwLiteralEmitsAndAdds : Prop :=
  ∀ (s : State) (c : Byte),
    (∀ p, s.lzw.prev = some p → s.lzw.tsize.toNat < 4096 →
      ∃ u y, s.Emitted [c] u ∧ s.lzw.Added [c] (p ++ [c]) y ∧ exec (.lzwLiteral c) s = .next { u with lzw := y }) ∧
    (∀ p, s.lzw.prev = some p → s.lzw.tsize.toNat = 4096 →
      ∃ u, s.Emitted [c] u ∧ exec (.lzwLiteral c) s = .next { u with phase := .finish .lzwTableFull })

/-- R160, R153: LZW_TABLE, with PREV holding a string, emits the entry's string and adds PREV ++ its first byte; with a full
table the addition is fatal after the string has been emitted. Nothing else changes. -/
def Obligations.LzwTableEmitsAndAdds : Prop :=
  ∀ (s : State) (c : BitVec 12) (b : Byte) (str : Bytes), 258 ≤ c.toNat →
    Store.get? s.lzw.dict c.toNat = some (b :: str) →
    (∀ p, s.lzw.prev = some p → s.lzw.tsize.toNat < 4096 →
      ∃ u y, s.Emitted (b :: str) u ∧ s.lzw.Added (b :: str) (p ++ [b]) y ∧
        exec (.lzwTable c) s = .next { u with lzw := y }) ∧
    (∀ p, s.lzw.prev = some p → s.lzw.tsize.toNat = 4096 →
      ∃ u, s.Emitted (b :: str) u ∧ exec (.lzwTable c) s = .next { u with phase := .finish .lzwTableFull })

/-- R161, R153: LZW_PENDING, with PREV holding a string and TSIZE <= 4095, emits PREV ++ its first byte, adds that string
and makes it PREV. Nothing else changes. -/
def Obligations.LzwPendingEmitsAndAdds : Prop :=
  ∀ (s : State) (b : Byte) (str : Bytes), s.lzw.prev = some (b :: str) → s.lzw.tsize.toNat ≤ 4095 →
    ∃ u y, s.Emitted (b :: str ++ [b]) u ∧ s.lzw.Added (b :: str ++ [b]) (b :: str ++ [b]) y ∧
      exec .lzwPending s = .next { u with lzw := y }

/-- The codes that need a previous string, executed without one, end the decode with LZW_NO_CLEAR and emit nothing. (R154
makes that test before it tells them apart; that the meanings of R159 to R161 repeat it is the model's reading, log 10.) -/
def Obligations.LzwCodesNeedPrevious : Prop :=
  ∀ (s : State) (b : Byte) (c : BitVec 12), s.lzw.prev = none →
    ∀ i ∈ [Instr.lzwLiteral b, .lzwTable c, .lzwPending],
      exec i s = .next { s with phase := .finish .lzwNoClear }

/-- R156: LZW_FIRST emits its byte, PREV becomes it, no entry is added. Nothing else changes. -/
def Obligations.LzwFirstSetsPrev : Prop :=
  ∀ (s : State) (c : Byte), ∃ u, s.Emitted [c] u ∧
    exec (.lzwFirst c) s = .next { u with lzw := { s.lzw with prev := some [c] } }

/-- R155, R151, R156 to R158, R162: LZW_CLEAR clears the table and reads the code after it at 9 bits: none is the implicit
END, END stops, a value of 256 or from 258 on is LZW_BAD_CODE, a byte is emitted and becomes PREV. -/
def Obligations.LzwClearReadsFirstCode : Prop :=
  ∀ (s : State),
    let z := { s.lzw with tsize := 258, cw := 9, dict := [] }
    let code := ∑ k ∈ Finset.range 9, (s.inBit (s.cursor.toNat + k)).toNat * 2 ^ (8 - k)
    let v := { s with lzw := z, cursor := s.cursor + 9 }
    (8 * s.config.inLen.toNat < s.cursor.toNat + 9 → exec .lzwClear s =
      .next ({ s with lzw := z, status := { s.status with wTrunc := true } } : State).afterDecode) ∧
    (s.cursor.toNat + 9 ≤ 8 * s.config.inLen.toNat → code = 257 → exec .lzwClear s = .next v.afterDecode) ∧
    (s.cursor.toNat + 9 ≤ 8 * s.config.inLen.toNat → 256 ≤ code → code ≠ 257 →
      exec .lzwClear s = .next { v with phase := .finish .lzwBadCode }) ∧
    (s.cursor.toNat + 9 ≤ 8 * s.config.inLen.toNat → code < 256 →
      ∃ u, v.Emitted [BitVec.ofNat 8 code] u ∧
        exec .lzwClear s = .next { u with lzw := { z with prev := some [BitVec.ofNat 8 code] } })

/-- R157, R158, R162, R163: the codes that end the decode: END and the implicit END normally (the latter with W_TRUNC), an
invalid code with LZW_BAD_CODE, a code before any CLEAR with LZW_NO_CLEAR; nothing is emitted. -/
def Obligations.LzwEndingCodes : Prop :=
  ∀ (s : State) (c : BitVec 12),
    exec .lzwEnd s = .next s.afterDecode ∧
    exec .lzwImplicitEnd s = .next ({ s with status := { s.status with wTrunc := true } } : State).afterDecode ∧
    exec (.lzwInvalid c) s = .next { s with phase := .finish .lzwBadCode } ∧
    exec (.lzwNoClear c) s = .next { s with phase := .finish .lzwNoClear }

/-- R164: CW is the function of TSIZE given there, and every addition and ClearTable keep it so. -/
def Obligations.CodeWidthFollowsTableSize : Prop :=
  let width := fun t : Nat => if t < 511 then 9 else if t < 1023 then 10 else if t < 2047 then 11 else 12
  (∀ s : State, s.clearTable.lzw.cw.toNat = width s.clearTable.lzw.tsize.toNat) ∧
  ∀ (s t : State) (str : Bytes), 258 ≤ s.lzw.tsize.toNat → s.lzw.tsize.toNat ≤ 4096 →
    s.lzw.cw.toNat = width s.lzw.tsize.toNat → s.addEntry str = some t → t.lzw.cw.toNat = width t.lzw.tsize.toNat

/-- R165: with OUT_LEN = |m| and IN holding a stream of codes that spells m, each code written at the width the decoder has
when it reads it, the operation writes OUT = m with OUT_POS = |m|, no warning and no error. -/
def Obligations.LzwRoundTrip : Prop :=
  ∀ (s : State) (bits : List Bool) (m : Bytes),
    s.status = { busy := true, done := false, err := .none, wTrunc := false, wOverrun := false, wUnderfill := false } →
    s.turns = [] → s.phase = .decode → s.comp = 2 → s.pred = 0 → s.cursor = 0 → s.outPos = 0 → s.lzw = LzwRegs.reset →
    s.config.inLen.toNat ≤ 2 ^ 28 → bits.length ≤ 8 * s.config.inLen.toNat → s.inBits 0 bits.length = bits →
    LzwText [] none bits m → s.outLen = m.length →
    ∃ n t, Host.Core.run Sys2Proof.core n s = .next t ∧
      t.status = { busy := false, done := true, err := .none, wTrunc := false, wOverrun := false, wUnderfill := false } ∧
      t.outPos.toNat = m.length ∧ (∀ i < m.length, some (t.readOut i) = m[i]?) ∧
      ∀ i, m.length ≤ i → t.readOut i = s.readOut i

/-- R165: truncating an LZW stream that decodes without error writes a prefix of its output and raises no fatal error. -/
def Obligations.TruncatedStreamGivesPrefix : Prop :=
  ∀ (s t : State) (k : Word) (n : Nat), s.Inv → s.turns = [] → s.status.busy = true → s.phase = .decode →
    s.comp = 2 → s.pred = 0 → k.toNat ≤ s.config.inLen.toNat → s.cursor.toNat ≤ 8 * k.toNat →
    Host.Core.run Sys2Proof.core n s = .next t → t.status.busy = false → t.status.err = .none →
    ∃ n' t', Host.Core.run Sys2Proof.core n' { s with config := { s.config with inLen := k } } = .next t' ∧
      t'.status.busy = false ∧ t'.status.done = true ∧ t'.status.err = .none ∧ t'.outPos.toNat ≤ t.outPos.toNat ∧
      ∀ a < t'.outPos.toNat, t'.readOut a = t.readOut a

/-! ### Predictor -/

/-- R61, R62: OutRead is the value of the bytes in BYTE_ORDER, and after OutWrite it returns the value written; no other
byte changes. -/
def Obligations.OutReadAfterOutWrite : Prop :=
  ∀ (s : State) (a n v : Nat),
    s.outRead a n = (∑ j ∈ Finset.range n,
      (s.readOut (a + j)).toNat * 2 ^ (8 * (if s.config.mode.getLsbD 8 then j else n - 1 - j))) ∧
    (v < 2 ^ (8 * n) → (s.outWrite a n v).outRead a n = v) ∧
    (∀ b, b < a ∨ a + n ≤ b → (s.outWrite a n v).readOut b = s.readOut b)

/-- R182 to R184, R190, R181: the horizontal sub-operations on the row that is due, with every sample modulo 2^(8B) in
BYTE_ORDER; no byte outside the row changes, nor anything but OUT and what step comes next. -/
def Obligations.HorizontalRowsReconstructed : Prop :=
  ∀ (s : State) (r : Nat) (i : Instr) (b : Nat), s.phase = .predict r →
    (i, b) ∈ [(Instr.hpred8, 1), (Instr.hpred16, 2), (Instr.hpred32, 4)] →
    ∃ t, exec i s = .next t ∧ s.HorizontalRow b r t ∧ (∀ a, ¬ s.inRow b r a → t.readOut a = s.readOut a) ∧
      t = { s with
        outBuf := t.outBuf
        phase := if r + 1 < s.config.rows.toNat then .predict (r + 1) else .finish .none }

/-- R185 to R189, R181: the floating-point sub-operations on the row that is due; no byte outside the row changes, nor
anything but OUT and what step comes next. -/
def Obligations.FloatRowsReconstructed : Prop :=
  ∀ (s : State) (r : Nat) (i : Instr) (b : Nat), s.phase = .predict r →
    (i, b) ∈ [(Instr.fpred16, 2), (Instr.fpred24, 3), (Instr.fpred32, 4), (Instr.fpred64, 8)] →
    ∃ t, exec i s = .next t ∧ s.FloatRow b r t ∧ (∀ a, ¬ s.inRow b r a → t.readOut a = s.readOut a) ∧
      t = { s with
        outBuf := t.outBuf
        phase := if r + 1 < s.config.rows.toNat then .predict (r + 1) else .finish .none }

/-- The seven sub-operations with no row due change nothing (the model's choice, log 5). -/
def Obligations.NoRowDueChangesNothing : Prop :=
  ∀ (s : State), (∀ r, s.phase ≠ .predict r) →
    ∀ i ∈ [Instr.hpred8, .hpred16, .hpred32, .fpred16, .fpred24, .fpred32, .fpred64], exec i s = .next s

/-- R192: band independence: the samples of a band after horizontal reversal depend on the samples of that band alone. -/
def Obligations.BandsAreIndependent : Prop :=
  ∀ (s₁ s₂ : State) (r q : Nat) (i : Instr) (b : Nat), s₁.phase = .predict r →
    (i, b) ∈ [(Instr.hpred8, 1), (Instr.hpred16, 2), (Instr.hpred32, 4)] →
    s₂ = { s₁ with outBuf := s₂.outBuf } → q < s₁.config.spp.toNat →
    (∀ x < s₁.config.width.toNat,
      s₁.outRead (s₁.rowBase b r + (x * s₁.config.spp.toNat + q) * b) b =
        s₂.outRead (s₁.rowBase b r + (x * s₁.config.spp.toNat + q) * b) b) →
    ∃ t₁ t₂, exec i s₁ = .next t₁ ∧ exec i s₂ = .next t₂ ∧
      ∀ x < s₁.config.width.toNat,
        t₁.outRead (s₁.rowBase b r + (x * s₁.config.spp.toNat + q) * b) b =
          t₂.outRead (s₁.rowBase b r + (x * s₁.config.spp.toNat + q) * b) b

/-- R193: with WIDTH <= 1 the horizontal sub-operations leave every byte of OUT as it was. -/
def Obligations.NarrowRowsUnchanged : Prop :=
  ∀ (s : State) (i : Instr), s.config.width.toNat ≤ 1 → i ∈ [Instr.hpred8, .hpred16, .hpred32] →
    ∃ t, exec i s = .next t ∧ t.outBuf = s.outBuf

/-! ### Whole operations -/

/-- R111: OP_EXTERNAL_NONE from START to DONE: two steps, no access to IN or OUT, ERR = 0 and no warning. (That they are two
is the model's cut of R109 into the steps of R100, log 5.) -/
def Obligations.ExternalNoneOnlyReports : Prop :=
  ∀ (s : State) (irqEn : Bool), s.status.busy = false → s.comp = 0 → s.pred = 0 → s.configCheck = .none →
    ∃ t u, exec (.start irqEn) s = .next t ∧ exec .opExternalNone t = .next u ∧
      u = { s with
        irqEn := irqEn
        status := { busy := false, done := true, err := .none, wTrunc := false, wOverrun := false, wUnderfill := false }
        cursor := 0
        outPos := 0
        lzw := { tsize := 258, cw := 9, prev := none, dict := [] }
        phase := .idle
        trail := [] }

/-- R112, R181, R109: OP_EXTERNAL_HPRED from START to DONE: every row of OUT is reversed, each from its own bytes; the bytes
past the last row, IN and the configuration stay; ERR = 0 and no warning. (That it takes exactly ROWS + 1 steps after START is
the model's cut of R109 into the steps of R100, log 5.) -/
def Obligations.ExternalHpredReversesEveryRow : Prop :=
  ∀ (s t : State) (irqEn : Bool) (b : Nat), s.status.busy = false → s.turns = [] → s.comp = 0 → s.pred = 1 →
    s.configCheck = .none → (s.bps 0).toNat = 8 * b → exec (.start irqEn) s = .next t →
    ∃ u, Host.Core.run Sys2Proof.core (s.config.rows.toNat + 1) t = .next u ∧
      u.status = { busy := false, done := true, err := .none, wTrunc := false, wOverrun := false, wUnderfill := false } ∧
      (∀ r < s.config.rows.toNat, s.HorizontalRow b r u) ∧
      (∀ a, s.config.rows.toNat * (s.samplesPerRow * b) ≤ a → u.readOut a = s.readOut a) ∧
      u = { t with status := u.status, phase := .idle, trail := [], outBuf := u.outBuf }

/-- R113, R181, R109: OP_EXTERNAL_FPRED from START to DONE: every row of OUT is reversed, each from its own bytes; the bytes
past the last row, IN and the configuration stay; ERR = 0 and no warning. (That it takes exactly ROWS + 1 steps after START is
the model's cut of R109 into the steps of R100, log 5.) -/
def Obligations.ExternalFpredReversesEveryRow : Prop :=
  ∀ (s t : State) (irqEn : Bool) (b : Nat), s.status.busy = false → s.turns = [] → s.comp = 0 → s.pred = 2 →
    s.configCheck = .none → (s.bps 0).toNat = 8 * b → exec (.start irqEn) s = .next t →
    ∃ u, Host.Core.run Sys2Proof.core (s.config.rows.toNat + 1) t = .next u ∧
      u.status = { busy := false, done := true, err := .none, wTrunc := false, wOverrun := false, wUnderfill := false } ∧
      (∀ r < s.config.rows.toNat, s.FloatRow b r u) ∧
      (∀ a, s.config.rows.toNat * (s.samplesPerRow * b) ≤ a → u.readOut a = s.readOut a) ∧
      u = { t with status := u.status, phase := .idle, trail := [], outBuf := u.outBuf }

/-- R121: every operation reaches Finish: from any state of the invariant with an operation running and left alone, within
the decode steps R121 counts, one predictor step per row and the finish step. (What counts as one step is the model's cut of
R109 into the steps of R100, log 5.) -/
def Obligations.EveryOperationFinishes : Prop :=
  ∀ (s : State), s.Inv → s.status.busy = true → s.turns = [] →
    ∃ n t, n ≤ s.decodeBound + s.config.rows.toNat + 1 ∧ Host.Core.run Sys2Proof.core n s = .next t ∧
      t.status.busy = false ∧ t.status.done = true

/-! ### The machine -/

/-- R45, 95_test_vectors.md section 2.1: what the registers read after reset, for every legal set of parameters. -/
def Obligations.ResetRegisterValues : Prop :=
  ∀ (p : Config.Params), p.legal = true →
    (∀ index : Fin 32, (State.resetOf p).registerWord index =
      if index = 5 then 1#32 else if index = 10 then 0x00090102#32
      else if 16 ≤ index.val ∧ index.val - 16 < p.maxSpp then 0x00000008#32 else 0#32) ∧
    (State.resetOf p).irq = false ∧ (State.resetOf p).lzw.prev = none ∧
    (∀ k, Store.get? (State.resetOf p).lzw.dict k = none)

/-- R34: OUT_LEN, computed at every read: the exact output length saturated at 2^32 - 1, and 0 where SPP is not legal. -/
def Obligations.OutLenIsComputed : Prop :=
  ∀ (s : State),
    let length := ((∑ i ∈ Finset.range s.config.spp.toNat, (s.bps i).toNat) * s.config.width.toNat + 7) / 8 *
      s.config.rows.toNat
    (s.registerWord 7).toNat =
      if 1 ≤ s.config.spp.toNat ∧ s.config.spp.toNat ≤ s.params.maxSpp then min length (2 ^ 32 - 1) else 0

/-- R25, R27, R28, R35 to R37: what CTRL, STATUS, CURSOR, OUT_POS and LZW_STATE hold, bit by bit; reserved bits and registers
read 0. -/
def Obligations.RegistersHoldTheirFields : Prop :=
  ∀ (s : State) (k : Nat),
    (s.registerWord 0).getLsbD k = (decide (k = 2) && s.irqEn) ∧
    (s.registerWord 1).getLsbD k =
      (if k = 0 then s.status.busy else if k = 1 then s.status.done
      else if 4 ≤ k ∧ k < 8 then s.status.err.code.getLsbD (k - 4)
      else if k = 8 then s.status.wTrunc else if k = 9 then s.status.wOverrun
      else if k = 10 then s.status.wUnderfill else false) ∧
    s.registerWord 8 = s.cursor ∧ s.registerWord 9 = s.outPos ∧
    (s.registerWord 10).getLsbD k =
      (if k < 13 then s.lzw.tsize.getLsbD k else if 16 ≤ k ∧ k < 20 then s.lzw.cw.getLsbD (k - 16) else false) ∧
    ∀ index : Fin 32, 11 ≤ index.val → index.val < 16 → s.registerWord index = 0

/-- R45: the reset state meets the invariant, for every legal set of parameters. -/
def Obligations.ResetMeetsInvariant : Prop :=
  (∀ p : Config.Params, p.legal = true → (State.resetOf p).Inv) ∧ State.reset.Inv

/-- R12 to R18, R29, R37, R38, R41, R42, R50, R53, R103, R109, R164, R210, R212, R214: the invariant of Safety.lean holds
after every step from every state that meets it, whatever the host does. -/
def Obligations.StepKeepsInvariant : Prop :=
  ∀ (s t : State), s.Inv → step s = .next t → t.Inv

/-- R57, R81, R87, R106: from a state of the invariant no step ends in a fault or a refusal. -/
def Obligations.StepNeverStops : Prop :=
  ∀ (s : State), s.Inv → ∃ t, step s = .next t

/-- R15, R53, R68, R39: a step of the block leaves the configuration, IN, IRQ_EN and every byte of OUT from OUT_LEN on as
they are, and moves neither CURSOR nor OUT_POS backwards. -/
def Obligations.BlockStepStaysWithinBounds : Prop :=
  ∀ (s t : State), s.Inv → s.status.busy = true → s.turns = [] → step s = .next t →
    t = { s with
      status := t.status, cursor := t.cursor, outPos := t.outPos, lzw := t.lzw, outBuf := t.outBuf
      phase := t.phase, trail := t.trail } ∧
    s.cursor.toNat ≤ t.cursor.toNat ∧ s.outPos.toNat ≤ t.outPos.toNat ∧
    ∀ a, s.outLen ≤ a → t.readOut a = s.readOut a

/-- R53, R68: a step of the block reads IN below IN_LEN only: bytes of IN from IN_LEN on make no difference to it. -/
def Obligations.InputBeyondLengthIsNotRead : Prop :=
  ∀ (s t : State) (m : Memory), s.status.busy = true → s.turns = [] →
    (∀ a < s.config.inLen.toNat, s.readIn a = ({ s with inBuf := m } : State).readIn a) →
    step s = .next t → step { s with inBuf := m } = .next { t with inBuf := m }
end

