-- ==== Sys2Proof/Laws/State.lean ====
section
/-! SUPPORT. What each named update of the state leaves alone and sets: one lemma per field per update, for simp, so
that no later proof unfolds a record update. -/

namespace Sys2Proof.Machine.State

/-! ### `warn` -/

@[simp] theorem warn_params (w : Warning) (s : State) : (s.warn w).params = s.params := rfl
@[simp] theorem warn_irqEn (w : Warning) (s : State) : (s.warn w).irqEn = s.irqEn := rfl
@[simp] theorem warn_status (w : Warning) (s : State) : (s.warn w).status = s.status.warn w := rfl
@[simp] theorem warn_config (w : Warning) (s : State) : (s.warn w).config = s.config := rfl
@[simp] theorem warn_cursor (w : Warning) (s : State) : (s.warn w).cursor = s.cursor := rfl
@[simp] theorem warn_outPos (w : Warning) (s : State) : (s.warn w).outPos = s.outPos := rfl
@[simp] theorem warn_lzw (w : Warning) (s : State) : (s.warn w).lzw = s.lzw := rfl
@[simp] theorem warn_inBuf (w : Warning) (s : State) : (s.warn w).inBuf = s.inBuf := rfl
@[simp] theorem warn_outBuf (w : Warning) (s : State) : (s.warn w).outBuf = s.outBuf := rfl
@[simp] theorem warn_phase (w : Warning) (s : State) : (s.warn w).phase = s.phase := rfl
@[simp] theorem warn_trail (w : Warning) (s : State) : (s.warn w).trail = s.trail := rfl
@[simp] theorem warn_turns (w : Warning) (s : State) : (s.warn w).turns = s.turns := rfl
@[simp] theorem warn_hostRead (w : Warning) (s : State) : (s.warn w).hostRead = s.hostRead := rfl
@[simp] theorem warn_draws (w : Warning) (s : State) : (s.warn w).draws = s.draws := rfl
@[simp] theorem warn_powerUps (w : Warning) (s : State) : (s.warn w).powerUps = s.powerUps := rfl

/-! ### `writeOut` -/

@[simp] theorem writeOut_params (a : Nat) (b : Byte) (s : State) : (s.writeOut a b).params = s.params := rfl
@[simp] theorem writeOut_irqEn (a : Nat) (b : Byte) (s : State) : (s.writeOut a b).irqEn = s.irqEn := rfl
@[simp] theorem writeOut_status (a : Nat) (b : Byte) (s : State) : (s.writeOut a b).status = s.status := rfl
@[simp] theorem writeOut_config (a : Nat) (b : Byte) (s : State) : (s.writeOut a b).config = s.config := rfl
@[simp] theorem writeOut_cursor (a : Nat) (b : Byte) (s : State) : (s.writeOut a b).cursor = s.cursor := rfl
@[simp] theorem writeOut_outPos (a : Nat) (b : Byte) (s : State) : (s.writeOut a b).outPos = s.outPos := rfl
@[simp] theorem writeOut_lzw (a : Nat) (b : Byte) (s : State) : (s.writeOut a b).lzw = s.lzw := rfl
@[simp] theorem writeOut_inBuf (a : Nat) (b : Byte) (s : State) : (s.writeOut a b).inBuf = s.inBuf := rfl
@[simp] theorem writeOut_outBuf (a : Nat) (b : Byte) (s : State) : (s.writeOut a b).outBuf = Store.set s.outBuf a b := rfl
@[simp] theorem writeOut_phase (a : Nat) (b : Byte) (s : State) : (s.writeOut a b).phase = s.phase := rfl
@[simp] theorem writeOut_trail (a : Nat) (b : Byte) (s : State) : (s.writeOut a b).trail = s.trail := rfl
@[simp] theorem writeOut_turns (a : Nat) (b : Byte) (s : State) : (s.writeOut a b).turns = s.turns := rfl
@[simp] theorem writeOut_hostRead (a : Nat) (b : Byte) (s : State) : (s.writeOut a b).hostRead = s.hostRead := rfl
@[simp] theorem writeOut_draws (a : Nat) (b : Byte) (s : State) : (s.writeOut a b).draws = s.draws := rfl
@[simp] theorem writeOut_powerUps (a : Nat) (b : Byte) (s : State) : (s.writeOut a b).powerUps = s.powerUps := rfl

/-! ### `writeIn` -/

@[simp] theorem writeIn_params (a : Nat) (b : Byte) (s : State) : (s.writeIn a b).params = s.params := rfl
@[simp] theorem writeIn_irqEn (a : Nat) (b : Byte) (s : State) : (s.writeIn a b).irqEn = s.irqEn := rfl
@[simp] theorem writeIn_status (a : Nat) (b : Byte) (s : State) : (s.writeIn a b).status = s.status := rfl
@[simp] theorem writeIn_config (a : Nat) (b : Byte) (s : State) : (s.writeIn a b).config = s.config := rfl
@[simp] theorem writeIn_cursor (a : Nat) (b : Byte) (s : State) : (s.writeIn a b).cursor = s.cursor := rfl
@[simp] theorem writeIn_outPos (a : Nat) (b : Byte) (s : State) : (s.writeIn a b).outPos = s.outPos := rfl
@[simp] theorem writeIn_lzw (a : Nat) (b : Byte) (s : State) : (s.writeIn a b).lzw = s.lzw := rfl
@[simp] theorem writeIn_inBuf (a : Nat) (b : Byte) (s : State) : (s.writeIn a b).inBuf = Store.set s.inBuf a b := rfl
@[simp] theorem writeIn_outBuf (a : Nat) (b : Byte) (s : State) : (s.writeIn a b).outBuf = s.outBuf := rfl
@[simp] theorem writeIn_phase (a : Nat) (b : Byte) (s : State) : (s.writeIn a b).phase = s.phase := rfl
@[simp] theorem writeIn_trail (a : Nat) (b : Byte) (s : State) : (s.writeIn a b).trail = s.trail := rfl
@[simp] theorem writeIn_turns (a : Nat) (b : Byte) (s : State) : (s.writeIn a b).turns = s.turns := rfl
@[simp] theorem writeIn_hostRead (a : Nat) (b : Byte) (s : State) : (s.writeIn a b).hostRead = s.hostRead := rfl
@[simp] theorem writeIn_draws (a : Nat) (b : Byte) (s : State) : (s.writeIn a b).draws = s.draws := rfl
@[simp] theorem writeIn_powerUps (a : Nat) (b : Byte) (s : State) : (s.writeIn a b).powerUps = s.powerUps := rfl

/-! ### `advance` -/

@[simp] theorem advance_params (n : Nat) (s : State) : (s.advance n).params = s.params := rfl
@[simp] theorem advance_irqEn (n : Nat) (s : State) : (s.advance n).irqEn = s.irqEn := rfl
@[simp] theorem advance_status (n : Nat) (s : State) : (s.advance n).status = s.status := rfl
@[simp] theorem advance_config (n : Nat) (s : State) : (s.advance n).config = s.config := rfl
@[simp] theorem advance_cursor (n : Nat) (s : State) : (s.advance n).cursor = s.cursor + BitVec.ofNat 32 n := rfl
@[simp] theorem advance_outPos (n : Nat) (s : State) : (s.advance n).outPos = s.outPos := rfl
@[simp] theorem advance_lzw (n : Nat) (s : State) : (s.advance n).lzw = s.lzw := rfl
@[simp] theorem advance_inBuf (n : Nat) (s : State) : (s.advance n).inBuf = s.inBuf := rfl
@[simp] theorem advance_outBuf (n : Nat) (s : State) : (s.advance n).outBuf = s.outBuf := rfl
@[simp] theorem advance_phase (n : Nat) (s : State) : (s.advance n).phase = s.phase := rfl
@[simp] theorem advance_trail (n : Nat) (s : State) : (s.advance n).trail = s.trail := rfl
@[simp] theorem advance_turns (n : Nat) (s : State) : (s.advance n).turns = s.turns := rfl
@[simp] theorem advance_hostRead (n : Nat) (s : State) : (s.advance n).hostRead = s.hostRead := rfl
@[simp] theorem advance_draws (n : Nat) (s : State) : (s.advance n).draws = s.draws := rfl
@[simp] theorem advance_powerUps (n : Nat) (s : State) : (s.advance n).powerUps = s.powerUps := rfl

/-! ### `clearTable` -/

@[simp] theorem clearTable_params (s : State) : (s.clearTable).params = s.params := rfl
@[simp] theorem clearTable_irqEn (s : State) : (s.clearTable).irqEn = s.irqEn := rfl
@[simp] theorem clearTable_status (s : State) : (s.clearTable).status = s.status := rfl
@[simp] theorem clearTable_config (s : State) : (s.clearTable).config = s.config := rfl
@[simp] theorem clearTable_cursor (s : State) : (s.clearTable).cursor = s.cursor := rfl
@[simp] theorem clearTable_outPos (s : State) : (s.clearTable).outPos = s.outPos := rfl
@[simp] theorem clearTable_lzw (s : State) : (s.clearTable).lzw = s.lzw.cleared := rfl
@[simp] theorem clearTable_inBuf (s : State) : (s.clearTable).inBuf = s.inBuf := rfl
@[simp] theorem clearTable_outBuf (s : State) : (s.clearTable).outBuf = s.outBuf := rfl
@[simp] theorem clearTable_phase (s : State) : (s.clearTable).phase = s.phase := rfl
@[simp] theorem clearTable_trail (s : State) : (s.clearTable).trail = s.trail := rfl
@[simp] theorem clearTable_turns (s : State) : (s.clearTable).turns = s.turns := rfl
@[simp] theorem clearTable_hostRead (s : State) : (s.clearTable).hostRead = s.hostRead := rfl
@[simp] theorem clearTable_draws (s : State) : (s.clearTable).draws = s.draws := rfl
@[simp] theorem clearTable_powerUps (s : State) : (s.clearTable).powerUps = s.powerUps := rfl

/-! ### `setPrev` -/

@[simp] theorem setPrev_params (str : Bytes) (s : State) : (s.setPrev str).params = s.params := rfl
@[simp] theorem setPrev_irqEn (str : Bytes) (s : State) : (s.setPrev str).irqEn = s.irqEn := rfl
@[simp] theorem setPrev_status (str : Bytes) (s : State) : (s.setPrev str).status = s.status := rfl
@[simp] theorem setPrev_config (str : Bytes) (s : State) : (s.setPrev str).config = s.config := rfl
@[simp] theorem setPrev_cursor (str : Bytes) (s : State) : (s.setPrev str).cursor = s.cursor := rfl
@[simp] theorem setPrev_outPos (str : Bytes) (s : State) : (s.setPrev str).outPos = s.outPos := rfl
@[simp] theorem setPrev_lzw (str : Bytes) (s : State) : (s.setPrev str).lzw = { s.lzw with prev := some str } := rfl
@[simp] theorem setPrev_inBuf (str : Bytes) (s : State) : (s.setPrev str).inBuf = s.inBuf := rfl
@[simp] theorem setPrev_outBuf (str : Bytes) (s : State) : (s.setPrev str).outBuf = s.outBuf := rfl
@[simp] theorem setPrev_phase (str : Bytes) (s : State) : (s.setPrev str).phase = s.phase := rfl
@[simp] theorem setPrev_trail (str : Bytes) (s : State) : (s.setPrev str).trail = s.trail := rfl
@[simp] theorem setPrev_turns (str : Bytes) (s : State) : (s.setPrev str).turns = s.turns := rfl
@[simp] theorem setPrev_hostRead (str : Bytes) (s : State) : (s.setPrev str).hostRead = s.hostRead := rfl
@[simp] theorem setPrev_draws (str : Bytes) (s : State) : (s.setPrev str).draws = s.draws := rfl
@[simp] theorem setPrev_powerUps (str : Bytes) (s : State) : (s.setPrev str).powerUps = s.powerUps := rfl

/-! ### `initOperation` -/

@[simp] theorem initOperation_params (s : State) : (s.initOperation).params = s.params := rfl
@[simp] theorem initOperation_irqEn (s : State) : (s.initOperation).irqEn = s.irqEn := rfl
@[simp] theorem initOperation_status (s : State) : (s.initOperation).status = s.status := rfl
@[simp] theorem initOperation_config (s : State) : (s.initOperation).config = s.config := rfl
@[simp] theorem initOperation_cursor (s : State) : (s.initOperation).cursor = 0 := rfl
@[simp] theorem initOperation_outPos (s : State) : (s.initOperation).outPos = 0 := rfl
@[simp] theorem initOperation_lzw (s : State) : (s.initOperation).lzw = LzwRegs.reset := rfl
@[simp] theorem initOperation_inBuf (s : State) : (s.initOperation).inBuf = s.inBuf := rfl
@[simp] theorem initOperation_outBuf (s : State) : (s.initOperation).outBuf = s.outBuf := rfl
@[simp] theorem initOperation_phase (s : State) : (s.initOperation).phase = s.phase := rfl
@[simp] theorem initOperation_trail (s : State) : (s.initOperation).trail = s.trail := rfl
@[simp] theorem initOperation_turns (s : State) : (s.initOperation).turns = s.turns := rfl
@[simp] theorem initOperation_hostRead (s : State) : (s.initOperation).hostRead = s.hostRead := rfl
@[simp] theorem initOperation_draws (s : State) : (s.initOperation).draws = s.draws := rfl
@[simp] theorem initOperation_powerUps (s : State) : (s.initOperation).powerUps = s.powerUps := rfl

/-! ### `fatal` -/

@[simp] theorem fatal_params (e : ErrCode) (s : State) : (s.fatal e).params = s.params := rfl
@[simp] theorem fatal_irqEn (e : ErrCode) (s : State) : (s.fatal e).irqEn = s.irqEn := rfl
@[simp] theorem fatal_status (e : ErrCode) (s : State) : (s.fatal e).status = s.status := rfl
@[simp] theorem fatal_config (e : ErrCode) (s : State) : (s.fatal e).config = s.config := rfl
@[simp] theorem fatal_cursor (e : ErrCode) (s : State) : (s.fatal e).cursor = s.cursor := rfl
@[simp] theorem fatal_outPos (e : ErrCode) (s : State) : (s.fatal e).outPos = s.outPos := rfl
@[simp] theorem fatal_lzw (e : ErrCode) (s : State) : (s.fatal e).lzw = s.lzw := rfl
@[simp] theorem fatal_inBuf (e : ErrCode) (s : State) : (s.fatal e).inBuf = s.inBuf := rfl
@[simp] theorem fatal_outBuf (e : ErrCode) (s : State) : (s.fatal e).outBuf = s.outBuf := rfl
@[simp] theorem fatal_phase (e : ErrCode) (s : State) : (s.fatal e).phase = .finish e := rfl
@[simp] theorem fatal_trail (e : ErrCode) (s : State) : (s.fatal e).trail = s.trail := rfl
@[simp] theorem fatal_turns (e : ErrCode) (s : State) : (s.fatal e).turns = s.turns := rfl
@[simp] theorem fatal_hostRead (e : ErrCode) (s : State) : (s.fatal e).hostRead = s.hostRead := rfl
@[simp] theorem fatal_draws (e : ErrCode) (s : State) : (s.fatal e).draws = s.draws := rfl
@[simp] theorem fatal_powerUps (e : ErrCode) (s : State) : (s.fatal e).powerUps = s.powerUps := rfl

/-! ### `finish` -/

@[simp] theorem finish_params (e : ErrCode) (s : State) : (s.finish e).params = s.params := rfl
@[simp] theorem finish_irqEn (e : ErrCode) (s : State) : (s.finish e).irqEn = s.irqEn := rfl
@[simp] theorem finish_status (e : ErrCode) (s : State) : (s.finish e).status = s.status.finished e := rfl
@[simp] theorem finish_config (e : ErrCode) (s : State) : (s.finish e).config = s.config := rfl
@[simp] theorem finish_cursor (e : ErrCode) (s : State) : (s.finish e).cursor = s.cursor := rfl
@[simp] theorem finish_outPos (e : ErrCode) (s : State) : (s.finish e).outPos = s.outPos := rfl
@[simp] theorem finish_lzw (e : ErrCode) (s : State) : (s.finish e).lzw = s.lzw := rfl
@[simp] theorem finish_inBuf (e : ErrCode) (s : State) : (s.finish e).inBuf = s.inBuf := rfl
@[simp] theorem finish_outBuf (e : ErrCode) (s : State) : (s.finish e).outBuf = s.outBuf := rfl
@[simp] theorem finish_phase (e : ErrCode) (s : State) : (s.finish e).phase = .idle := rfl
@[simp] theorem finish_trail (e : ErrCode) (s : State) : (s.finish e).trail = [] := rfl
@[simp] theorem finish_turns (e : ErrCode) (s : State) : (s.finish e).turns = s.turns := rfl
@[simp] theorem finish_hostRead (e : ErrCode) (s : State) : (s.finish e).hostRead = s.hostRead := rfl
@[simp] theorem finish_draws (e : ErrCode) (s : State) : (s.finish e).draws = s.draws := rfl
@[simp] theorem finish_powerUps (e : ErrCode) (s : State) : (s.finish e).powerUps = s.powerUps := rfl

/-! ### `softReset` -/

@[simp] theorem softReset_params (s : State) : (s.softReset).params = s.params := rfl
@[simp] theorem softReset_irqEn (s : State) : (s.softReset).irqEn = false := rfl
@[simp] theorem softReset_status (s : State) : (s.softReset).status = Status.reset := rfl
@[simp] theorem softReset_config (s : State) : (s.softReset).config = ConfigRegs.reset := rfl
@[simp] theorem softReset_cursor (s : State) : (s.softReset).cursor = 0 := rfl
@[simp] theorem softReset_outPos (s : State) : (s.softReset).outPos = 0 := rfl
@[simp] theorem softReset_lzw (s : State) : (s.softReset).lzw = LzwRegs.reset := rfl
@[simp] theorem softReset_inBuf (s : State) : (s.softReset).inBuf = s.inBuf := rfl
@[simp] theorem softReset_outBuf (s : State) : (s.softReset).outBuf = s.outBuf := rfl
@[simp] theorem softReset_phase (s : State) : (s.softReset).phase = .idle := rfl
@[simp] theorem softReset_trail (s : State) : (s.softReset).trail = [] := rfl
@[simp] theorem softReset_turns (s : State) : (s.softReset).turns = s.turns := rfl
@[simp] theorem softReset_hostRead (s : State) : (s.softReset).hostRead = s.hostRead := rfl
@[simp] theorem softReset_draws (s : State) : (s.softReset).draws = s.draws := rfl
@[simp] theorem softReset_powerUps (s : State) : (s.softReset).powerUps = s.powerUps := rfl

/-! ### `hardReset` -/

@[simp] theorem hardReset_params (s : State) : (s.hardReset).params = s.params := rfl
@[simp] theorem hardReset_irqEn (s : State) : (s.hardReset).irqEn = false := rfl
@[simp] theorem hardReset_status (s : State) : (s.hardReset).status = Status.reset := rfl
@[simp] theorem hardReset_config (s : State) : (s.hardReset).config = ConfigRegs.reset := rfl
@[simp] theorem hardReset_cursor (s : State) : (s.hardReset).cursor = 0 := rfl
@[simp] theorem hardReset_outPos (s : State) : (s.hardReset).outPos = 0 := rfl
@[simp] theorem hardReset_lzw (s : State) : (s.hardReset).lzw = LzwRegs.reset := rfl
@[simp] theorem hardReset_inBuf (s : State) : (s.hardReset).inBuf = [] := rfl
@[simp] theorem hardReset_outBuf (s : State) : (s.hardReset).outBuf = [] := rfl
@[simp] theorem hardReset_phase (s : State) : (s.hardReset).phase = .idle := rfl
@[simp] theorem hardReset_trail (s : State) : (s.hardReset).trail = [] := rfl
@[simp] theorem hardReset_turns (s : State) : (s.hardReset).turns = s.turns := rfl
@[simp] theorem hardReset_hostRead (s : State) : (s.hardReset).hostRead = s.hostRead := rfl
@[simp] theorem hardReset_draws (s : State) : (s.hardReset).draws = s.draws := rfl
@[simp] theorem hardReset_powerUps (s : State) : (s.hardReset).powerUps = s.powerUps + 1 := rfl

/-! ### `emit` -/

@[simp] theorem emit_params (b : Byte) (s : State) : (s.emit b).params = s.params := by unfold State.emit; split <;> rfl
@[simp] theorem emit_irqEn (b : Byte) (s : State) : (s.emit b).irqEn = s.irqEn := by unfold State.emit; split <;> rfl
@[simp] theorem emit_config (b : Byte) (s : State) : (s.emit b).config = s.config := by unfold State.emit; split <;> rfl
@[simp] theorem emit_cursor (b : Byte) (s : State) : (s.emit b).cursor = s.cursor := by unfold State.emit; split <;> rfl
@[simp] theorem emit_lzw (b : Byte) (s : State) : (s.emit b).lzw = s.lzw := by unfold State.emit; split <;> rfl
@[simp] theorem emit_inBuf (b : Byte) (s : State) : (s.emit b).inBuf = s.inBuf := by unfold State.emit; split <;> rfl
@[simp] theorem emit_phase (b : Byte) (s : State) : (s.emit b).phase = s.phase := by unfold State.emit; split <;> rfl
@[simp] theorem emit_trail (b : Byte) (s : State) : (s.emit b).trail = s.trail := by unfold State.emit; split <;> rfl
@[simp] theorem emit_turns (b : Byte) (s : State) : (s.emit b).turns = s.turns := by unfold State.emit; split <;> rfl
@[simp] theorem emit_hostRead (b : Byte) (s : State) : (s.emit b).hostRead = s.hostRead := by unfold State.emit; split <;> rfl
@[simp] theorem emit_draws (b : Byte) (s : State) : (s.emit b).draws = s.draws := by unfold State.emit; split <;> rfl
@[simp] theorem emit_powerUps (b : Byte) (s : State) : (s.emit b).powerUps = s.powerUps := by unfold State.emit; split <;> rfl

/-! ### `enterPredictor` -/

@[simp] theorem enterPredictor_params (s : State) : (s.enterPredictor).params = s.params := by unfold State.enterPredictor; split <;> rfl
@[simp] theorem enterPredictor_irqEn (s : State) : (s.enterPredictor).irqEn = s.irqEn := by unfold State.enterPredictor; split <;> rfl
@[simp] theorem enterPredictor_status (s : State) : (s.enterPredictor).status = s.status := by unfold State.enterPredictor; split <;> rfl
@[simp] theorem enterPredictor_config (s : State) : (s.enterPredictor).config = s.config := by unfold State.enterPredictor; split <;> rfl
@[simp] theorem enterPredictor_cursor (s : State) : (s.enterPredictor).cursor = s.cursor := by unfold State.enterPredictor; split <;> rfl
@[simp] theorem enterPredictor_outPos (s : State) : (s.enterPredictor).outPos = s.outPos := by unfold State.enterPredictor; split <;> rfl
@[simp] theorem enterPredictor_lzw (s : State) : (s.enterPredictor).lzw = s.lzw := by unfold State.enterPredictor; split <;> rfl
@[simp] theorem enterPredictor_inBuf (s : State) : (s.enterPredictor).inBuf = s.inBuf := by unfold State.enterPredictor; split <;> rfl
@[simp] theorem enterPredictor_outBuf (s : State) : (s.enterPredictor).outBuf = s.outBuf := by unfold State.enterPredictor; split <;> rfl
@[simp] theorem enterPredictor_trail (s : State) : (s.enterPredictor).trail = s.trail := by unfold State.enterPredictor; split <;> rfl
@[simp] theorem enterPredictor_turns (s : State) : (s.enterPredictor).turns = s.turns := by unfold State.enterPredictor; split <;> rfl
@[simp] theorem enterPredictor_hostRead (s : State) : (s.enterPredictor).hostRead = s.hostRead := by unfold State.enterPredictor; split <;> rfl
@[simp] theorem enterPredictor_draws (s : State) : (s.enterPredictor).draws = s.draws := by unfold State.enterPredictor; split <;> rfl
@[simp] theorem enterPredictor_powerUps (s : State) : (s.enterPredictor).powerUps = s.powerUps := by unfold State.enterPredictor; split <;> rfl

/-! ### `afterDecode` -/

@[simp] theorem afterDecode_params (s : State) : (s.afterDecode).params = s.params := by unfold State.afterDecode; split <;> simp
@[simp] theorem afterDecode_irqEn (s : State) : (s.afterDecode).irqEn = s.irqEn := by unfold State.afterDecode; split <;> simp
@[simp] theorem afterDecode_config (s : State) : (s.afterDecode).config = s.config := by unfold State.afterDecode; split <;> simp
@[simp] theorem afterDecode_cursor (s : State) : (s.afterDecode).cursor = s.cursor := by unfold State.afterDecode; split <;> simp
@[simp] theorem afterDecode_outPos (s : State) : (s.afterDecode).outPos = s.outPos := by unfold State.afterDecode; split <;> simp
@[simp] theorem afterDecode_lzw (s : State) : (s.afterDecode).lzw = s.lzw := by unfold State.afterDecode; split <;> simp
@[simp] theorem afterDecode_inBuf (s : State) : (s.afterDecode).inBuf = s.inBuf := by unfold State.afterDecode; split <;> simp
@[simp] theorem afterDecode_outBuf (s : State) : (s.afterDecode).outBuf = s.outBuf := by unfold State.afterDecode; split <;> simp
@[simp] theorem afterDecode_trail (s : State) : (s.afterDecode).trail = s.trail := by unfold State.afterDecode; split <;> simp
@[simp] theorem afterDecode_turns (s : State) : (s.afterDecode).turns = s.turns := by unfold State.afterDecode; split <;> simp
@[simp] theorem afterDecode_hostRead (s : State) : (s.afterDecode).hostRead = s.hostRead := by unfold State.afterDecode; split <;> simp
@[simp] theorem afterDecode_draws (s : State) : (s.afterDecode).draws = s.draws := by unfold State.afterDecode; split <;> simp
@[simp] theorem afterDecode_powerUps (s : State) : (s.afterDecode).powerUps = s.powerUps := by unfold State.afterDecode; split <;> simp

/-! ### `enterOperation` -/

@[simp] theorem enterOperation_params (s : State) : (s.enterOperation).params = s.params := by unfold State.enterOperation; split <;> simp
@[simp] theorem enterOperation_irqEn (s : State) : (s.enterOperation).irqEn = s.irqEn := by unfold State.enterOperation; split <;> simp
@[simp] theorem enterOperation_status (s : State) : (s.enterOperation).status = s.status := by unfold State.enterOperation; split <;> simp
@[simp] theorem enterOperation_config (s : State) : (s.enterOperation).config = s.config := by unfold State.enterOperation; split <;> simp
@[simp] theorem enterOperation_cursor (s : State) : (s.enterOperation).cursor = s.cursor := by unfold State.enterOperation; split <;> simp
@[simp] theorem enterOperation_outPos (s : State) : (s.enterOperation).outPos = s.outPos := by unfold State.enterOperation; split <;> simp
@[simp] theorem enterOperation_lzw (s : State) : (s.enterOperation).lzw = s.lzw := by unfold State.enterOperation; split <;> simp
@[simp] theorem enterOperation_inBuf (s : State) : (s.enterOperation).inBuf = s.inBuf := by unfold State.enterOperation; split <;> simp
@[simp] theorem enterOperation_outBuf (s : State) : (s.enterOperation).outBuf = s.outBuf := by unfold State.enterOperation; split <;> simp
@[simp] theorem enterOperation_trail (s : State) : (s.enterOperation).trail = s.trail := by unfold State.enterOperation; split <;> simp
@[simp] theorem enterOperation_turns (s : State) : (s.enterOperation).turns = s.turns := by unfold State.enterOperation; split <;> simp
@[simp] theorem enterOperation_hostRead (s : State) : (s.enterOperation).hostRead = s.hostRead := by unfold State.enterOperation; split <;> simp
@[simp] theorem enterOperation_draws (s : State) : (s.enterOperation).draws = s.draws := by unfold State.enterOperation; split <;> simp
@[simp] theorem enterOperation_powerUps (s : State) : (s.enterOperation).powerUps = s.powerUps := by unfold State.enterOperation; split <;> simp

/-! ### `nextRow` -/

@[simp] theorem nextRow_params (r : Nat) (s : State) : (s.nextRow r).params = s.params := by unfold State.nextRow; split <;> rfl
@[simp] theorem nextRow_irqEn (r : Nat) (s : State) : (s.nextRow r).irqEn = s.irqEn := by unfold State.nextRow; split <;> rfl
@[simp] theorem nextRow_status (r : Nat) (s : State) : (s.nextRow r).status = s.status := by unfold State.nextRow; split <;> rfl
@[simp] theorem nextRow_config (r : Nat) (s : State) : (s.nextRow r).config = s.config := by unfold State.nextRow; split <;> rfl
@[simp] theorem nextRow_cursor (r : Nat) (s : State) : (s.nextRow r).cursor = s.cursor := by unfold State.nextRow; split <;> rfl
@[simp] theorem nextRow_outPos (r : Nat) (s : State) : (s.nextRow r).outPos = s.outPos := by unfold State.nextRow; split <;> rfl
@[simp] theorem nextRow_lzw (r : Nat) (s : State) : (s.nextRow r).lzw = s.lzw := by unfold State.nextRow; split <;> rfl
@[simp] theorem nextRow_inBuf (r : Nat) (s : State) : (s.nextRow r).inBuf = s.inBuf := by unfold State.nextRow; split <;> rfl
@[simp] theorem nextRow_outBuf (r : Nat) (s : State) : (s.nextRow r).outBuf = s.outBuf := by unfold State.nextRow; split <;> rfl
@[simp] theorem nextRow_trail (r : Nat) (s : State) : (s.nextRow r).trail = s.trail := by unfold State.nextRow; split <;> rfl
@[simp] theorem nextRow_turns (r : Nat) (s : State) : (s.nextRow r).turns = s.turns := by unfold State.nextRow; split <;> rfl
@[simp] theorem nextRow_hostRead (r : Nat) (s : State) : (s.nextRow r).hostRead = s.hostRead := by unfold State.nextRow; split <;> rfl
@[simp] theorem nextRow_draws (r : Nat) (s : State) : (s.nextRow r).draws = s.draws := by unfold State.nextRow; split <;> rfl
@[simp] theorem nextRow_powerUps (r : Nat) (s : State) : (s.nextRow r).powerUps = s.powerUps := by unfold State.nextRow; split <;> rfl

/-! ### `noted` -/

@[simp] theorem noted_params (s : State) : (s.noted).params = s.params := by unfold State.noted; split <;> rfl
@[simp] theorem noted_irqEn (s : State) : (s.noted).irqEn = s.irqEn := by unfold State.noted; split <;> rfl
@[simp] theorem noted_status (s : State) : (s.noted).status = s.status := by unfold State.noted; split <;> rfl
@[simp] theorem noted_config (s : State) : (s.noted).config = s.config := by unfold State.noted; split <;> rfl
@[simp] theorem noted_cursor (s : State) : (s.noted).cursor = s.cursor := by unfold State.noted; split <;> rfl
@[simp] theorem noted_outPos (s : State) : (s.noted).outPos = s.outPos := by unfold State.noted; split <;> rfl
@[simp] theorem noted_lzw (s : State) : (s.noted).lzw = s.lzw := by unfold State.noted; split <;> rfl
@[simp] theorem noted_inBuf (s : State) : (s.noted).inBuf = s.inBuf := by unfold State.noted; split <;> rfl
@[simp] theorem noted_outBuf (s : State) : (s.noted).outBuf = s.outBuf := by unfold State.noted; split <;> rfl
@[simp] theorem noted_phase (s : State) : (s.noted).phase = s.phase := by unfold State.noted; split <;> rfl
@[simp] theorem noted_turns (s : State) : (s.noted).turns = s.turns := by unfold State.noted; split <;> rfl
@[simp] theorem noted_hostRead (s : State) : (s.noted).hostRead = s.hostRead := by unfold State.noted; split <;> rfl
@[simp] theorem noted_draws (s : State) : (s.noted).draws = s.draws := by unfold State.noted; split <;> rfl
@[simp] theorem noted_powerUps (s : State) : (s.noted).powerUps = s.powerUps := by unfold State.noted; split <;> rfl

/-! ### `storeConfig` -/

@[simp] theorem storeConfig_params (reg : CfgReg) (data : Word) (s : State) : (s.storeConfig reg data).params = s.params := by cases reg <;> first | rfl | (simp only [storeConfig]; split <;> rfl)
@[simp] theorem storeConfig_irqEn (reg : CfgReg) (data : Word) (s : State) : (s.storeConfig reg data).irqEn = s.irqEn := by cases reg <;> first | rfl | (simp only [storeConfig]; split <;> rfl)
@[simp] theorem storeConfig_status (reg : CfgReg) (data : Word) (s : State) : (s.storeConfig reg data).status = s.status := by cases reg <;> first | rfl | (simp only [storeConfig]; split <;> rfl)
@[simp] theorem storeConfig_cursor (reg : CfgReg) (data : Word) (s : State) : (s.storeConfig reg data).cursor = s.cursor := by cases reg <;> first | rfl | (simp only [storeConfig]; split <;> rfl)
@[simp] theorem storeConfig_outPos (reg : CfgReg) (data : Word) (s : State) : (s.storeConfig reg data).outPos = s.outPos := by cases reg <;> first | rfl | (simp only [storeConfig]; split <;> rfl)
@[simp] theorem storeConfig_lzw (reg : CfgReg) (data : Word) (s : State) : (s.storeConfig reg data).lzw = s.lzw := by cases reg <;> first | rfl | (simp only [storeConfig]; split <;> rfl)
@[simp] theorem storeConfig_inBuf (reg : CfgReg) (data : Word) (s : State) : (s.storeConfig reg data).inBuf = s.inBuf := by cases reg <;> first | rfl | (simp only [storeConfig]; split <;> rfl)
@[simp] theorem storeConfig_outBuf (reg : CfgReg) (data : Word) (s : State) : (s.storeConfig reg data).outBuf = s.outBuf := by cases reg <;> first | rfl | (simp only [storeConfig]; split <;> rfl)
@[simp] theorem storeConfig_phase (reg : CfgReg) (data : Word) (s : State) : (s.storeConfig reg data).phase = s.phase := by cases reg <;> first | rfl | (simp only [storeConfig]; split <;> rfl)
@[simp] theorem storeConfig_trail (reg : CfgReg) (data : Word) (s : State) : (s.storeConfig reg data).trail = s.trail := by cases reg <;> first | rfl | (simp only [storeConfig]; split <;> rfl)
@[simp] theorem storeConfig_turns (reg : CfgReg) (data : Word) (s : State) : (s.storeConfig reg data).turns = s.turns := by cases reg <;> first | rfl | (simp only [storeConfig]; split <;> rfl)
@[simp] theorem storeConfig_hostRead (reg : CfgReg) (data : Word) (s : State) : (s.storeConfig reg data).hostRead = s.hostRead := by cases reg <;> first | rfl | (simp only [storeConfig]; split <;> rfl)
@[simp] theorem storeConfig_draws (reg : CfgReg) (data : Word) (s : State) : (s.storeConfig reg data).draws = s.draws := by cases reg <;> first | rfl | (simp only [storeConfig]; split <;> rfl)
@[simp] theorem storeConfig_powerUps (reg : CfgReg) (data : Word) (s : State) : (s.storeConfig reg data).powerUps = s.powerUps := by cases reg <;> first | rfl | (simp only [storeConfig]; split <;> rfl)

/-! ### `emitAll` -/

@[simp] theorem emitAll_params (bs : Bytes) (s : State) : (s.emitAll bs).params = s.params := by induction bs generalizing s with
  | nil => rfl
  | cons b bs ih => simp [emitAll, ih]
@[simp] theorem emitAll_irqEn (bs : Bytes) (s : State) : (s.emitAll bs).irqEn = s.irqEn := by induction bs generalizing s with
  | nil => rfl
  | cons b bs ih => simp [emitAll, ih]
@[simp] theorem emitAll_config (bs : Bytes) (s : State) : (s.emitAll bs).config = s.config := by induction bs generalizing s with
  | nil => rfl
  | cons b bs ih => simp [emitAll, ih]
@[simp] theorem emitAll_cursor (bs : Bytes) (s : State) : (s.emitAll bs).cursor = s.cursor := by induction bs generalizing s with
  | nil => rfl
  | cons b bs ih => simp [emitAll, ih]
@[simp] theorem emitAll_lzw (bs : Bytes) (s : State) : (s.emitAll bs).lzw = s.lzw := by induction bs generalizing s with
  | nil => rfl
  | cons b bs ih => simp [emitAll, ih]
@[simp] theorem emitAll_inBuf (bs : Bytes) (s : State) : (s.emitAll bs).inBuf = s.inBuf := by induction bs generalizing s with
  | nil => rfl
  | cons b bs ih => simp [emitAll, ih]
@[simp] theorem emitAll_phase (bs : Bytes) (s : State) : (s.emitAll bs).phase = s.phase := by induction bs generalizing s with
  | nil => rfl
  | cons b bs ih => simp [emitAll, ih]
@[simp] theorem emitAll_trail (bs : Bytes) (s : State) : (s.emitAll bs).trail = s.trail := by induction bs generalizing s with
  | nil => rfl
  | cons b bs ih => simp [emitAll, ih]
@[simp] theorem emitAll_turns (bs : Bytes) (s : State) : (s.emitAll bs).turns = s.turns := by induction bs generalizing s with
  | nil => rfl
  | cons b bs ih => simp [emitAll, ih]
@[simp] theorem emitAll_hostRead (bs : Bytes) (s : State) : (s.emitAll bs).hostRead = s.hostRead := by induction bs generalizing s with
  | nil => rfl
  | cons b bs ih => simp [emitAll, ih]
@[simp] theorem emitAll_draws (bs : Bytes) (s : State) : (s.emitAll bs).draws = s.draws := by induction bs generalizing s with
  | nil => rfl
  | cons b bs ih => simp [emitAll, ih]
@[simp] theorem emitAll_powerUps (bs : Bytes) (s : State) : (s.emitAll bs).powerUps = s.powerUps := by induction bs generalizing s with
  | nil => rfl
  | cons b bs ih => simp [emitAll, ih]

/-! ### `writeBytes` -/

@[simp] theorem writeBytes_params (a : Nat) (bs : Bytes) (s : State) : (s.writeBytes a bs).params = s.params := by induction bs generalizing a s with
  | nil => rfl
  | cons b bs ih => simp [writeBytes, ih]
@[simp] theorem writeBytes_irqEn (a : Nat) (bs : Bytes) (s : State) : (s.writeBytes a bs).irqEn = s.irqEn := by induction bs generalizing a s with
  | nil => rfl
  | cons b bs ih => simp [writeBytes, ih]
@[simp] theorem writeBytes_status (a : Nat) (bs : Bytes) (s : State) : (s.writeBytes a bs).status = s.status := by induction bs generalizing a s with
  | nil => rfl
  | cons b bs ih => simp [writeBytes, ih]
@[simp] theorem writeBytes_config (a : Nat) (bs : Bytes) (s : State) : (s.writeBytes a bs).config = s.config := by induction bs generalizing a s with
  | nil => rfl
  | cons b bs ih => simp [writeBytes, ih]
@[simp] theorem writeBytes_cursor (a : Nat) (bs : Bytes) (s : State) : (s.writeBytes a bs).cursor = s.cursor := by induction bs generalizing a s with
  | nil => rfl
  | cons b bs ih => simp [writeBytes, ih]
@[simp] theorem writeBytes_outPos (a : Nat) (bs : Bytes) (s : State) : (s.writeBytes a bs).outPos = s.outPos := by induction bs generalizing a s with
  | nil => rfl
  | cons b bs ih => simp [writeBytes, ih]
@[simp] theorem writeBytes_lzw (a : Nat) (bs : Bytes) (s : State) : (s.writeBytes a bs).lzw = s.lzw := by induction bs generalizing a s with
  | nil => rfl
  | cons b bs ih => simp [writeBytes, ih]
@[simp] theorem writeBytes_inBuf (a : Nat) (bs : Bytes) (s : State) : (s.writeBytes a bs).inBuf = s.inBuf := by induction bs generalizing a s with
  | nil => rfl
  | cons b bs ih => simp [writeBytes, ih]
@[simp] theorem writeBytes_phase (a : Nat) (bs : Bytes) (s : State) : (s.writeBytes a bs).phase = s.phase := by induction bs generalizing a s with
  | nil => rfl
  | cons b bs ih => simp [writeBytes, ih]
@[simp] theorem writeBytes_trail (a : Nat) (bs : Bytes) (s : State) : (s.writeBytes a bs).trail = s.trail := by induction bs generalizing a s with
  | nil => rfl
  | cons b bs ih => simp [writeBytes, ih]
@[simp] theorem writeBytes_turns (a : Nat) (bs : Bytes) (s : State) : (s.writeBytes a bs).turns = s.turns := by induction bs generalizing a s with
  | nil => rfl
  | cons b bs ih => simp [writeBytes, ih]
@[simp] theorem writeBytes_hostRead (a : Nat) (bs : Bytes) (s : State) : (s.writeBytes a bs).hostRead = s.hostRead := by induction bs generalizing a s with
  | nil => rfl
  | cons b bs ih => simp [writeBytes, ih]
@[simp] theorem writeBytes_draws (a : Nat) (bs : Bytes) (s : State) : (s.writeBytes a bs).draws = s.draws := by induction bs generalizing a s with
  | nil => rfl
  | cons b bs ih => simp [writeBytes, ih]
@[simp] theorem writeBytes_powerUps (a : Nat) (bs : Bytes) (s : State) : (s.writeBytes a bs).powerUps = s.powerUps := by induction bs generalizing a s with
  | nil => rfl
  | cons b bs ih => simp [writeBytes, ih]

/-! ### `outWrite` -/

@[simp] theorem outWrite_params (a n v : Nat) (s : State) : (s.outWrite a n v).params = s.params := by simp [outWrite]
@[simp] theorem outWrite_irqEn (a n v : Nat) (s : State) : (s.outWrite a n v).irqEn = s.irqEn := by simp [outWrite]
@[simp] theorem outWrite_status (a n v : Nat) (s : State) : (s.outWrite a n v).status = s.status := by simp [outWrite]
@[simp] theorem outWrite_config (a n v : Nat) (s : State) : (s.outWrite a n v).config = s.config := by simp [outWrite]
@[simp] theorem outWrite_cursor (a n v : Nat) (s : State) : (s.outWrite a n v).cursor = s.cursor := by simp [outWrite]
@[simp] theorem outWrite_outPos (a n v : Nat) (s : State) : (s.outWrite a n v).outPos = s.outPos := by simp [outWrite]
@[simp] theorem outWrite_lzw (a n v : Nat) (s : State) : (s.outWrite a n v).lzw = s.lzw := by simp [outWrite]
@[simp] theorem outWrite_inBuf (a n v : Nat) (s : State) : (s.outWrite a n v).inBuf = s.inBuf := by simp [outWrite]
@[simp] theorem outWrite_phase (a n v : Nat) (s : State) : (s.outWrite a n v).phase = s.phase := by simp [outWrite]
@[simp] theorem outWrite_trail (a n v : Nat) (s : State) : (s.outWrite a n v).trail = s.trail := by simp [outWrite]
@[simp] theorem outWrite_turns (a n v : Nat) (s : State) : (s.outWrite a n v).turns = s.turns := by simp [outWrite]
@[simp] theorem outWrite_hostRead (a n v : Nat) (s : State) : (s.outWrite a n v).hostRead = s.hostRead := by simp [outWrite]
@[simp] theorem outWrite_draws (a n v : Nat) (s : State) : (s.outWrite a n v).draws = s.draws := by simp [outWrite]
@[simp] theorem outWrite_powerUps (a n v : Nat) (s : State) : (s.outWrite a n v).powerUps = s.powerUps := by simp [outWrite]

/-! ### The register view depends on the configuration alone -/

/-- Every function of the configuration registers agrees on states with the same configuration and parameters. -/
theorem sdescWord_congr {s t : State} (hc : s.config = t.config) (hp : s.params = t.params) (i : Nat) :
    s.sdescWord i = t.sdescWord i := by simp [sdescWord, hc, hp]

theorem bps_congr {s t : State} (hc : s.config = t.config) (hp : s.params = t.params) (i : Nat) :
    s.bps i = t.bps i := by simp [bps, sdescWord_congr hc hp]

theorem sfmt_congr {s t : State} (hc : s.config = t.config) (hp : s.params = t.params) (i : Nat) :
    s.sfmt i = t.sfmt i := by simp [sfmt, sdescWord_congr hc hp]

theorem outLenExact_congr {s t : State} (hc : s.config = t.config) (hp : s.params = t.params) :
    s.outLenExact = t.outLenExact := by
  simp [outLenExact, bytesPerRow, bitsPerPixel, bps_congr hc hp, hc]

theorem outLen_congr {s t : State} (hc : s.config = t.config) (hp : s.params = t.params) :
    s.outLen = t.outLen := by
  simp [outLen, outLenExact_congr hc hp, hc, hp]

theorem inByte_congr {s t : State} (hc : s.config = t.config) (hb : s.inBuf = t.inBuf) (hu : s.powerUps = t.powerUps)
    (i : Nat) : s.inByte i = t.inByte i := by
  simp [inByte, lsbFirst, readIn, hc, hb, hu]

theorem inBits_congr {s t : State} (hc : s.config = t.config) (hb : s.inBuf = t.inBuf) (hu : s.powerUps = t.powerUps)
    (p n : Nat) : s.inBits p n = t.inBits p n := by
  induction n generalizing p with
  | zero => rfl
  | succ n ih => simp [inBits, inBit, inByte_congr hc hb hu, ih]

/-! ### Functions of the configuration under the updates -/

@[simp] theorem warn_outLen (w : Warning) (s : State) : (s.warn w).outLen = s.outLen := outLen_congr (by simp) (by simp)
@[simp] theorem warn_outLenExact (w : Warning) (s : State) : (s.warn w).outLenExact = s.outLenExact := outLenExact_congr (by simp) (by simp)
@[simp] theorem warn_comp (w : Warning) (s : State) : (s.warn w).comp = s.comp := by simp [comp]
@[simp] theorem warn_pred (w : Warning) (s : State) : (s.warn w).pred = s.pred := by simp [pred]
@[simp] theorem warn_bps (w : Warning) (s : State) (i : Nat) : (s.warn w).bps i = s.bps i := bps_congr (by simp) (by simp) i
@[simp] theorem warn_inByte (w : Warning) (s : State) (i : Nat) : (s.warn w).inByte i = s.inByte i := inByte_congr (by simp) (by simp) (by simp) i
@[simp] theorem warn_inBits (w : Warning) (s : State) (p m : Nat) : (s.warn w).inBits p m = s.inBits p m := inBits_congr (by simp) (by simp) (by simp) p m
@[simp] theorem warn_samplesPerRow (w : Warning) (s : State) : (s.warn w).samplesPerRow = s.samplesPerRow := by simp [samplesPerRow]
@[simp] theorem warn_littleEndian (w : Warning) (s : State) : (s.warn w).littleEndian = s.littleEndian := by simp [littleEndian]
@[simp] theorem writeOut_outLen (a : Nat) (b : Byte) (s : State) : (s.writeOut a b).outLen = s.outLen := outLen_congr (by simp) (by simp)
@[simp] theorem writeOut_outLenExact (a : Nat) (b : Byte) (s : State) : (s.writeOut a b).outLenExact = s.outLenExact := outLenExact_congr (by simp) (by simp)
@[simp] theorem writeOut_comp (a : Nat) (b : Byte) (s : State) : (s.writeOut a b).comp = s.comp := by simp [comp]
@[simp] theorem writeOut_pred (a : Nat) (b : Byte) (s : State) : (s.writeOut a b).pred = s.pred := by simp [pred]
@[simp] theorem writeOut_bps (a : Nat) (b : Byte) (s : State) (i : Nat) : (s.writeOut a b).bps i = s.bps i := bps_congr (by simp) (by simp) i
@[simp] theorem writeOut_inByte (a : Nat) (b : Byte) (s : State) (i : Nat) : (s.writeOut a b).inByte i = s.inByte i := inByte_congr (by simp) (by simp) (by simp) i
@[simp] theorem writeOut_inBits (a : Nat) (b : Byte) (s : State) (p m : Nat) : (s.writeOut a b).inBits p m = s.inBits p m := inBits_congr (by simp) (by simp) (by simp) p m
@[simp] theorem writeOut_samplesPerRow (a : Nat) (b : Byte) (s : State) : (s.writeOut a b).samplesPerRow = s.samplesPerRow := by simp [samplesPerRow]
@[simp] theorem writeOut_littleEndian (a : Nat) (b : Byte) (s : State) : (s.writeOut a b).littleEndian = s.littleEndian := by simp [littleEndian]
@[simp] theorem advance_outLen (n : Nat) (s : State) : (s.advance n).outLen = s.outLen := outLen_congr (by simp) (by simp)
@[simp] theorem advance_comp (n : Nat) (s : State) : (s.advance n).comp = s.comp := by simp [comp]
@[simp] theorem advance_pred (n : Nat) (s : State) : (s.advance n).pred = s.pred := by simp [pred]
@[simp] theorem advance_inByte (n : Nat) (s : State) (i : Nat) : (s.advance n).inByte i = s.inByte i := inByte_congr (by simp) (by simp) (by simp) i
@[simp] theorem advance_inBits (n : Nat) (s : State) (p m : Nat) : (s.advance n).inBits p m = s.inBits p m := inBits_congr (by simp) (by simp) (by simp) p m
@[simp] theorem clearTable_outLen (s : State) : (s.clearTable).outLen = s.outLen := outLen_congr (by simp) (by simp)
@[simp] theorem clearTable_comp (s : State) : (s.clearTable).comp = s.comp := by simp [comp]
@[simp] theorem clearTable_pred (s : State) : (s.clearTable).pred = s.pred := by simp [pred]
@[simp] theorem clearTable_inByte (s : State) (i : Nat) : (s.clearTable).inByte i = s.inByte i := inByte_congr (by simp) (by simp) (by simp) i
@[simp] theorem clearTable_inBits (s : State) (p m : Nat) : (s.clearTable).inBits p m = s.inBits p m := inBits_congr (by simp) (by simp) (by simp) p m
@[simp] theorem setPrev_outLen (str : Bytes) (s : State) : (s.setPrev str).outLen = s.outLen := outLen_congr (by simp) (by simp)
@[simp] theorem setPrev_comp (str : Bytes) (s : State) : (s.setPrev str).comp = s.comp := by simp [comp]
@[simp] theorem setPrev_pred (str : Bytes) (s : State) : (s.setPrev str).pred = s.pred := by simp [pred]
@[simp] theorem setPrev_inByte (str : Bytes) (s : State) (i : Nat) : (s.setPrev str).inByte i = s.inByte i := inByte_congr (by simp) (by simp) (by simp) i
@[simp] theorem setPrev_inBits (str : Bytes) (s : State) (p m : Nat) : (s.setPrev str).inBits p m = s.inBits p m := inBits_congr (by simp) (by simp) (by simp) p m
@[simp] theorem initOperation_outLen (s : State) : (s.initOperation).outLen = s.outLen := outLen_congr (by simp) (by simp)
@[simp] theorem initOperation_outLenExact (s : State) : (s.initOperation).outLenExact = s.outLenExact := outLenExact_congr (by simp) (by simp)
@[simp] theorem initOperation_comp (s : State) : (s.initOperation).comp = s.comp := by simp [comp]
@[simp] theorem initOperation_pred (s : State) : (s.initOperation).pred = s.pred := by simp [pred]
@[simp] theorem initOperation_bps (s : State) (i : Nat) : (s.initOperation).bps i = s.bps i := bps_congr (by simp) (by simp) i
@[simp] theorem initOperation_inByte (s : State) (i : Nat) : (s.initOperation).inByte i = s.inByte i := inByte_congr (by simp) (by simp) (by simp) i
@[simp] theorem initOperation_inBits (s : State) (p m : Nat) : (s.initOperation).inBits p m = s.inBits p m := inBits_congr (by simp) (by simp) (by simp) p m
@[simp] theorem initOperation_samplesPerRow (s : State) : (s.initOperation).samplesPerRow = s.samplesPerRow := by simp [samplesPerRow]
@[simp] theorem initOperation_littleEndian (s : State) : (s.initOperation).littleEndian = s.littleEndian := by simp [littleEndian]
@[simp] theorem fatal_outLen (e : ErrCode) (s : State) : (s.fatal e).outLen = s.outLen := outLen_congr (by simp) (by simp)
@[simp] theorem fatal_comp (e : ErrCode) (s : State) : (s.fatal e).comp = s.comp := by simp [comp]
@[simp] theorem fatal_pred (e : ErrCode) (s : State) : (s.fatal e).pred = s.pred := by simp [pred]
@[simp] theorem fatal_inByte (e : ErrCode) (s : State) (i : Nat) : (s.fatal e).inByte i = s.inByte i := inByte_congr (by simp) (by simp) (by simp) i
@[simp] theorem fatal_inBits (e : ErrCode) (s : State) (p m : Nat) : (s.fatal e).inBits p m = s.inBits p m := inBits_congr (by simp) (by simp) (by simp) p m
@[simp] theorem finish_outLen (e : ErrCode) (s : State) : (s.finish e).outLen = s.outLen := outLen_congr (by simp) (by simp)
@[simp] theorem finish_comp (e : ErrCode) (s : State) : (s.finish e).comp = s.comp := by simp [comp]
@[simp] theorem finish_pred (e : ErrCode) (s : State) : (s.finish e).pred = s.pred := by simp [pred]
@[simp] theorem finish_inByte (e : ErrCode) (s : State) (i : Nat) : (s.finish e).inByte i = s.inByte i := inByte_congr (by simp) (by simp) (by simp) i
@[simp] theorem finish_inBits (e : ErrCode) (s : State) (p m : Nat) : (s.finish e).inBits p m = s.inBits p m := inBits_congr (by simp) (by simp) (by simp) p m
@[simp] theorem emit_outLen (b : Byte) (s : State) : (s.emit b).outLen = s.outLen := outLen_congr (by simp) (by simp)
@[simp] theorem emit_outLenExact (b : Byte) (s : State) : (s.emit b).outLenExact = s.outLenExact := outLenExact_congr (by simp) (by simp)
@[simp] theorem emit_comp (b : Byte) (s : State) : (s.emit b).comp = s.comp := by simp [comp]
@[simp] theorem emit_pred (b : Byte) (s : State) : (s.emit b).pred = s.pred := by simp [pred]
@[simp] theorem emit_bps (b : Byte) (s : State) (i : Nat) : (s.emit b).bps i = s.bps i := bps_congr (by simp) (by simp) i
@[simp] theorem emit_inByte (b : Byte) (s : State) (i : Nat) : (s.emit b).inByte i = s.inByte i := inByte_congr (by simp) (by simp) (by simp) i
@[simp] theorem emit_inBits (b : Byte) (s : State) (p m : Nat) : (s.emit b).inBits p m = s.inBits p m := inBits_congr (by simp) (by simp) (by simp) p m
@[simp] theorem emit_samplesPerRow (b : Byte) (s : State) : (s.emit b).samplesPerRow = s.samplesPerRow := by simp [samplesPerRow]
@[simp] theorem emit_littleEndian (b : Byte) (s : State) : (s.emit b).littleEndian = s.littleEndian := by simp [littleEndian]
@[simp] theorem enterPredictor_outLen (s : State) : (s.enterPredictor).outLen = s.outLen := outLen_congr (by simp) (by simp)
@[simp] theorem enterPredictor_outLenExact (s : State) : (s.enterPredictor).outLenExact = s.outLenExact := outLenExact_congr (by simp) (by simp)
@[simp] theorem enterPredictor_comp (s : State) : (s.enterPredictor).comp = s.comp := by simp [comp]
@[simp] theorem enterPredictor_pred (s : State) : (s.enterPredictor).pred = s.pred := by simp [pred]
@[simp] theorem enterPredictor_bps (s : State) (i : Nat) : (s.enterPredictor).bps i = s.bps i := bps_congr (by simp) (by simp) i
@[simp] theorem enterPredictor_inByte (s : State) (i : Nat) : (s.enterPredictor).inByte i = s.inByte i := inByte_congr (by simp) (by simp) (by simp) i
@[simp] theorem enterPredictor_inBits (s : State) (p m : Nat) : (s.enterPredictor).inBits p m = s.inBits p m := inBits_congr (by simp) (by simp) (by simp) p m
@[simp] theorem enterPredictor_samplesPerRow (s : State) : (s.enterPredictor).samplesPerRow = s.samplesPerRow := by simp [samplesPerRow]
@[simp] theorem enterPredictor_littleEndian (s : State) : (s.enterPredictor).littleEndian = s.littleEndian := by simp [littleEndian]
@[simp] theorem afterDecode_outLen (s : State) : (s.afterDecode).outLen = s.outLen := outLen_congr (by simp) (by simp)
@[simp] theorem afterDecode_comp (s : State) : (s.afterDecode).comp = s.comp := by simp [comp]
@[simp] theorem afterDecode_pred (s : State) : (s.afterDecode).pred = s.pred := by simp [pred]
@[simp] theorem afterDecode_inByte (s : State) (i : Nat) : (s.afterDecode).inByte i = s.inByte i := inByte_congr (by simp) (by simp) (by simp) i
@[simp] theorem afterDecode_inBits (s : State) (p m : Nat) : (s.afterDecode).inBits p m = s.inBits p m := inBits_congr (by simp) (by simp) (by simp) p m
@[simp] theorem enterOperation_outLen (s : State) : (s.enterOperation).outLen = s.outLen := outLen_congr (by simp) (by simp)
@[simp] theorem enterOperation_outLenExact (s : State) : (s.enterOperation).outLenExact = s.outLenExact := outLenExact_congr (by simp) (by simp)
@[simp] theorem enterOperation_comp (s : State) : (s.enterOperation).comp = s.comp := by simp [comp]
@[simp] theorem enterOperation_pred (s : State) : (s.enterOperation).pred = s.pred := by simp [pred]
@[simp] theorem enterOperation_bps (s : State) (i : Nat) : (s.enterOperation).bps i = s.bps i := bps_congr (by simp) (by simp) i
@[simp] theorem enterOperation_inByte (s : State) (i : Nat) : (s.enterOperation).inByte i = s.inByte i := inByte_congr (by simp) (by simp) (by simp) i
@[simp] theorem enterOperation_inBits (s : State) (p m : Nat) : (s.enterOperation).inBits p m = s.inBits p m := inBits_congr (by simp) (by simp) (by simp) p m
@[simp] theorem enterOperation_samplesPerRow (s : State) : (s.enterOperation).samplesPerRow = s.samplesPerRow := by simp [samplesPerRow]
@[simp] theorem enterOperation_littleEndian (s : State) : (s.enterOperation).littleEndian = s.littleEndian := by simp [littleEndian]
@[simp] theorem nextRow_outLen (r : Nat) (s : State) : (s.nextRow r).outLen = s.outLen := outLen_congr (by simp) (by simp)
@[simp] theorem nextRow_outLenExact (r : Nat) (s : State) : (s.nextRow r).outLenExact = s.outLenExact := outLenExact_congr (by simp) (by simp)
@[simp] theorem nextRow_comp (r : Nat) (s : State) : (s.nextRow r).comp = s.comp := by simp [comp]
@[simp] theorem nextRow_pred (r : Nat) (s : State) : (s.nextRow r).pred = s.pred := by simp [pred]
@[simp] theorem nextRow_bps (r : Nat) (s : State) (i : Nat) : (s.nextRow r).bps i = s.bps i := bps_congr (by simp) (by simp) i
@[simp] theorem nextRow_inByte (r : Nat) (s : State) (i : Nat) : (s.nextRow r).inByte i = s.inByte i := inByte_congr (by simp) (by simp) (by simp) i
@[simp] theorem nextRow_inBits (r : Nat) (s : State) (p m : Nat) : (s.nextRow r).inBits p m = s.inBits p m := inBits_congr (by simp) (by simp) (by simp) p m
@[simp] theorem nextRow_samplesPerRow (r : Nat) (s : State) : (s.nextRow r).samplesPerRow = s.samplesPerRow := by simp [samplesPerRow]
@[simp] theorem nextRow_littleEndian (r : Nat) (s : State) : (s.nextRow r).littleEndian = s.littleEndian := by simp [littleEndian]
@[simp] theorem noted_outLen (s : State) : (s.noted).outLen = s.outLen := outLen_congr (by simp) (by simp)
@[simp] theorem noted_comp (s : State) : (s.noted).comp = s.comp := by simp [comp]
@[simp] theorem noted_pred (s : State) : (s.noted).pred = s.pred := by simp [pred]
@[simp] theorem noted_inByte (s : State) (i : Nat) : (s.noted).inByte i = s.inByte i := inByte_congr (by simp) (by simp) (by simp) i
@[simp] theorem noted_inBits (s : State) (p m : Nat) : (s.noted).inBits p m = s.inBits p m := inBits_congr (by simp) (by simp) (by simp) p m
@[simp] theorem emitAll_outLen (bs : Bytes) (s : State) : (s.emitAll bs).outLen = s.outLen := outLen_congr (by simp) (by simp)
@[simp] theorem emitAll_comp (bs : Bytes) (s : State) : (s.emitAll bs).comp = s.comp := by simp [comp]
@[simp] theorem emitAll_pred (bs : Bytes) (s : State) : (s.emitAll bs).pred = s.pred := by simp [pred]
@[simp] theorem emitAll_inByte (bs : Bytes) (s : State) (i : Nat) : (s.emitAll bs).inByte i = s.inByte i := inByte_congr (by simp) (by simp) (by simp) i
@[simp] theorem emitAll_inBits (bs : Bytes) (s : State) (p m : Nat) : (s.emitAll bs).inBits p m = s.inBits p m := inBits_congr (by simp) (by simp) (by simp) p m
@[simp] theorem writeBytes_outLen (a : Nat) (bs : Bytes) (s : State) : (s.writeBytes a bs).outLen = s.outLen := outLen_congr (by simp) (by simp)
@[simp] theorem writeBytes_outLenExact (a : Nat) (bs : Bytes) (s : State) : (s.writeBytes a bs).outLenExact = s.outLenExact := outLenExact_congr (by simp) (by simp)
@[simp] theorem writeBytes_comp (a : Nat) (bs : Bytes) (s : State) : (s.writeBytes a bs).comp = s.comp := by simp [comp]
@[simp] theorem writeBytes_pred (a : Nat) (bs : Bytes) (s : State) : (s.writeBytes a bs).pred = s.pred := by simp [pred]
@[simp] theorem writeBytes_bps (a : Nat) (bs : Bytes) (s : State) (i : Nat) : (s.writeBytes a bs).bps i = s.bps i := bps_congr (by simp) (by simp) i
@[simp] theorem writeBytes_inByte (a : Nat) (bs : Bytes) (s : State) (i : Nat) : (s.writeBytes a bs).inByte i = s.inByte i := inByte_congr (by simp) (by simp) (by simp) i
@[simp] theorem writeBytes_inBits (a : Nat) (bs : Bytes) (s : State) (p m : Nat) : (s.writeBytes a bs).inBits p m = s.inBits p m := inBits_congr (by simp) (by simp) (by simp) p m
@[simp] theorem writeBytes_samplesPerRow (a : Nat) (bs : Bytes) (s : State) : (s.writeBytes a bs).samplesPerRow = s.samplesPerRow := by simp [samplesPerRow]
@[simp] theorem writeBytes_littleEndian (a : Nat) (bs : Bytes) (s : State) : (s.writeBytes a bs).littleEndian = s.littleEndian := by simp [littleEndian]
@[simp] theorem outWrite_outLen (a n v : Nat) (s : State) : (s.outWrite a n v).outLen = s.outLen := outLen_congr (by simp) (by simp)
@[simp] theorem outWrite_outLenExact (a n v : Nat) (s : State) : (s.outWrite a n v).outLenExact = s.outLenExact := outLenExact_congr (by simp) (by simp)
@[simp] theorem outWrite_comp (a n v : Nat) (s : State) : (s.outWrite a n v).comp = s.comp := by simp [comp]
@[simp] theorem outWrite_pred (a n v : Nat) (s : State) : (s.outWrite a n v).pred = s.pred := by simp [pred]
@[simp] theorem outWrite_bps (a n v : Nat) (s : State) (i : Nat) : (s.outWrite a n v).bps i = s.bps i := bps_congr (by simp) (by simp) i
@[simp] theorem outWrite_inByte (a n v : Nat) (s : State) (i : Nat) : (s.outWrite a n v).inByte i = s.inByte i := inByte_congr (by simp) (by simp) (by simp) i
@[simp] theorem outWrite_inBits (a n v : Nat) (s : State) (p m : Nat) : (s.outWrite a n v).inBits p m = s.inBits p m := inBits_congr (by simp) (by simp) (by simp) p m
@[simp] theorem outWrite_samplesPerRow (a n v : Nat) (s : State) : (s.outWrite a n v).samplesPerRow = s.samplesPerRow := by simp [samplesPerRow]
@[simp] theorem outWrite_littleEndian (a n v : Nat) (s : State) : (s.outWrite a n v).littleEndian = s.littleEndian := by simp [littleEndian]

end Sys2Proof.Machine.State
end

