-- ==== Sys2Proof/Laws/Store.lean ====
section
/-! SUPPORT. The laws of the sparse stores behind IN, OUT and DICT: read after write, and the canonical form. -/

namespace Sys2Proof.Machine

variable {α : Type}

@[simp] theorem Store.get?_set_self (m : Store α) (a : Nat) (v : α) : Store.get? (Store.set m a v) a = some v := by
  induction m with
  | nil => simp [Store.set, Store.get?]
  | cons c m ih =>
    obtain ⟨k, w⟩ := c
    simp only [Store.set]
    split
    · simp [Store.get?]
    · split
      · simp [Store.get?]
      · simp [Store.get?, ih, Ne.symm ‹a ≠ k›]

theorem Store.get?_set_of_ne (m : Store α) {a b : Nat} (v : α) (h : b ≠ a) :
    Store.get? (Store.set m a v) b = Store.get? m b := by
  induction m with
  | nil => simp [Store.set, Store.get?, Ne.symm h]
  | cons c m ih =>
    obtain ⟨k, w⟩ := c
    simp only [Store.set]
    split
    · simp [Store.get?, Ne.symm h]
    · split
      · rename_i hk; subst hk; simp [Store.get?, Ne.symm h]
      · simp [Store.get?, ih]

theorem Store.get?_set (m : Store α) (a b : Nat) (v : α) :
    Store.get? (Store.set m a v) b = if b = a then some v else Store.get? m b := by
  split
  · simp_all
  · exact Store.get?_set_of_ne m v ‹_›

theorem Store.above_mono {b c : Nat} (h : c ≤ b) {m : Store α} (hm : Store.above b m = true) :
    Store.above c m = true := by
  cases m with
  | nil => rfl
  | cons x m => simp only [Store.above, Bool.and_eq_true, decide_eq_true_eq] at hm ⊢; exact ⟨by omega, hm.2⟩

theorem Store.above_set {b : Nat} {m : Store α} {a : Nat} (v : α) (hb : b < a) (hm : Store.above b m = true) :
    Store.above b (Store.set m a v) = true := by
  induction m generalizing b with
  | nil => simp [Store.set, Store.above, hb]
  | cons x m ih =>
    obtain ⟨k, w⟩ := x
    simp only [Store.above, Bool.and_eq_true, decide_eq_true_eq] at hm
    simp only [Store.set]
    split
    · simp [Store.above, hb, hm.2, ‹a < k›]
    · split
      · simp_all [Store.above]
      · simp only [Store.above, Bool.and_eq_true, decide_eq_true_eq]
        exact ⟨hm.1, ih (by omega) hm.2⟩

/-- A write keeps the canonical form. -/
theorem Store.wf_set {m : Store α} (a : Nat) (v : α) (hm : Store.wf m = true) : Store.wf (Store.set m a v) = true := by
  cases m with
  | nil => rfl
  | cons x m =>
    obtain ⟨k, w⟩ := x
    simp only [Store.wf] at hm
    simp only [Store.set]
    split
    · simp [Store.wf, Store.above, hm, ‹a < k›]
    · split
      · rename_i hk; subst hk; simpa [Store.wf] using hm
      · simp only [Store.wf]; exact Store.above_set v (by omega) hm

/-- What a store lists after a write was listed before or is the new entry. -/
theorem Store.mem_set {m : Store α} {a : Nat} {v : α} {c : Nat × α} (h : c ∈ Store.set m a v) : c = (a, v) ∨ c ∈ m := by
  induction m with
  | nil => simpa [Store.set] using h
  | cons x m ih =>
    obtain ⟨k, w⟩ := x
    simp only [Store.set] at h
    split at h
    · simpa using h
    · split at h
      · simp only [List.mem_cons] at h ⊢; tauto
      · simp only [List.mem_cons] at h ⊢
        rcases h with h | h
        · exact .inr (.inl h)
        · rcases ih h with h | h
          · exact .inl h
          · exact .inr (.inr h)

theorem Store.get?_mem {m : Store α} {a : Nat} {v : α} (h : Store.get? m a = some v) : (a, v) ∈ m := by
  induction m with
  | nil => simp [Store.get?] at h
  | cons x m ih =>
    obtain ⟨k, w⟩ := x
    simp only [Store.get?] at h
    split at h
    · simp_all
    · exact List.mem_cons_of_mem _ (ih h)

/-- Writing above every listed address appends. -/
theorem Store.set_append {m : Store α} {a : Nat} (v : α) (h : ∀ c ∈ m, c.1 < a) : Store.set m a v = m ++ [(a, v)] := by
  induction m with
  | nil => rfl
  | cons x m ih =>
    obtain ⟨k, w⟩ := x
    have hk : k < a := h (k, w) (by simp)
    simp only [Store.set]
    rw [if_neg (by omega), if_neg (by omega), ih fun c hc => h c (List.mem_cons_of_mem _ hc)]
    rfl

theorem Store.get?_of_mem {m : Store α} {a : Nat} {v : α} (hw : Store.wf m = true) (h : (a, v) ∈ m) :
    Store.get? m a = some v := by
  have key : ∀ {b : Nat} {m : Store α}, Store.above b m = true → (a, v) ∈ m → b < a ∧ Store.get? m a = some v := by
    intro b m hb hm
    induction m generalizing b with
    | nil => simp at hm
    | cons x m ih =>
      obtain ⟨k, w⟩ := x
      simp only [Store.above, Bool.and_eq_true, decide_eq_true_eq] at hb
      rcases List.mem_cons.mp hm with h | h
      · cases h; exact ⟨hb.1, by simp [Store.get?]⟩
      · obtain ⟨h1, h2⟩ := ih hb.2 h
        exact ⟨by omega, by simp [Store.get?, h2, show k ≠ a by omega]⟩
  cases m with
  | nil => simp at h
  | cons x m =>
    obtain ⟨k, w⟩ := x
    simp only [Store.wf] at hw
    rcases List.mem_cons.mp h with h | h
    · cases h; simp [Store.get?]
    · obtain ⟨h1, h2⟩ := key hw h
      simp [Store.get?, h2, show k ≠ a by omega]

/-! ### Reads of the buffers -/

theorem State.readOut_writeOut (s : State) (a b : Nat) (v : Byte) :
    (s.writeOut a v).readOut b = if b = a then v else s.readOut b := by
  simp only [State.readOut, State.writeOut_outBuf, Store.get?_set, State.writeOut_powerUps]
  split <;> rfl

theorem State.readIn_writeIn (s : State) (a b : Nat) (v : Byte) :
    (s.writeIn a v).readIn b = if b = a then v else s.readIn b := by
  simp only [State.readIn, State.writeIn_inBuf, Store.get?_set, State.writeIn_powerUps]
  split <;> rfl

/-- Reads of OUT depend on the contents of OUT alone. -/
theorem State.readOut_congr {s t : State} (hb : s.outBuf = t.outBuf) (hu : s.powerUps = t.powerUps) (a : Nat) :
    s.readOut a = t.readOut a := by simp [State.readOut, hb, hu]

/-- Writing a byte string changes its own addresses and no other. -/
theorem State.readOut_writeBytes (s : State) (a b : Nat) (bs : Bytes) :
    (s.writeBytes a bs).readOut b = if a ≤ b then (bs[b - a]?).getD (s.readOut b) else s.readOut b := by
  induction bs generalizing a s with
  | nil => simp [State.writeBytes]
  | cons v bs ih =>
    rw [State.writeBytes, ih, State.readOut_writeOut]
    rcases Nat.lt_trichotomy b a with h | h | h
    · simp [show ¬ a + 1 ≤ b by omega, show ¬ b = a by omega, show ¬ a ≤ b by omega]
    · subst h; simp
    · obtain ⟨d, rfl⟩ : ∃ d, b = a + 1 + d := ⟨b - (a + 1), by omega⟩
      simp [show a + 1 + d - a = d + 1 by omega, show ¬ a + 1 + d = a by omega, show a ≤ a + 1 + d by omega]

theorem State.outBytes_length (s : State) (a n : Nat) : (s.outBytes a n).length = n := by
  induction n generalizing a with
  | zero => rfl
  | succ n ih => simp [State.outBytes, ih]

theorem State.outBytes_getElem? (s : State) (a n i : Nat) (h : i < n) :
    (s.outBytes a n)[i]? = some (s.readOut (a + i)) := by
  induction n generalizing a i with
  | zero => omega
  | succ n ih =>
    cases i with
    | zero => simp [State.outBytes]
    | succ i => rw [State.outBytes, List.getElem?_cons_succ, ih _ _ (by omega)]; congr 2; omega

end Sys2Proof.Machine
end

