-- ==== Sys2Proof/Laws/Ops.lean ====
section
/-! SUPPORT. What each shared operation can do, said once: the lemmas to cite instead of unfolding the operation. -/

namespace Sys2Proof.Machine

/-! ### The register view -/

theorem State.outLen_le (s : State) : s.outLen ≤ 2 ^ 32 - 1 := by
  simp only [State.outLen]; split <;> omega

theorem State.outLen_le_exact (s : State) : s.outLen ≤ s.outLenExact := by
  simp only [State.outLen]; split <;> omega

theorem Status.started_word : Status.started.word = 0x00000001#32 := rfl

theorem LzwRegs.cleared_word (z : LzwRegs) (p : Option Bytes) :
    ({ z.cleared with prev := p } : LzwRegs).word = 0x00090102#32 := by simp [LzwRegs.word, LzwRegs.cleared]

/-- R37, R101, R102: the register values after the START step. -/
theorem State.snapshot_started (s : State) : (({ s with status := Status.started } : State).initOperation).snapshot =
    { cursor := 0, outPos := 0, lzwState := 0x00090102#32, status := 0x00000001#32 } := by
  simp only [State.snapshot, State.initOperation, Status.started_word, LzwRegs.cleared_word]

/-- The start check reads the configuration, the parameters and IN alone. -/
theorem State.configCheck_congr {s t : State} (hc : s.config = t.config) (hp : s.params = t.params)
    (hb : s.inBuf = t.inBuf) (hu : s.powerUps = t.powerUps) : s.configCheck = t.configCheck := by
  cases s; cases t
  simp only at hc hp hb hu
  subst hc hp hb hu
  rfl

/-- R103: what a passed start check says. -/
theorem State.configCheck_none {s : State} (h : s.configCheck = .none) :
    s.comp.toNat < 3 ∧ s.layoutOk = true ∧ s.predictorOk = true ∧ s.capacityOk = true := by
  simp only [State.configCheck] at h
  split at h
  · cases h
  · split at h
    · cases h
    · split at h
      · cases h
      · split at h
        · cases h
        · simp_all

/-- R107, R3: the input length of a checked decode. -/
theorem State.inLen_le {s : State} (hp : s.params.legal = true) (h : s.configCheck = .none)
    (hc : s.comp = 1 ∨ s.comp = 2) : s.config.inLen.toNat ≤ 2 ^ 28 := by
  simp only [Config.Params.legal, Bool.and_eq_true, decide_eq_true_eq] at hp
  obtain ⟨-, -, -, h⟩ := State.configCheck_none h
  simp only [State.capacityOk, Bool.and_eq_true, Bool.or_eq_true, Bool.not_eq_true', decide_eq_true_eq] at h
  have hc' : (s.comp.toNat == 1 || s.comp.toNat == 2) = true := by rcases hc with h | h <;> simp [h]
  rw [hc'] at h
  have := h.2.resolve_left (by simp)
  omega

/-- R34, R107: after a passed start check OUT_LEN is the exact output length, within the capacity. -/
theorem State.outLen_exact {s : State} (hp : s.params.legal = true) (h : s.configCheck = .none) :
    s.outLen = s.outLenExact ∧ s.outLenExact ≤ s.params.outCap := by
  simp only [Config.Params.legal, Bool.and_eq_true, decide_eq_true_eq] at hp
  obtain ⟨-, h1, -, h2⟩ := State.configCheck_none h
  simp only [State.capacityOk, Bool.and_eq_true, decide_eq_true_eq] at h2
  simp only [State.layoutOk, Bool.and_eq_true, decide_eq_true_eq] at h1
  refine ⟨?_, h2.1⟩
  rw [State.outLen, if_pos ⟨h1.1.1, h1.1.2⟩]
  omega

/-! ### Emit (R63) -/

theorem State.emit_outPos_of_lt {s : State} (b : Byte) (h : s.outPos.toNat < s.outLen) :
    (s.emit b).outPos.toNat = s.outPos.toNat + 1 := by
  have := s.outLen_le
  simp only [State.emit, if_pos h, BitVec.toNat_add]
  simp; omega

/-- R63: one byte. -/
theorem State.emit_emitted (s : State) (b : Byte) : s.Emitted [b] (s.emit b) := by
  by_cases h : s.outPos.toNat < s.outLen
  · have hp := State.emit_outPos_of_lt b h
    refine ⟨?_, ?_, ?_, ?_⟩
    · rw [hp]; simp; omega
    · rw [if_neg (by simp; omega)]; simp [State.emit, h]
    · intro a
      rw [hp]
      have hr : (s.emit b).readOut a = (s.writeOut s.outPos.toNat b).readOut a := by
        simp [State.emit, h, State.readOut, State.writeOut]
      rw [hr, State.readOut_writeOut]
      by_cases ha : a = s.outPos.toNat
      · subst ha; simp
      · rw [if_neg ha, if_neg (by omega)]
    · simp [State.emit, h]
  · refine ⟨?_, ?_, ?_, ?_⟩
    · simp [State.emit, h]; omega
    · rw [if_pos (by simp; omega)]; simp [State.emit, h, State.warn, Status.warn]
    · intro a
      simp only [State.emit, if_neg h]
      rw [if_neg (by simp)]; rfl
    · simp [State.emit, h, State.warn]

theorem State.Emitted.refl (s : State) : s.Emitted [] s :=
  ⟨by simp, by simp, fun a => by rw [if_neg (by omega)], rfl⟩

theorem State.Emitted.outLen {s u : State} {bs : Bytes} (h : s.Emitted bs u) : u.outLen = s.outLen := by
  rw [h.frame]; exact State.outLen_congr rfl rfl

/-- `Emit` of two strings is `Emit` of both in order. -/
theorem State.Emitted.trans {s u v : State} {bs cs : Bytes} (h : s.Emitted bs u) (k : u.Emitted cs v) :
    s.Emitted (bs ++ cs) v := by
  have hl := h.outLen
  have h1 := h.outPos
  have k1 := k.outPos
  rw [hl] at k1
  refine ⟨?_, ?_, ?_, ?_⟩
  · simp only [List.length_append]; omega
  · rw [k.status, h.status, hl]
    simp only [List.length_append]
    split <;> split <;> split <;> first | rfl | omega
  · intro a
    rw [k.bytes, h.bytes]
    by_cases ha : a < s.outPos.toNat
    · rw [if_neg (by omega), if_neg (by omega), if_neg (by omega)]
    · by_cases hb : a < u.outPos.toNat
      · rw [if_neg (by omega), if_pos (by omega), if_pos (by omega), List.getElem?_append_left (by omega)]
      · by_cases hc : a < v.outPos.toNat
        · rw [if_pos (by omega), if_pos (by omega)]
          have hbs : bs.length ≤ a - s.outPos.toNat := by omega
          rw [List.getElem?_append_right hbs]
          congr 2; omega
        · rw [if_neg (by omega), if_neg (by omega), if_neg (by omega)]
  · rw [k.frame, h.frame]

/-- R63: a byte string. -/
theorem State.emitAll_emitted (bs : Bytes) (s : State) : s.Emitted bs (s.emitAll bs) := by
  induction bs generalizing s with
  | nil => exact .refl s
  | cons b bs ih => exact (s.emit_emitted b).trans (ih (s.emit b))

/-- `Emit` does not look at CURSOR. -/
theorem State.emitAll_withCursor (bs : Bytes) (s : State) (c : Word) :
    ({ s with cursor := c } : State).emitAll bs = { s.emitAll bs with cursor := c } := by
  induction bs generalizing s with
  | nil => rfl
  | cons b bs ih =>
    have h : ({ s with cursor := c } : State).emit b = { s.emit b with cursor := c } := by
      have hl : ({ s with cursor := c } : State).outLen = s.outLen := State.outLen_congr rfl rfl
      simp only [State.emit, hl]
      split <;> rfl
    rw [State.emitAll, h, ih]
    rfl

/-- `Emit` keeps the canonical form of OUT. -/
theorem State.emit_wf {s : State} (b : Byte) (h : Memory.wf s.outBuf = true) : Memory.wf (s.emit b).outBuf = true := by
  simp only [State.emit]
  split
  · exact Store.wf_set _ _ h
  · exact h

/-- `Emit` only sets W_OVERRUN, and only once OUT_POS has reached OUT_LEN; OUT_POS stays within OUT_LEN. -/
theorem State.Emitted.warnings {s u : State} {bs : Bytes} (h : s.Emitted bs u) (hp : s.outPos.toNat ≤ s.outLen) :
    u.status = { s.status with wOverrun := u.status.wOverrun } ∧ s.outPos.toNat ≤ u.outPos.toNat ∧
      u.outPos.toNat ≤ s.outLen ∧
      (u.status.wOverrun = true → s.status.wOverrun = true ∨ s.outLen ≤ u.outPos.toNat) := by
  have h1 := h.outPos
  have h2 := h.status
  refine ⟨?_, by omega, by omega, ?_⟩
  · rw [h2]; split <;> rfl
  · intro hw
    by_cases hd : s.outLen - s.outPos.toNat < bs.length
    · exact .inr (by omega)
    · rw [h2, if_neg hd] at hw; exact .inl hw

theorem State.emitAll_wf {bs : Bytes} {s : State} (h : Memory.wf s.outBuf = true) :
    Memory.wf (s.emitAll bs).outBuf = true := by
  induction bs generalizing s with
  | nil => exact h
  | cons b bs ih => exact ih (State.emit_wf b h)

/-- `Emit` lists addresses below OUT_LEN only. -/
theorem State.emitAll_bound {bs : Bytes} {s : State} {n : Nat} (hn : s.outLen ≤ n) (h : ∀ c ∈ s.outBuf, c.1 < n) :
    ∀ c ∈ (s.emitAll bs).outBuf, c.1 < n := by
  induction bs generalizing s with
  | nil => exact h
  | cons b bs ih =>
    refine ih (by simpa using hn) ?_
    intro c hc
    simp only [State.emit] at hc
    split at hc
    · rcases Store.mem_set hc with rfl | hc
      · simpa using by omega
      · exact h c hc
    · exact h c hc

theorem State.writeBytes_wf {bs : Bytes} {s : State} (a : Nat) (h : Memory.wf s.outBuf = true) :
    Memory.wf (s.writeBytes a bs).outBuf = true := by
  induction bs generalizing s a with
  | nil => exact h
  | cons b bs ih => exact ih (a + 1) (Store.wf_set _ _ h)

theorem State.writeBytes_bound {bs : Bytes} {s : State} {a n : Nat} (hn : a + bs.length ≤ n)
    (h : ∀ c ∈ s.outBuf, c.1 < n) : ∀ c ∈ (s.writeBytes a bs).outBuf, c.1 < n := by
  induction bs generalizing s a with
  | nil => exact h
  | cons b bs ih =>
    simp only [List.length_cons] at hn
    refine ih (by omega) ?_
    intro c hc
    rcases Store.mem_set hc with rfl | hc
    · show a < n; omega
    · exact h c hc

theorem State.writeOut_wf {s : State} (a : Nat) (b : Byte) (h : Memory.wf s.outBuf = true) :
    Memory.wf (s.writeOut a b).outBuf = true := Store.wf_set _ _ h

theorem State.writeIn_wf {s : State} (a : Nat) (b : Byte) (h : Memory.wf s.inBuf = true) :
    Memory.wf (s.writeIn a b).inBuf = true := Store.wf_set _ _ h

theorem State.reset_memory_wf : Memory.wf State.reset.inBuf = true ∧ Memory.wf State.reset.outBuf = true := ⟨rfl, rfl⟩

/-! ### The table (R151, R153, R164) -/

theorem widthAfter_eq {t : BitVec 13} {cw : BitVec 4} (h : t.toNat + 1 ≤ 4096) (hc : cw.toNat = widthFor t.toNat) :
    (widthAfter (t + 1) cw).toNat = widthFor (t.toNat + 1) := by
  have ht : (t + 1).toNat = t.toNat + 1 := by simp [BitVec.toNat_add]; omega
  simp only [widthAfter, ht]
  simp only [widthFor] at hc ⊢
  split
  · simp [‹t.toNat + 1 = 511›]
  · split
    · simp [‹t.toNat + 1 = 1023›]
    · split
      · simp [‹t.toNat + 1 = 2047›]
      · rw [hc]; split <;> split <;> (try split) <;> (try split) <;> (try split) <;> (try split) <;> omega

/-- R153: an addition that has room. -/
theorem State.addEntry_of_lt {s : State} (str : Bytes) (h : s.lzw.tsize.toNat < 4096) :
    ∃ z, s.addEntry str = some { s with lzw := z } ∧ z.prev = s.lzw.prev ∧ z.tsize = s.lzw.tsize + 1 ∧
      z.cw = widthAfter (s.lzw.tsize + 1) s.lzw.cw ∧ z.dict = Store.set s.lzw.dict s.lzw.tsize.toNat str := by
  simp only [State.addEntry, if_neg (show ¬ s.lzw.tsize.toNat = 4096 by omega)]
  exact ⟨_, rfl, rfl, rfl, rfl, rfl⟩

/-- R153: a full table. -/
theorem State.addEntry_full {s : State} (str : Bytes) (h : s.lzw.tsize.toNat = 4096) : s.addEntry str = none := by
  simp [State.addEntry, h]

/-- R159 to R161 with room in the table. -/
theorem State.emitAndAdd_of_lt {s : State} (str entry : Bytes) (h : s.lzw.tsize.toNat < 4096) :
    ∃ y, s.lzw.Added str entry y ∧ s.emitAndAdd str entry = { s.emitAll str with lzw := y } := by
  have ht : (s.lzw.tsize + 1).toNat = s.lzw.tsize.toNat + 1 := by simp [BitVec.toNat_add]; omega
  simp only [State.emitAndAdd, State.addEntry, State.emitAll_lzw, if_neg (show ¬ s.lzw.tsize.toNat = 4096 by omega),
    State.setPrev]
  refine ⟨_, ⟨ht, ?_, rfl, ?_⟩, rfl⟩
  · simp only [widthAfter, ht]
  · intro k; exact Store.get?_set _ _ _ _

/-- R153: with a full table the string is emitted and the addition fatal. -/
theorem State.emitAndAdd_full {s : State} (str entry : Bytes) (h : s.lzw.tsize.toNat = 4096) :
    s.emitAndAdd str entry = (s.emitAll str).fatal .lzwTableFull := by
  simp [State.emitAndAdd, State.addEntry, h]

/-! ### Input (R58, R59, R83, R152) -/

theorem State.inBits_length (s : State) (p n : Nat) : (s.inBits p n).length = n := by
  induction n generalizing p with
  | zero => rfl
  | succ n ih => simp [State.inBits, ih]

/-- R83: a code is the sum of its bits. -/
theorem codeValue_append (xs ys : List Bool) :
    codeValue (xs ++ ys) = codeValue xs * 2 ^ ys.length + codeValue ys := by
  have key : ∀ (ys : List Bool) (v : Nat),
      ys.foldl (fun v b => 2 * v + b.toNat) v = v * 2 ^ ys.length + ys.foldl (fun v b => 2 * v + b.toNat) 0 := by
    intro ys
    induction ys with
    | nil => simp
    | cons b ys ih =>
      intro v
      simp only [List.foldl_cons, List.length_cons]
      rw [ih (2 * v + b.toNat), ih (2 * 0 + b.toNat)]
      ring
  simp only [codeValue, List.foldl_append]
  exact key ys _

theorem codeValue_lt (bits : List Bool) : codeValue bits < 2 ^ bits.length := by
  induction bits with
  | nil => simp [codeValue]
  | cons b bits ih =>
    have h := codeValue_append [b] bits
    simp only [List.cons_append, List.nil_append] at h
    rw [h, List.length_cons, pow_succ]
    have : codeValue [b] ≤ 1 := by cases b <;> simp [codeValue]
    nlinarith [Nat.two_pow_pos bits.length]

/-- R83, R152: the value of the next `n` bits. -/
theorem State.codeValue_inBits (s : State) (p n : Nat) :
    codeValue (s.inBits p n) = ∑ k ∈ Finset.range n, (s.inBit (p + k)).toNat * 2 ^ (n - 1 - k) := by
  induction n generalizing p with
  | zero => rfl
  | succ n ih =>
    have h := codeValue_append [s.inBit p] (s.inBits (p + 1) n)
    simp only [List.cons_append, List.nil_append] at h
    rw [State.inBits, h, ih, Finset.sum_range_succ', add_comm, State.inBits_length]
    congr 1
    · apply Finset.sum_congr rfl
      intro k hk
      rw [Finset.mem_range] at hk
      rw [show p + 1 + k = p + (k + 1) by omega, show n + 1 - 1 - (k + 1) = n - 1 - k by omega]
    · simp [codeValue]

/-- R58: `bitrev8`, bit by bit. -/
theorem bitrev8_getLsbD (u : Byte) (k : Nat) (h : k < 8) : (bitrev8 u).getLsbD k = u.getLsbD (7 - k) := by
  have : k = 0 ∨ k = 1 ∨ k = 2 ∨ k = 3 ∨ k = 4 ∨ k = 5 ∨ k = 6 ∨ k = 7 := by omega
  simp only [bitrev8, BitVec.getLsbD_ofBoolListBE]
  rcases this with rfl | rfl | rfl | rfl | rfl | rfl | rfl | rfl <;> simp

/-- R41: entries 0 to 255 are the single bytes. -/
theorem State.entry_byte (s : State) (c : Byte) : s.entry c.toNat = [c] := by
  have := c.isLt
  simp [State.entry, this]

theorem bitsOf_length (n v : Nat) : (bitsOf n v).length = n := by
  induction n with
  | zero => rfl
  | succ n ih => simp [bitsOf, ih]

/-- R92: the bits of a code, read as R83 reads them. -/
theorem codeValue_bitsOf (n v : Nat) : codeValue (bitsOf n v) = v % 2 ^ n := by
  induction n with
  | zero => simp [bitsOf, codeValue, Nat.mod_one]
  | succ n ih =>
    have h := codeValue_append [v.testBit n] (bitsOf n v)
    simp only [List.cons_append, List.nil_append] at h
    rw [bitsOf, h, ih, bitsOf_length]
    have h1 : codeValue [v.testBit n] = (v.testBit n).toNat := by simp [codeValue]
    rw [h1, Nat.testBit_eq_decide_div_mod_eq, Nat.mod_pow_succ]
    rcases (show v / 2 ^ n % 2 = 0 ∨ v / 2 ^ n % 2 = 1 by omega) with h2 | h2 <;> simp [h2]
    omega

/-! ### Items run as the instructions they decode to -/

theorem exec_record (r : Record) (s : State) : exec r.instr s = runRecord r s := by cases r <;> rfl

theorem exec_code (k : CodeClass) (s : State) : exec k.instr s = runCode k s := by cases k <;> rfl

theorem exec_rowOp (op : RowOp) (s : State) : exec op.instr s = runRow op s := by cases op <;> rfl

/-! ### Bytes of OUT as numbers (R61, R62) -/

theorem bigEndianValue_append (xs ys : Bytes) :
    bigEndianValue (xs ++ ys) = bigEndianValue xs * 256 ^ ys.length + bigEndianValue ys := by
  have key : ∀ (ys : Bytes) (v : Nat), ys.foldl (fun v b => 256 * v + b.toNat) v =
      v * 256 ^ ys.length + ys.foldl (fun v b => 256 * v + b.toNat) 0 := by
    intro ys
    induction ys with
    | nil => simp
    | cons b ys ih =>
      intro v
      simp only [List.foldl_cons, List.length_cons]
      rw [ih (256 * v + b.toNat), ih (256 * 0 + b.toNat)]
      ring
  simp only [bigEndianValue, List.foldl_append]
  exact key ys _

theorem bigEndianBytes_length (n v : Nat) : (bigEndianBytes n v).length = n := by
  induction n with
  | zero => rfl
  | succ n ih => simp [bigEndianBytes, ih]

theorem bigEndianValue_bytes (n v : Nat) : bigEndianValue (bigEndianBytes n v) = v % 256 ^ n := by
  induction n with
  | zero => simp [bigEndianBytes, bigEndianValue, Nat.mod_one]
  | succ n ih =>
    have h := bigEndianValue_append [BitVec.ofNat 8 (v / 256 ^ n)] (bigEndianBytes n v)
    simp only [List.cons_append, List.nil_append] at h
    rw [bigEndianBytes, h, ih, bigEndianBytes_length, Nat.mod_pow_succ]
    simp [bigEndianValue]
    ring

end Sys2Proof.Machine
end

