-- ==== Sys2Proof/Laws/Lzw.lean ====
section
/-! SUPPORT. What the operations of the LZW unit keep of the dictionary (R41, R42, R164). -/

namespace Sys2Proof.Machine

theorem LzwRegs.Ok.ofReset : LzwRegs.reset.Ok where
  low := by decide
  high := by decide
  width := by decide
  keys := by decide
  entries := by intro e he; cases he
  prevLength := by intro p hp; cases hp

/-- R151. -/
theorem LzwRegs.Ok.cleared {z : LzwRegs} (h : z.Ok) : z.cleared.Ok where
  low := by simp [LzwRegs.cleared]
  high := by simp [LzwRegs.cleared]
  width := by simp [LzwRegs.cleared, widthFor]
  keys := by simp [LzwRegs.cleared]
  entries := by simp [LzwRegs.cleared]
  prevLength := h.prevLength

/-- A new PREV of a legal length. -/
theorem LzwRegs.Ok.withPrev {z : LzwRegs} (h : z.Ok) (str : Bytes) (h1 : 1 ≤ str.length) (h2 : str.length ≤ 3839) :
    ({ z with prev := some str } : LzwRegs).Ok where
  low := h.low
  high := h.high
  width := h.width
  keys := h.keys
  entries := h.entries
  prevLength := by intro p hp; cases hp; exact ⟨h1, h2⟩

/-- The keys of the dictionary are below TSIZE. -/
theorem LzwRegs.Ok.key_lt {z : LzwRegs} (h : z.Ok) {c : Nat × Bytes} (hc : c ∈ z.dict) :
    258 ≤ c.1 ∧ c.1 < z.tsize.toNat := by
  have := List.mem_map_of_mem (f := Prod.fst) hc
  rw [h.keys, List.mem_range'_1] at this
  have := h.low
  omega

theorem Store.wf_of_keys {α : Type} {m : Store α} {b n : Nat} (h : m.map Prod.fst = List.range' b n) :
    Store.wf m = true := by
  have key : ∀ (m : Store α) (b n : Nat), m.map Prod.fst = List.range' (b + 1) n → Store.above b m = true := by
    intro m
    induction m with
    | nil => intros; rfl
    | cons x m ih =>
      intro b n h
      cases n with
      | zero => simp at h
      | succ n =>
        simp only [List.map_cons, List.range'_succ, List.cons.injEq] at h
        obtain ⟨h1, h2⟩ := h
        obtain ⟨k, v⟩ := x
        simp only at h1
        subst h1
        simp only [Store.above, Bool.and_eq_true, decide_eq_true_eq]
        exact ⟨by omega, ih _ _ h2⟩
  cases m with
  | nil => rfl
  | cons x m =>
    cases n with
    | zero => simp at h
    | succ n =>
      simp only [List.map_cons, List.range'_succ, List.cons.injEq] at h
      obtain ⟨k, v⟩ := x
      simp only at h
      obtain ⟨rfl, h2⟩ := h
      exact key m k n h2

/-- R41, R42: a code from 258 to TSIZE - 1 has an entry of 2 to `k - 256` bytes. -/
theorem LzwRegs.Ok.entry {z : LzwRegs} (h : z.Ok) {k : Nat} (h1 : 258 ≤ k) (h2 : k < z.tsize.toNat) :
    ∃ str, Store.get? z.dict k = some str ∧ (k, str) ∈ z.dict ∧ 2 ≤ str.length ∧ str.length ≤ k - 256 := by
  have hk : k ∈ z.dict.map Prod.fst := by rw [h.keys, List.mem_range'_1]; omega
  obtain ⟨⟨k', str⟩, hm, rfl⟩ := List.mem_map.mp hk
  obtain ⟨h3, h4, -⟩ := h.entries _ hm
  exact ⟨str, Store.get?_of_mem (Store.wf_of_keys h.keys) hm, hm, h3, h4⟩

/-- The dictionary after an addition. -/
theorem LzwRegs.Ok.set_dict {z : LzwRegs} (h : z.Ok) (str : Bytes) :
    Store.set z.dict z.tsize.toNat str = z.dict ++ [(z.tsize.toNat, str)] :=
  Store.set_append str fun _ hc => (h.key_lt hc).2

/-- R42, R153, R164: the addition of `p ++ [x]`, for a dictionary string `p` shorter than TSIZE - 256, and a new PREV. -/
theorem LzwRegs.Ok.added {z : LzwRegs} (h : z.Ok) {p : Bytes} (x : Byte) (str : Bytes) (ht : z.tsize.toNat < 4096)
    (hp : z.holds p) (h1 : 1 ≤ p.length) (h2 : p.length ≤ z.tsize.toNat - 257) (h3 : 1 ≤ str.length)
    (h4 : str.length ≤ 3839) :
    ({ dict := Store.set z.dict z.tsize.toNat (p ++ [x]), tsize := z.tsize + 1, cw := widthAfter (z.tsize + 1) z.cw,
       prev := some str } : LzwRegs).Ok := by
  have hlow := h.low
  have ht1 : (z.tsize + 1).toNat = z.tsize.toNat + 1 := by simp [BitVec.toNat_add]; omega
  have hold : ∀ q, z.holds q → LzwRegs.holds
      { dict := Store.set z.dict z.tsize.toNat (p ++ [x]), tsize := z.tsize + 1,
        cw := widthAfter (z.tsize + 1) z.cw, prev := some str } q := by
    rintro q (hq | hq)
    · exact .inl hq
    · refine .inr ?_
      rw [h.set_dict]
      simp only [List.map_append, List.mem_append]
      exact .inl hq
  refine ⟨?_, ?_, ?_, ?_, ?_, ?_⟩
  · rw [ht1]; omega
  · rw [ht1]; omega
  · rw [widthAfter_eq (by omega) h.width, ht1]
  · rw [h.set_dict, List.map_append, h.keys, ht1]
    simp only [List.map_cons, List.map_nil]
    rw [show z.tsize.toNat + 1 - 258 = (z.tsize.toNat - 258) + 1 by omega, List.range'_concat,
      show 258 + 1 * (z.tsize.toNat - 258) = z.tsize.toNat by omega]
  · intro e he
    rw [h.set_dict, List.mem_append] at he
    rcases he with he | he
    · obtain ⟨a, b, c⟩ := h.entries e he
      exact ⟨a, b, hold _ c⟩
    · simp only [List.mem_singleton] at he
      subst he
      refine ⟨by simp; omega, by simp; omega, ?_⟩
      simp only [List.dropLast_concat]
      exact hold _ hp
  · intro q hq; cases hq; exact ⟨h3, h4⟩

/-- R84, R152: a code of CW bits has at most 12 bits. -/
theorem LzwRegs.Ok.cw_le {z : LzwRegs} (h : z.Ok) : 9 ≤ z.cw.toNat ∧ z.cw.toNat ≤ 12 := by
  rw [h.width]; simp only [widthFor]; split <;> (try split) <;> (try split) <;> omega

/-- R164: a code below TSIZE, or equal to it while the table has room, fits in CW bits. -/
theorem lt_two_pow_widthFor {t : Nat} (h : t < 4096) : t < 2 ^ widthFor t := by
  simp only [widthFor]
  split
  · norm_num; omega
  · split
    · norm_num; omega
    · split
      · norm_num; omega
      · norm_num; omega

end Sys2Proof.Machine
end

