-- ==== Sys2Proof/Laws/PerInstr.lean ====
section
/-! SUPPORT. The statements made per instruction: the format of spec/30_encoding.md R80 an instruction is encoded in. -/

namespace Sys2Proof.Laws

/-- The formats of R80 that carry an instruction, and the register write of a host command (R93). -/
inductive Format where
  | operation
  | hostCommand
  | record
  | code
  | subOperation
deriving DecidableEq, Repr

/-- The format of an encoded item. -/
def formatOf : Encoded → Format
  | .operation _ => .operation
  | .hostWrite _ _ => .hostCommand
  | .packBits _ => .record
  | .lzw _ _ => .code
  | .predictor _ _ => .subOperation

/-- The format column of spec/opcode_table.json. -/
def tableFormatOf : Instr → Format
  | .opExternalNone => .operation
  | .opExternalHpred => .operation
  | .opExternalFpred => .operation
  | .opPackbits => .operation
  | .opLzw => .operation
  | .opLzwHpred => .operation
  | .start _ => .hostCommand
  | .srst _ _ => .hostCommand
  | .doneAck => .hostCommand
  | .configWrite _ _ => .hostCommand
  | .pbNop => .record
  | .pbLiteral _ => .record
  | .pbReplicate _ => .record
  | .lzwClear => .code
  | .lzwEnd => .code
  | .lzwFirst _ => .code
  | .lzwLiteral _ => .code
  | .lzwTable _ => .code
  | .lzwPending => .code
  | .lzwInvalid _ => .code
  | .lzwNoClear _ => .code
  | .lzwImplicitEnd => .code
  | .hpred8 => .subOperation
  | .hpred16 => .subOperation
  | .hpred32 => .subOperation
  | .fpred16 => .subOperation
  | .fpred24 => .subOperation
  | .fpred32 => .subOperation
  | .fpred64 => .subOperation

/-- An instruction is encoded in the format its row of the table has, in every context. -/
def EncodesInFormat.Statement (i : Instr) : Prop := ∀ ctx, formatOf (encode ctx i) = tableFormatOf i

theorem EncodesInFormat.opExternalNone : EncodesInFormat.Statement .opExternalNone := fun _ => rfl

theorem EncodesInFormat.opExternalHpred : EncodesInFormat.Statement .opExternalHpred := fun _ => rfl

theorem EncodesInFormat.opExternalFpred : EncodesInFormat.Statement .opExternalFpred := fun _ => rfl

theorem EncodesInFormat.opPackbits : EncodesInFormat.Statement .opPackbits := fun _ => rfl

theorem EncodesInFormat.opLzw : EncodesInFormat.Statement .opLzw := fun _ => rfl

theorem EncodesInFormat.opLzwHpred : EncodesInFormat.Statement .opLzwHpred := fun _ => rfl

theorem EncodesInFormat.start (irqEn : Bool) : EncodesInFormat.Statement (.start irqEn) := fun _ => rfl

theorem EncodesInFormat.srst (startBit irqEn : Bool) : EncodesInFormat.Statement (.srst startBit irqEn) := fun _ => rfl

theorem EncodesInFormat.doneAck : EncodesInFormat.Statement .doneAck := fun _ => rfl

theorem EncodesInFormat.configWrite (reg : CfgReg) (data : Word) : EncodesInFormat.Statement (.configWrite reg data) := fun _ => rfl

theorem EncodesInFormat.pbNop : EncodesInFormat.Statement .pbNop := fun _ => rfl

theorem EncodesInFormat.pbLiteral (c : BitVec 7) : EncodesInFormat.Statement (.pbLiteral c) := fun _ => rfl

theorem EncodesInFormat.pbReplicate (u : Byte) : EncodesInFormat.Statement (.pbReplicate u) := fun _ => rfl

theorem EncodesInFormat.lzwClear : EncodesInFormat.Statement .lzwClear := fun _ => rfl

theorem EncodesInFormat.lzwEnd : EncodesInFormat.Statement .lzwEnd := fun _ => rfl

theorem EncodesInFormat.lzwFirst (c : Byte) : EncodesInFormat.Statement (.lzwFirst c) := fun _ => rfl

theorem EncodesInFormat.lzwLiteral (c : Byte) : EncodesInFormat.Statement (.lzwLiteral c) := fun _ => rfl

theorem EncodesInFormat.lzwTable (c : BitVec 12) : EncodesInFormat.Statement (.lzwTable c) := fun _ => rfl

theorem EncodesInFormat.lzwPending : EncodesInFormat.Statement .lzwPending := fun _ => rfl

theorem EncodesInFormat.lzwInvalid (c : BitVec 12) : EncodesInFormat.Statement (.lzwInvalid c) := fun _ => rfl

theorem EncodesInFormat.lzwNoClear (c : BitVec 12) : EncodesInFormat.Statement (.lzwNoClear c) := fun _ => rfl

theorem EncodesInFormat.lzwImplicitEnd : EncodesInFormat.Statement .lzwImplicitEnd := fun _ => rfl

theorem EncodesInFormat.hpred8 : EncodesInFormat.Statement .hpred8 := fun _ => rfl

theorem EncodesInFormat.hpred16 : EncodesInFormat.Statement .hpred16 := fun _ => rfl

theorem EncodesInFormat.hpred32 : EncodesInFormat.Statement .hpred32 := fun _ => rfl

theorem EncodesInFormat.fpred16 : EncodesInFormat.Statement .fpred16 := fun _ => rfl

theorem EncodesInFormat.fpred24 : EncodesInFormat.Statement .fpred24 := fun _ => rfl

theorem EncodesInFormat.fpred32 : EncodesInFormat.Statement .fpred32 := fun _ => rfl

theorem EncodesInFormat.fpred64 : EncodesInFormat.Statement .fpred64 := fun _ => rfl

end Sys2Proof.Laws
end

