-- ==== Sys2Proof/Laws/Predictor.lean ====
section
/-! SUPPORT. What the predictor's reads and writes of OUT can do: frames, and the canonical form of OUT kept (R61, R62,
R181). -/

namespace Sys2Proof.Machine

theorem State.outBytes_append (s : State) (a n m : Nat) :
    s.outBytes a (n + m) = s.outBytes a n ++ s.outBytes (a + n) m := by
  induction n generalizing a with
  | zero => simp [State.outBytes]
  | succ n ih =>
    rw [show n + 1 + m = (n + m) + 1 by omega, State.outBytes, ih, State.outBytes]
    simp [show a + 1 + n = a + (n + 1) by omega]

theorem State.outBytes_congr {s t : State} (a n : Nat) (h : ∀ i < n, t.readOut (a + i) = s.readOut (a + i)) :
    t.outBytes a n = s.outBytes a n := by
  induction n generalizing a with
  | zero => rfl
  | succ n ih =>
    rw [State.outBytes, State.outBytes, ih (a + 1) fun i hi => by
      rw [show a + 1 + i = a + (i + 1) by omega]; exact h (i + 1) (by omega)]
    congr 1
    simpa using h 0 (by omega)

/-- A sample read depends on its own bytes and the byte order alone. -/
theorem State.outRead_congr {s t : State} (a n : Nat) (h : ∀ i < n, t.readOut (a + i) = s.readOut (a + i))
    (hc : t.config = s.config) : t.outRead a n = s.outRead a n := by
  have hl : t.littleEndian = s.littleEndian := by simp only [State.littleEndian, hc]
  rw [State.outRead, State.outRead, hl, State.outBytes_congr a n h]

/-- Reading back a byte string just written. -/
theorem State.outBytes_writeBytes (s : State) (a : Nat) (l : Bytes) : (s.writeBytes a l).outBytes a l.length = l := by
  apply List.ext_getElem?
  intro i
  by_cases hi : i < l.length
  · rw [State.outBytes_getElem? _ a _ i hi, State.readOut_writeBytes, if_pos (by omega)]
    simp [hi]
  · rw [List.getElem?_eq_none (by rw [State.outBytes_length]; omega), List.getElem?_eq_none (by omega)]

/-- Writing bytes of OUT changes nothing but OUT. -/
theorem State.writeBytes_frame (s : State) (a : Nat) (l : Bytes) :
    s.writeBytes a l = { s with outBuf := (s.writeBytes a l).outBuf } := by
  induction l generalizing a s with
  | nil => rfl
  | cons b l ih => rw [State.writeBytes, ih]; rfl

/-- HPRED_ROW changes nothing but OUT. -/
theorem hpredLoop_frame (b base k i : Nat) (s : State) :
    hpredLoop b base k i s = { s with outBuf := (hpredLoop b base k i s).outBuf } := by
  induction k generalizing i s with
  | zero => rfl
  | succ k ih => rw [hpredLoop, ih, State.outWrite, State.writeBytes_frame]

/-- HPRED_ROW keeps the canonical form and lists no address above the row. -/
theorem hpredLoop_wf {b base n k i : Nat} {s : State} (hb : base + (i + k) * b ≤ n) (h : Memory.wf s.outBuf = true)
    (h2 : ∀ c ∈ s.outBuf, c.1 < n) :
    Memory.wf (hpredLoop b base k i s).outBuf = true ∧ ∀ c ∈ (hpredLoop b base k i s).outBuf, c.1 < n := by
  induction k generalizing i s with
  | zero => exact ⟨h, h2⟩
  | succ k ih =>
    have e : (i + 1 + k) * b = (i + (k + 1)) * b := by ring
    have hle : (i + 1) * b ≤ (i + (k + 1)) * b := Nat.mul_le_mul_right _ (by omega)
    have hmul : (i + 1) * b = i * b + b := by ring
    apply ih
    · rw [e]; exact hb
    · exact State.writeBytes_wf _ h
    · apply State.writeBytes_bound _ h2
      split
      · rw [List.length_reverse, bigEndianBytes_length]; omega
      · rw [bigEndianBytes_length]; omega

/-- R181, R182 to R184: reversing row `r` keeps the canonical form of OUT, below any bound the row is below. -/
theorem hpredRow_wf {b r n : Nat} {s : State} (hb : (r + 1) * (s.samplesPerRow * b) ≤ n)
    (h : Memory.wf s.outBuf = true) (h2 : ∀ c ∈ s.outBuf, c.1 < n) :
    Memory.wf (hpredRow b (s.rowBase b r) s).outBuf = true ∧
      ∀ c ∈ (hpredRow b (s.rowBase b r) s).outBuf, c.1 < n := by
  by_cases hle : s.config.spp.toNat ≤ s.samplesPerRow
  · refine hpredLoop_wf ?_ h h2
    rw [show s.config.spp.toNat + (s.samplesPerRow - s.config.spp.toNat) = s.samplesPerRow by omega, State.rowBase]
    calc r * (s.samplesPerRow * b) + s.samplesPerRow * b = (r + 1) * (s.samplesPerRow * b) := by ring
      _ ≤ n := hb
  · have he : hpredRow b (s.rowBase b r) s = s := by
      rw [hpredRow, show s.samplesPerRow - s.config.spp.toNat = 0 by omega]; rfl
    rw [he]
    exact ⟨h, h2⟩

/-- R185: as `hpredRow_wf`, for the floating-point row. -/
theorem fpredRow_wf {b r n : Nat} {s : State} (hb : (r + 1) * (s.samplesPerRow * b) ≤ n)
    (h : Memory.wf s.outBuf = true) (h2 : ∀ c ∈ s.outBuf, c.1 < n) :
    Memory.wf (fpredRow b (s.rowBase b r) s).outBuf = true ∧
      ∀ c ∈ (fpredRow b (s.rowBase b r) s).outBuf, c.1 < n := by
  refine ⟨State.writeBytes_wf _ h, State.writeBytes_bound ?_ h2⟩
  simp only [regroup, List.length_map, List.length_range, State.rowBase]
  calc r * (s.samplesPerRow * b) + s.samplesPerRow * b = (r + 1) * (s.samplesPerRow * b) := by ring
    _ ≤ n := hb

/-- R180: with the depths of all samples equal, OUT_LEN's exact value is ROWS rows of n samples of B bytes. -/
theorem State.outLenExact_uniform {s : State} (hu : s.uniformBps = true) {b : Nat} (hb : (s.bps 0).toNat = 8 * b) :
    s.outLenExact = s.config.rows.toNat * (s.samplesPerRow * b) := by
  have h1 : s.bitsPerPixel = s.config.spp.toNat * (8 * b) := by
    have h2 : (List.range s.config.spp.toNat).map (fun i => (s.bps i).toNat) =
        (List.range s.config.spp.toNat).map (fun _ => 8 * b) := by
      apply List.map_congr_left
      intro i hi
      simp only [State.uniformBps, List.all_eq_true, beq_iff_eq] at hu
      rw [hu i hi, hb]
    rw [State.bitsPerPixel, h2]
    simp
  have h3 : s.config.spp.toNat * (8 * b) * s.config.width.toNat =
      8 * (s.config.width.toNat * s.config.spp.toNat * b) := by ring
  rw [State.outLenExact, State.bytesPerRow, h1, State.samplesPerRow, h3,
    show (8 * (s.config.width.toNat * s.config.spp.toNat * b) + 7) / 8 =
      s.config.width.toNat * s.config.spp.toNat * b by omega]
  ring

end Sys2Proof.Machine
end

