-- ==== Sys2Proof/Tests/Slice0.lean ====
section
/-! SUPPORT. The tests of the model: the checks of WellFormed, a word of every row of the opcode table, at most two steps
per instruction with values of spec/95_test_vectors.md and of the rules' examples, and for every statement with hypotheses
a state and operands that meet them. -/

namespace Sys2Proof.Tests

open Sys2Proof Sys2Proof.Machine

/-! ### WellFormed: each check refuses an ill-formed term (R82, R84) -/

theorem test_wf_replicate_low : (Instr.pbReplicate 0x7F#8).wellFormed = false := by decide
theorem test_wf_replicate_nop : (Instr.pbReplicate 0x80#8).wellFormed = false := by decide
theorem test_wf_replicate_least : (Instr.pbReplicate 0x81#8).wellFormed = true := by decide
theorem test_wf_table_end : (Instr.lzwTable 257#12).wellFormed = false := by decide
theorem test_wf_table_least : (Instr.lzwTable 258#12).wellFormed = true := by decide
theorem test_wf_invalid_byte : (Instr.lzwInvalid 255#12).wellFormed = false := by decide
theorem test_wf_invalid_end : (Instr.lzwInvalid 257#12).wellFormed = false := by decide
theorem test_wf_noClear_clear : (Instr.lzwNoClear 256#12).wellFormed = false := by decide
theorem test_wf_noClear_end : (Instr.lzwNoClear 257#12).wellFormed = false := by decide

/-! ### Decoding: a word of every row, written from R81, R25 to R27, R82, R84, R87 -/

theorem test_decode_opExternalNone : decode (.operation 0b00_0000_0000#32) = .ok .opExternalNone := by decide
theorem test_decode_opExternalHpred : decode (.operation 0b01_0001_0000#32) = .ok .opExternalHpred := by decide
theorem test_decode_opExternalFpred : decode (.operation 0b00_0010_0000#32) = .ok .opExternalFpred := by decide
theorem test_decode_opPackbits : decode (.operation 0b10_0000_0001#32) = .ok .opPackbits := by decide
theorem test_decode_opLzw : decode (.operation 0b00_0000_0010#32) = .ok .opLzw := by decide
theorem test_decode_opLzwHpred : decode (.operation 0b01_0001_0010#32) = .ok .opLzwHpred := by decide
theorem test_decode_pred3 : decode (.operation 0b11_0000#32) = .error .illegalPredictor := by decide
theorem test_decode_comp7 : decode (.operation 0b111#32) = .error .unsupportedCompression := by decide
theorem test_decode_start : decode (.hostWrite 0 0b101#32) = .ok (.start true) := by decide
theorem test_decode_srst : decode (.hostWrite 0 0b011#32) = .ok (.srst true false) := by decide
theorem test_decode_doneAck : decode (.hostWrite 1 0b10#32) = .ok .doneAck := by decide
theorem test_decode_statusOther : decode (.hostWrite 1 0xFFFFFFFD#32) = .error .noCommand := by decide
theorem test_decode_width : decode (.hostWrite 3 10#32) = .ok (.configWrite .width 10#32) := by decide
theorem test_decode_sdesc15 : decode (.hostWrite 31 8#32) = .ok (.configWrite (.sdesc 15) 8#32) := by decide
theorem test_decode_pbNop : decode (.packBits 0b1000_0000#8) = .ok .pbNop := by decide
theorem test_decode_pbLiteral : decode (.packBits 0b0111_1111#8) = .ok (.pbLiteral 127#7) := by decide
theorem test_decode_pbReplicate : decode (.packBits 0b1000_0001#8) = .ok (.pbReplicate 0x81#8) := by decide

/-- A code of nine bits after two additions, with a previous string. -/
def nine : LzwContext := { cw := 9, tsize := 260, prevSet := true, afterClear := false }

theorem test_decode_lzwClear :
    decode (.lzw nine [true, false, false, false, false, false, false, false, false]) = .ok .lzwClear := by decide
theorem test_decode_lzwEnd :
    decode (.lzw nine [true, false, false, false, false, false, false, false, true]) = .ok .lzwEnd := by decide
theorem test_decode_lzwLiteral :
    decode (.lzw nine [false, false, true, false, false, false, false, false, true]) = .ok (.lzwLiteral 0x41#8) := by
  decide
theorem test_decode_lzwTable :
    decode (.lzw nine [true, false, false, false, false, false, false, true, false]) = .ok (.lzwTable 258#12) := by decide
theorem test_decode_lzwPending :
    decode (.lzw nine [true, false, false, false, false, false, true, false, false]) = .ok .lzwPending := by decide
theorem test_decode_lzwInvalid :
    decode (.lzw nine [true, false, false, true, false, true, true, false, false]) = .ok (.lzwInvalid 300#12) := by decide
theorem test_decode_lzwNoClear : decode (.lzw { nine with tsize := 258, prevSet := false }
    [false, false, true, false, false, false, false, false, true]) = .ok (.lzwNoClear 0x41#12) := by decide
theorem test_decode_lzwFirst : decode (.lzw { nine with tsize := 258, afterClear := true }
    [false, false, true, false, false, false, false, false, true]) = .ok (.lzwFirst 0x41#8) := by decide
theorem test_decode_lzwClearClear : decode (.lzw { nine with tsize := 258, afterClear := true }
    [true, false, false, false, false, false, false, false, false]) = .ok (.lzwInvalid 256#12) := by decide
theorem test_decode_lzwImplicitEnd :
    decode (.lzw nine [true, false, false, false, false, false, false, false]) = .ok .lzwImplicitEnd := by decide
theorem test_decode_hpred8 : decode (.predictor 1 8#8) = .ok .hpred8 := by decide
theorem test_decode_hpred16 : decode (.predictor 1 16#8) = .ok .hpred16 := by decide
theorem test_decode_hpred32 : decode (.predictor 1 32#8) = .ok .hpred32 := by decide
theorem test_decode_fpred16 : decode (.predictor 2 16#8) = .ok .fpred16 := by decide
theorem test_decode_fpred24 : decode (.predictor 2 24#8) = .ok .fpred24 := by decide
theorem test_decode_fpred32 : decode (.predictor 2 32#8) = .ok .fpred32 := by decide
theorem test_decode_fpred64 : decode (.predictor 2 64#8) = .ok .fpred64 := by decide
theorem test_decode_hpred24 : decode (.predictor 1 24#8) = .error .noSubOperation := by decide

/-! ### Small states -/

/-- A buffer that holds the given bytes from address 0 on. -/
def bytesAt (bs : List Nat) : Memory := bs.zipIdx.map fun p => (p.2, BitVec.ofNat 8 p.1)

/-- An operation just begun: one row of `width` samples of one byte. -/
def running (mode : Word) (width : BitVec 16) (input : List Nat) : State :=
  { State.reset with
    status := Status.started
    config := { ConfigRegs.reset with mode := mode, width := width, rows := 1, inLen := BitVec.ofNat 32 input.length }
    inBuf := bytesAt input
    phase := .decode
    trail := [{ cursor := 0, outPos := 0, lzwState := 0x00090102#32, status := 1 }] }

/-- An operation whose only row is due: `spp` samples a pixel, each with the descriptor `desc`. -/
def rowDue (mode : Word) (spp : BitVec 8) (width : BitVec 16) (desc : Word) (output : List Nat) : State :=
  { running mode width [] with
    config := { ConfigRegs.reset with
      mode := mode, width := width, rows := 1, spp := spp, sdesc := Vector.replicate 16 desc }
    outBuf := bytesAt output
    phase := .predict 0 }

/-- An LZW decode with a dictionary, a previous string and room for 100 bytes. -/
def decoding (tsize : BitVec 13) (prev : Option Bytes) (dict : Store Bytes) : State :=
  { running 2 100 [] with lzw := { tsize := tsize, cw := 9, prev := prev, dict := dict } }

/-- The next state, if there is one. -/
def nextOf (o : Host.Outcome State Fault Refusal) : Option State :=
  match o with
  | .next t => some t
  | .fault _ => none
  | .refused _ => none

/-- What a test looks at: the bytes OUT lists, CURSOR, OUT_POS and the STATUS word. -/
def view (o : Host.Outcome State Fault Refusal) : Option (Memory × Nat × Nat × Nat) :=
  (nextOf o).map fun t => (t.outBuf, t.cursor.toNat, t.outPos.toNat, t.status.word.toNat)

/-- The LZW datapath and the next step. -/
def lzwView (o : Host.Outcome State Fault Refusal) : Option (LzwRegs × Phase) := (nextOf o).map fun t => (t.lzw, t.phase)

/-! ### Steps of the operations (95_test_vectors.md sections 1 to 3) -/

/-- R111: START right after reset, then the finish step: STATUS = 0x00000002. -/
theorem test_opExternalNone : ((nextOf (exec (.start false) State.reset)).bind fun t => nextOf (exec .opExternalNone t)).map
    (fun t => t.registerWord 1) = some 0x00000002#32 := by decide

/-- Section 1.3. -/
theorem test_opExternalHpred :
    view (exec .opExternalHpred (rowDue 0x10 3 3 8 [0x0A, 0x14, 0x1E, 0x05, 0x05, 0x05, 0x01, 0x01, 0x01])) =
      some (bytesAt [0x0A, 0x14, 0x1E, 0x0F, 0x19, 0x23, 0x10, 0x1A, 0x24], 0, 0, 1) := by decide

/-- P4. -/
theorem test_opExternalFpred :
    view (exec .opExternalFpred (rowDue 0x20 1 2 0x220 [0x3F, 0x81, 0xC0, 0xA0, 0xE0, 0, 0, 0])) =
      some (bytesAt [0x3F, 0x80, 0, 0, 0xC0, 0x20, 0, 0], 0, 0, 1) := by decide

/-- P1, step 1. -/
theorem test_opPackbits :
    view (exec .opPackbits (running 1 10 [0xFE, 0xAA, 0x02, 0x80, 0x00, 0x2A, 0x80, 0xFD, 0x55])) =
      some (bytesAt [0xAA, 0xAA, 0xAA], 16, 3, 1) := by decide

/-- Section 2.3, FILL_ORDER = 1: 7F AA gives 55 55 55. -/
theorem test_opPackbits_fillOrder :
    view (exec .opPackbits (running 0x201 3 [0x7F, 0xAA])) = some (bytesAt [0x55, 0x55, 0x55], 16, 3, 1) := by decide

/-- P2, step 1. -/
theorem test_opLzw : view (exec .opLzw (running 2 7 [0x80, 0x10, 0x48, 0x50, 0x28, 0x24, 0x04])) =
    some (bytesAt [0x41], 18, 1, 1) := by decide

/-- Section 2.4: 'A', 'B', END without a CLEAR: CURSOR = 9, LZW_NO_CLEAR. -/
theorem test_opLzw_noClear : (nextOf (exec .opLzw (running 2 5 [0x20, 0x90, 0xA0, 0x20]))).map
    (fun t => (t.cursor, t.outPos, t.phase)) = some (9#32, 0#32, .finish .lzwNoClear) := by decide

/-- Section 2.7: the predictor after a truncated decode. -/
theorem test_opLzwHpred :
    view (exec .opLzwHpred (rowDue 0x12 3 3 8 [0x0A, 0x14, 0x1E, 0x05, 0x05, 0x05, 0x01, 0x00, 0x00])) =
      some (bytesAt [0x0A, 0x14, 0x1E, 0x0F, 0x19, 0x23, 0x10, 0x19, 0x23], 0, 0, 1) := by decide

/-! ### Host commands (section 2.2, section 2.8) -/

/-- COMP = 3: UNSUPPORTED_COMPRESSION. -/
theorem test_start_comp3 : (nextOf (exec (.start false) { State.reset with
    config := { ConfigRegs.reset with mode := 3, width := 1, rows := 1, spp := 0 } })).map (fun t => t.phase) =
      some (.finish .unsupportedCompression) := by decide

/-- FILL_ORDER = 1, IN = 00 80: LEGACY_LZW. -/
theorem test_start_legacy : (nextOf (exec (.start true) { State.reset with
    config := { ConfigRegs.reset with mode := 0x202, width := 1, rows := 1, inLen := 2 }, inBuf := bytesAt [0, 0x80] })).map
      (fun t => (t.phase, t.irqEn)) = some (.finish .legacyLzw, true) := by decide

/-- BUSY = 0, MODE = 0x12, IRQ_EN = 1, W CTRL = 0x3: soft reset only. -/
theorem test_srst : nextOf (exec (.srst true false) { State.reset with
    irqEn := true, config := { ConfigRegs.reset with mode := 0x12 }, inBuf := bytesAt [7] }) =
      some { State.reset with inBuf := bytesAt [7] } := by decide

/-- BUSY = 1: SRST is ignored, IRQ_EN stored. -/
theorem test_srst_busy : nextOf (exec (.srst false true) (running 1 1 [])) =
    some { running 1 1 [] with irqEn := true } := by decide

/-- P5, step 6: STATUS = 0x72 becomes 0x70. -/
theorem test_doneAck : (nextOf (exec .doneAck { State.reset with
    irqEn := true, status := { Status.reset with done := true, err := .lzwNoClear } })).map
      (fun t => (t.registerWord 1, t.irq)) = some (0x70#32, false) := by decide

/-- W MODE = 0xFFFFFFFF reads back 0x337. -/
theorem test_configWrite_mode : (nextOf (exec (.configWrite .mode 0xFFFFFFFF#32) State.reset)).map
    (fun t => t.registerWord 2) = some 0x337#32 := by decide

/-- W SDESC[0] = 0xFFFFFFFF reads back 0x7FF. -/
theorem test_configWrite_sdesc : (nextOf (exec (.configWrite (.sdesc 0) 0xFFFFFFFF#32) State.reset)).map
    (fun t => t.registerWord 16) = some 0x7FF#32 := by decide

/-! ### Records (section 2.3); the control byte has been read -/

theorem test_pbNop : view (exec .pbNop { running 1 1 [0x80] with cursor := 8 }) = some ([], 8, 0, 1) := by decide
theorem test_pbLiteral : view (exec (.pbLiteral 2#7) { running 1 3 [0x02, 0x41, 0x42, 0x43] with cursor := 8 }) =
    some (bytesAt [0x41, 0x42, 0x43], 32, 3, 1) := by decide
theorem test_pbLiteral_cut : view (exec (.pbLiteral 3#7) { running 1 4 [0x03, 0x41, 0x42] with cursor := 8 }) =
    some (bytesAt [0x41, 0x42], 24, 2, 0x501) := by decide
theorem test_pbReplicate : view (exec (.pbReplicate 0xFD#8) { running 1 3 [0xFD, 0x55, 0x00, 0x41] with cursor := 8 }) =
    some (bytesAt [0x55, 0x55, 0x55], 16, 3, 0x201) := by decide
theorem test_pbReplicate_missing : view (exec (.pbReplicate 0xFE#8) { running 1 3 [0xFE] with cursor := 8 }) =
    some ([], 8, 0, 0x501) := by decide

/-! ### Codes (P2 and section 2.4); the code has been read -/

theorem test_lzwClear : lzwView (exec .lzwClear { running 2 7 [0x80, 0x10, 0x48, 0x50] with cursor := 9 }) =
    some ({ tsize := 258, cw := 9, prev := some [0x41#8], dict := [] }, .decode) := by decide
theorem test_lzwClear_clear : (nextOf (exec .lzwClear { running 2 5 [0x80, 0x40, 0x08, 0x30, 0x10] with cursor := 9 })).map
    (fun t => (t.cursor, t.phase)) = some (18#32, .finish .lzwBadCode) := by decide
theorem test_lzwEnd : view (exec .lzwEnd { running 2 5 [0x80, 0x80] with cursor := 9 }) = some ([], 9, 0, 0x401) := by decide
theorem test_lzwFirst : lzwView (exec (.lzwFirst 0x41#8) (decoding 258 none [])) =
    some ({ tsize := 258, cw := 9, prev := some [0x41#8], dict := [] }, .decode) := by decide
theorem test_lzwLiteral : lzwView (exec (.lzwLiteral 0x42#8) (decoding 258 (some [0x41#8]) [])) =
    some ({ tsize := 259, cw := 9, prev := some [0x42#8], dict := [(258, [0x41#8, 0x42#8])] }, .decode) := by decide
/-- Section 2.4: the 253rd addition makes TSIZE 511 and CW 10. -/
theorem test_lzwLiteral_width : (nextOf (exec (.lzwLiteral 0x41#8) (decoding 510 (some [0x41#8]) []))).map
    (fun t => t.lzw.word) = some 0x000A01FF#32 := by decide
theorem test_lzwTable : lzwView (exec (.lzwTable 258#12) (decoding 259 (some [0x42#8]) [(258, [0x41#8, 0x42#8])])) =
    some ({ tsize := 260, cw := 9, prev := some [0x41#8, 0x42#8],
            dict := [(258, [0x41#8, 0x42#8]), (259, [0x42#8, 0x41#8])] }, .decode) := by decide
/-- Section 2.4, last row: overrun and table full in one code. -/
theorem test_lzwTable_full : (nextOf (exec (.lzwTable 258#12) { decoding 4096 (some [0x41#8]) [(258, [0x41#8, 0x41#8])] with
    outPos := 99 })).map (fun t => (t.outPos, t.status.wOverrun, t.phase)) =
      some (100#32, true, .finish .lzwTableFull) := by decide
theorem test_lzwPending : lzwView (exec .lzwPending (decoding 260 (some [0x41#8, 0x42#8]) [])) =
    some ({ tsize := 261, cw := 9, prev := some [0x41#8, 0x42#8, 0x41#8],
            dict := [(260, [0x41#8, 0x42#8, 0x41#8])] }, .decode) := by decide
theorem test_lzwInvalid : lzwView (exec (.lzwInvalid 300#12) (decoding 258 (some [0x41#8]) [])) =
    some ({ tsize := 258, cw := 9, prev := some [0x41#8], dict := [] }, .finish .lzwBadCode) := by decide
theorem test_lzwNoClear : lzwView (exec (.lzwNoClear 0x41#12) (decoding 258 none [])) =
    some ({ tsize := 258, cw := 9, prev := none, dict := [] }, .finish .lzwNoClear) := by decide
theorem test_lzwImplicitEnd : view (exec .lzwImplicitEnd { running 2 5 [0x80, 0x00] with cursor := 9 }) =
    some ([], 9, 0, 0x501) := by decide

/-! ### Rows (sections 2.5 and 2.6) -/

theorem test_hpred8 : view (exec .hpred8 (rowDue 0x10 1 3 8 [0xF0, 0x20, 0x30])) =
    some (bytesAt [0xF0, 0x10, 0x40], 0, 0, 1) := by decide
theorem test_hpred16 : view (exec .hpred16 (rowDue 0x10 1 2 16 [0xFF, 0xFF, 0x00, 0x02])) =
    some (bytesAt [0xFF, 0xFF, 0x00, 0x01], 0, 0, 1) := by decide
theorem test_hpred32 : view (exec .hpred32 (rowDue 0x110 1 2 32 [0, 0, 0, 0x80, 0, 0, 0, 0x80])) =
    some (bytesAt [0, 0, 0, 0x80, 0, 0, 0, 0], 0, 0, 1) := by decide
theorem test_fpred16 : view (exec .fpred16 (rowDue 0x20 1 2 0x210 [0x3C, 0x84, 0x40, 0x00])) =
    some (bytesAt [0x3C, 0x00, 0xC0, 0x00], 0, 0, 1) := by decide
theorem test_fpred24 : view (exec .fpred24 (rowDue 0x120 1 2 0x218 [0x3F, 0x81, 0xC0, 0x80, 0x00, 0x01])) =
    some (bytesAt [0x00, 0x80, 0x3F, 0x01, 0x00, 0xC0], 0, 0, 1) := by decide
theorem test_fpred32 : view (exec .fpred32 (rowDue 0x20 2 1 0x220 [0x3F, 0xC0, 0x41, 0x60, 0x80, 0xE0, 0, 0])) =
    some (bytesAt [0x3F, 0x80, 0, 0, 0xC0, 0x20, 0, 0], 0, 0, 1) := by decide
theorem test_fpred64 : view (exec .fpred64 (rowDue 0x20 1 2 0x240 [0x3F, 0x01, 0xB0, 0x10, 0, 0, 0, 0, 0, 0, 0, 0, 0, 0, 0,
    0])) = some (bytesAt [0x3F, 0xF0, 0, 0, 0, 0, 0, 0, 0x40, 0, 0, 0, 0, 0, 0, 0], 0, 0, 1) := by decide

/-! ### Witnesses: for every statement with hypotheses, states and operands that meet them -/

/-- A state of the invariant: START's first step of an LZW decode of P2's input. -/
def lzwBegun : State := running 2 7 [0x80, 0x10, 0x48, 0x50, 0x28, 0x24, 0x04]

theorem test_witness_inv_lzw : lzwBegun.Inv := by
  constructor
  case lzw => exact LzwRegs.Ok.ofReset
  case checked => exact fun _ => .inr (by decide)
  case decodePrev => rintro _ p ⟨⟩
  case predictRow => rintro r ⟨⟩
  case errorWarnings => rintro e (h | h) hne <;> first | exact absurd h.symm hne | cases h
  case errorEarly => rintro e (h | h) hne <;> first | (rw [← h] at hne; cases hne) | cases h
  all_goals decide

/-- A state of the invariant: the only row of an operation is due. -/
def hpredBegun : State :=
  { rowDue 0x10 3 3 8 [0x0A, 0x14, 0x1E, 0x05, 0x05, 0x05, 0x01, 0x01, 0x01] with lzw := LzwRegs.reset }

theorem test_witness_inv_row : hpredBegun.Inv := by
  constructor
  case lzw => exact LzwRegs.Ok.ofReset
  case checked => exact fun _ => .inr (by decide)
  case decodePrev => rintro _ p ⟨⟩
  case predictRow => rintro r ⟨⟩; decide
  case errorWarnings => rintro e (h | h) hne <;> first | exact absurd h.symm hne | cases h
  case errorEarly => rintro e (h | h) hne <;> first | (rw [← h] at hne; cases hne) | cases h
  all_goals decide

theorem test_witness_DecodeUndoesEncode :
    LzwContext.legal ⟨12, 4095, true, false⟩ = true ∧ (Instr.lzwTable 4094#12).wellFormed = true ∧
      (Instr.lzwTable 4094#12).inContext ⟨12, 4095, true, false⟩ = true ∧
      Instr.lzwPending.inContext ⟨12, 4095, true, false⟩ = true := by decide
theorem test_witness_DecodedIsWellFormed :
    ((∀ ctx bits, Encoded.packBits 0x81#8 = .lzw ctx bits → ctx.legal = true ∧ bits.length ≤ ctx.cw) ∧
      decode (.packBits 0x81#8) = .ok (.pbReplicate 0x81#8)) ∧
    LzwContext.legal ⟨12, 4096, true, false⟩ = true ∧ (List.replicate 12 true).length ≤ 12 ∧
      decode (.lzw ⟨12, 4096, true, false⟩ (List.replicate 12 true)) = .ok (.lzwTable 4095#12) :=
  ⟨⟨by rintro _ _ ⟨⟩, by decide⟩, by decide⟩

/-- A register write, a step of the block with the turn given or not, an idle block. -/
theorem test_witness_StepRunsDecodedInstruction :
    decode (.hostWrite 0 1#32) = .ok (.start false) ∧
    (lzwBegun.turns = [] ∧ lzwBegun.status.busy = true ∧ decode (.operation lzwBegun.config.mode) = .ok .opLzw ∧
      ∃ t, exec .opLzw lzwBegun = .next t) ∧
    (({ lzwBegun with turns := [.block] } : State).turns = [.block] ∧
      ∃ t, exec .opLzw { lzwBegun with turns := [] } = .next t) ∧
    State.reset.turns = [] ∧ State.reset.status.busy = false :=
  ⟨by decide, ⟨by decide, by decide, by decide, _, rfl⟩, ⟨rfl, _, rfl⟩, by decide⟩

theorem test_witness_OperationRunsDecodedItem_record : let s := running 1 3 [0x80]
    s.phase = .decode ∧ s.outPos.toNat < s.outLen ∧ s.cursor.toNat / 8 < s.config.inLen.toNat ∧
      s.inByte (s.cursor.toNat / 8) = 0x80#8 ∧ decode (.packBits 0x80#8) = .ok .pbNop := by decide
theorem test_witness_OperationRunsDecodedItem_code : let s := lzwBegun
    s.phase = .decode ∧ s.outPos.toNat < s.outLen ∧ 9 ≤ s.lzw.cw.toNat ∧
      decode (.lzw s.lzwContext s.codeBits) = .ok .lzwClear := by decide
theorem test_witness_OperationRunsDecodedItem_noCode : let s := running 2 7 [0x80]
    s.phase = .decode ∧ s.outPos.toNat < s.outLen ∧ 9 ≤ s.lzw.cw.toNat ∧
      decode (.lzw s.lzwContext s.codeBits) = .ok .lzwImplicitEnd := by decide
theorem test_witness_OperationRunsDecodedItem_row :
    hpredBegun.phase = .predict 0 ∧ decode (.predictor 1 (hpredBegun.bps 0)) = .ok .hpred8 ∧
    (rowDue 0x20 1 2 0x240 []).phase = .predict 0 ∧
      decode (.predictor 2 ((rowDue 0x20 1 2 0x240 []).bps 0)) = .ok .fpred64 := by decide
theorem test_witness_FinishStepReports : let s := { lzwBegun with phase := .finish .lzwTableFull }
    s.status.busy = true ∧ s.turns = [] ∧ s.phase = .finish .lzwTableFull := by decide
theorem test_witness_OperationsEndTheirLoops :
    ({ lzwBegun with phase := .finish .none } : State).phase = .finish .none ∧ State.reset.phase = .idle ∧
    (lzwBegun.phase = .decode ∧ ({ lzwBegun with outPos := 7 } : State).outLen ≤ (7#32).toNat) ∧
    (let s := { running 1 3 [0x80] with cursor := 8 };
      s.phase = .decode ∧ s.outPos.toNat < s.outLen ∧ s.config.inLen.toNat ≤ s.cursor.toNat / 8) := by decide
theorem test_witness_DecodeStepsComplete : lzwBegun.phase = .decode := by decide
theorem test_witness_PredictorStepsComplete :
    (hpredBegun.phase = .predict 0 ∧ (hpredBegun.bps 0).toNat = 8 * 1) ∧
    ((rowDue 0x10 1 2 32 []).phase = .predict 0 ∧ ((rowDue 0x10 1 2 32 []).bps 0).toNat = 8 * 4) ∧
    ((rowDue 0x20 1 2 0x210 []).phase = .predict 0 ∧ ((rowDue 0x20 1 2 0x210 []).bps 0).toNat = 8 * 2) ∧
    (rowDue 0x20 1 2 0x240 []).phase = .predict 0 ∧ ((rowDue 0x20 1 2 0x240 []).bps 0).toNat = 8 * 8 := by decide

theorem test_witness_StartBeginsOperation : ((5#32).getLsbD 0 = true ∧ (5#32).getLsbD 1 = false) ∧
    lzwBegun.status.busy = true ∧ State.reset.status.busy = false := by decide

/-- An idle block after an operation that failed. -/
def failed : State :=
  { lzwBegun with
    status := { Status.reset with done := true, err := .lzwTableFull, wOverrun := true }
    cursor := 9, outPos := 3, lzw := { tsize := 300, cw := 9, prev := some [1], dict := [(258, [1, 1])] }
    outBuf := bytesAt [1, 1, 1], phase := .idle, trail := [] }

theorem test_witness_StartForgetsEarlierOperation :
    let s₁ := { lzwBegun with status := Status.reset, phase := .idle, trail := [] }
    let s₂ := failed
    s₁.status.busy = false ∧ s₂.status.busy = false ∧ s₁ ≠ s₂ ∧
    s₂ = { s₁ with
      irqEn := s₂.irqEn, status := s₂.status, cursor := s₂.cursor, outPos := s₂.outPos, lzw := s₂.lzw
      outBuf := s₂.outBuf, phase := s₂.phase, trail := s₂.trail } := by decide

/-- The conditions of R104, R106, R107 and R150 as the statement writes them. -/
abbrev checkLayout (s : State) : Prop :=
  1 ≤ s.config.spp.toNat ∧ s.config.spp.toNat ≤ s.params.maxSpp ∧
    ∀ i < s.config.spp.toNat, 1 ≤ (s.bps i).toNat ∧ (s.bps i).toNat ≤ 64 ∧ (s.sfmt i).toNat ≤ 3
abbrev checkPredictor (s : State) : Prop := s.pred = 0 ∨
  (s.pred = 1 ∧ s.comp ≠ 1 ∧ (∀ i < s.config.spp.toNat, s.bps i = s.bps 0) ∧
    (s.bps 0 = 8 ∨ s.bps 0 = 16 ∨ s.bps 0 = 32)) ∨
  (s.pred = 2 ∧ s.comp ≠ 1 ∧ s.comp ≠ 2 ∧ (∀ i < s.config.spp.toNat, s.bps i = s.bps 0) ∧
    (s.bps 0 = 16 ∨ s.bps 0 = 24 ∨ s.bps 0 = 32 ∨ s.bps 0 = 64) ∧ ∀ i < s.config.spp.toNat, s.sfmt i = 2)
abbrev checkCapacity (s : State) : Prop :=
  ((∑ i ∈ Finset.range s.config.spp.toNat, (s.bps i).toNat) * s.config.width.toNat + 7) / 8 * s.config.rows.toNat ≤
    s.params.outCap ∧
  (s.comp = 1 ∨ s.comp = 2 → s.config.inLen.toNat ≤ s.params.inCap)
abbrev checkLegacy (s : State) : Prop :=
  2 ≤ s.config.inLen.toNat ∧ s.inByte 0 = 0x00#8 ∧ s.inByte 1 = 0x01#8

theorem test_witness_StartCheck_idle : let s := { failed with config := { failed.config with mode := 3 } }
    s.status.busy = false ∧ s.configCheck ≠ .none := by decide
theorem test_witness_StartCheck_compression : 3 ≤ (running 3 1 []).comp.toNat := by decide
theorem test_witness_StartCheck_layout : let s := rowDue 2 1 1 65 []
    s.comp.toNat < 3 ∧ ¬ checkLayout s := by decide
theorem test_witness_StartCheck_predictor : let s := rowDue 0x21 1 1 0x210 []
    s.comp.toNat < 3 ∧ checkLayout s ∧ ¬ checkPredictor s := by decide
theorem test_witness_StartCheck_capacity :
    let s := { running 1 1 [] with params := { inCap := 3, outCap := 1, maxSpp := 1 } }
    let s := { s with config := { s.config with inLen := 4 } }
    s.comp.toNat < 3 ∧ checkLayout s ∧ checkPredictor s ∧ ¬ checkCapacity s := by decide
theorem test_witness_StartCheck_legacy : let s := running 2 1 [0, 1]
    s.comp = 2 ∧ checkLayout s ∧ checkPredictor s ∧ checkCapacity s ∧ checkLegacy s := by decide
theorem test_witness_StartCheck_passes : let s := rowDue 0x20 1 1 0x218 []
    s.comp.toNat < 3 ∧ checkLayout s ∧ checkPredictor s ∧ checkCapacity s ∧ ¬ (s.comp = 2 ∧ checkLegacy s) := by decide

theorem test_witness_SoftReset : ((3#32).getLsbD 1 = true ∧ (2#32).getLsbD 1 = true) ∧ failed.status.busy = false ∧ lzwBegun.status.busy = true := by decide
theorem test_witness_DoneAck : State.reset.status.done = false ∧ (2#32).getLsbD 1 = true ∧
    (0xFFFFFFFD#32).getLsbD 1 = false := by decide
theorem test_witness_Interrupt : (4#32).getLsbD 0 = false ∧ (4#32).getLsbD 1 = false := by decide
/-- Index 7 and 15 are the ends of the range without effect; slot 15 is reserved where MAX_SPP = 1. -/
theorem test_witness_ConfigWrite : failed.status.busy = false ∧
    ((0 : Fin 32) ≠ CfgReg.mode.index ∧ (0 : Fin 32) ≠ 7) ∧
    (State.resetOf { Config.params with maxSpp := 1 }).params.maxSpp ≤ (15 : Fin 16).val ∧
    7 ≤ (7 : Fin 32).val ∧ (15 : Fin 32).val < 16 := by decide
theorem test_witness_WritesWhileBusy : lzwBegun.status.busy = true := by decide
theorem test_witness_OtherWrites : ((8#32).getLsbD 0 = false ∧ (8#32).getLsbD 1 = false) ∧ (1#32).getLsbD 1 = false ∧
    7 ≤ (7 : Fin 32).val ∧ (15 : Fin 32).val < 16 := by decide
theorem test_witness_RegisterRead : State.reset.status.busy = false ∧ (2 : Fin 32) ∉ [(1 : Fin 32), 8, 9, 10] ∧
    lzwBegun.status.busy = true ∧ lzwBegun.trail ≠ [] := by decide
theorem test_witness_HostByteAccess : (failed.status.busy = false ∧ 2 ^ 20 - 1 < failed.params.inCap ∧
    2 ^ 20 - 1 < failed.params.outCap) ∧ failed.params.inCap ≤ 2 ^ 20 ∧ failed.params.outCap ≤ 2 ^ 20 ∧
    lzwBegun.status.busy = true := by decide

theorem test_witness_PbLiteral :
    ({ ConfigRegs.reset with inLen := 0x10000000#32 } : ConfigRegs).inLen.toNat ≤ 2 ^ 28 := by decide
theorem test_witness_PbReplicate : 0x81 ≤ (0x81#8).toNat ∧
    (let s := { running 1 1 [0x81] with cursor := 8 };
      s.config.inLen.toNat ≤ s.cursor.toNat / 8) ∧
    (let s := { running 1 1 [0x81, 7] with cursor := 8 };
      s.cursor.toNat / 8 < s.config.inLen.toNat) := by decide
theorem test_witness_PackBitsIgnoresOldOutput :
    let s₁ := running 1 3 [0x00, 0x41]
    let s₂ := { s₁ with outBuf := bytesAt [9] }
    s₂ = { s₁ with outBuf := s₂.outBuf } ∧ s₁.phase = .decode ∧ s₁ ≠ s₂ := by decide

/-- P1's records. -/
theorem test_witness_PackBitsRoundTrip :
    let s := running 1 10 [0xFE, 0xAA, 0x02, 0x80, 0x00, 0x2A, 0x80, 0xFD, 0x55]
    let records : List RecordText := [.rep 3 0xAA#8, .lit [0x80#8, 0x00#8, 0x2A#8], .nop, .rep 4 0x55#8]
    s.status = { busy := true, done := false, err := .none, wTrunc := false, wOverrun := false, wUnderfill := false } ∧
    s.turns = [] ∧ s.phase = .decode ∧ s.comp = 1 ∧ s.pred = 0 ∧ s.cursor = 0 ∧ s.outPos = 0 ∧
    s.config.inLen.toNat ≤ 2 ^ 28 ∧ (∀ r ∈ records, r.ok = true) ∧
    (records.flatMap RecordText.assemble).length ≤ s.config.inLen.toNat ∧
    (∀ i < (records.flatMap RecordText.assemble).length,
      some (s.inByte i) = (records.flatMap RecordText.assemble)[i]?) ∧
    s.outLen = (records.flatMap RecordText.expand).length := by decide

theorem test_witness_ReadCode : let s := running 2 1 [0x80]
    8 * s.config.inLen.toNat < s.cursor.toNat + s.lzw.cw.toNat ∧
    (let u := { running 2 1 [0, 0, 0, 0, 0, 0, 0, 0, 0] with cursor := 63 };
      u.cursor.toNat + u.lzw.cw.toNat = 8 * u.config.inLen.toNat) := by decide
theorem test_witness_LzwLiteral :
    ((decoding 4095 (some [1]) []).lzw.prev = some [1] ∧ (decoding 4095 (some [1]) []).lzw.tsize.toNat < 4096) ∧
    (decoding 4096 (some [1]) []).lzw.prev = some [1] ∧ (decoding 4096 (some [1]) []).lzw.tsize.toNat = 4096 := by
  decide
theorem test_witness_LzwTable : 258 ≤ (258#12).toNat ∧
    (let s := decoding 4095 (some [1]) [(258, [1, 2])];
      Store.get? s.lzw.dict (258#12).toNat = some [1, 2] ∧ s.lzw.prev = some [1] ∧ s.lzw.tsize.toNat < 4096) ∧
    (let s := decoding 4096 (some [1]) [(258, [1, 2])];
      Store.get? s.lzw.dict (258#12).toNat = some [1, 2] ∧ s.lzw.prev = some [1] ∧ s.lzw.tsize.toNat = 4096) := by decide
theorem test_witness_LzwPending : let s := decoding 4095 (some [1, 2]) []
    s.lzw.prev = some [1, 2] ∧ s.lzw.tsize.toNat ≤ 4095 := by decide
theorem test_witness_LzwCodesNeedPrevious : (decoding 258 none []).lzw.prev = none := by decide

/-- The 9 bits after a CLEAR: none, END, CLEAR and the largest value, the largest byte. -/
theorem test_witness_LzwClear :
    let code := fun s : State => ∑ k ∈ Finset.range 9, (s.inBit (s.cursor.toNat + k)).toNat * 2 ^ (8 - k)
    let fits := fun s : State => s.cursor.toNat + 9 ≤ 8 * s.config.inLen.toNat
    (8 * (running 2 5 [0x80]).config.inLen.toNat < (running 2 5 [0x80]).cursor.toNat + 9) ∧
    (fits (running 2 5 [0x80, 0x80]) ∧ code (running 2 5 [0x80, 0x80]) = 257) ∧
    (fits (running 2 5 [0x80, 0x00]) ∧ 256 ≤ code (running 2 5 [0x80, 0x00]) ∧ code (running 2 5 [0x80, 0x00]) ≠ 257) ∧
    (fits (running 2 5 [0xFF, 0x80]) ∧ 256 ≤ code (running 2 5 [0xFF, 0x80]) ∧ code (running 2 5 [0xFF, 0x80]) ≠ 257) ∧
    fits (running 2 5 [0x7F, 0x80]) ∧ code (running 2 5 [0x7F, 0x80]) < 256 := by decide
theorem test_witness_CodeWidth : let s := decoding 510 (some [1]) []
    258 ≤ s.lzw.tsize.toNat ∧ s.lzw.tsize.toNat ≤ 4096 ∧ s.lzw.cw.toNat = (if s.lzw.tsize.toNat < 511 then 9 else 10) ∧
      ∃ t, s.addEntry [1, 1] = some t := ⟨by decide, by decide, by decide, _, rfl⟩

/-- CLEAR, 'A', the pending string 258: "AAA". -/
theorem test_witness_LzwRoundTrip :
    let s := running 2 3 [0x80, 0x10, 0x60, 0x40]
    let bits := bitsOf 9 256 ++ (bitsOf 9 0x41 ++ (bitsOf 9 258 ++ []))
    s.status = { busy := true, done := false, err := .none, wTrunc := false, wOverrun := false, wUnderfill := false } ∧
    s.turns = [] ∧ s.phase = .decode ∧ s.comp = 2 ∧ s.pred = 0 ∧ s.cursor = 0 ∧ s.outPos = 0 ∧ s.lzw = LzwRegs.reset ∧
    s.config.inLen.toNat ≤ 2 ^ 28 ∧ bits.length ≤ 8 * s.config.inLen.toNat ∧ s.inBits 0 bits.length = bits ∧
    LzwText [] none bits [0x41#8, 0x41#8, 0x41#8] ∧ s.outLen = 3 :=
  ⟨rfl, rfl, rfl, by decide, by decide, rfl, rfl, rfl, by decide, by decide, by decide,
    .clear [] none 0x41#8 _ _ (by decide)
      (.code [] [0x41#8] [0x41#8, 0x41#8] 258 [] [] (by decide) (by decide) (.stop _ _)), by decide⟩

/-- P2 and its first four bytes (the example of R158). -/
theorem test_witness_TruncatedStream : lzwBegun.Inv ∧ let s := lzwBegun
    s.turns = [] ∧ s.status.busy = true ∧ s.phase = .decode ∧ s.comp = 2 ∧ s.pred = 0 ∧
    (4#32).toNat ≤ s.config.inLen.toNat ∧ s.cursor.toNat ≤ 8 * (4#32).toNat ∧
    (nextOf (Host.Core.run Sys2Proof.core 6 s)).map (fun t => (t.status.busy, t.status.err, t.outPos.toNat)) =
      some (false, .none, 7) := ⟨test_witness_inv_lzw, by decide⟩

theorem test_witness_OutReadAfterOutWrite : 2 ^ 64 - 1 < 2 ^ (8 * 8) ∧ (0 < 1 ∨ 1 + 8 ≤ 0) ∧ (9 < 1 ∨ 1 + 8 ≤ 9) := by
  decide
theorem test_witness_HorizontalRows : hpredBegun.phase = .predict 0 ∧
    (Instr.hpred32, 4) ∈ [(Instr.hpred8, 1), (Instr.hpred16, 2), (Instr.hpred32, 4)] ∧
    (rowDue 0x110 2 0 16 []).phase = .predict 0 := by decide
theorem test_witness_FloatRows : (rowDue 0x20 1 2 0x210 [0x3C, 0x84, 0x40, 0x00]).phase = .predict 0 ∧
    (Instr.fpred64, 8) ∈ [(Instr.fpred16, 2), (Instr.fpred24, 3), (Instr.fpred32, 4), (Instr.fpred64, 8)] := by decide
theorem test_witness_NoRowDue : ∀ r, lzwBegun.phase ≠ .predict r := by rintro r ⟨⟩
theorem test_witness_Bands :
    let s₁ := rowDue 0x10 2 2 8 [1, 2, 3, 4]
    let s₂ := { s₁ with outBuf := bytesAt [1, 9, 3, 8] }
    s₁.phase = .predict 0 ∧ s₂ = { s₁ with outBuf := s₂.outBuf } ∧ s₁ ≠ s₂ ∧ 0 < s₁.config.spp.toNat ∧
    ∀ x < s₁.config.width.toNat,
      s₁.outRead (s₁.rowBase 1 0 + (x * s₁.config.spp.toNat + 0) * 1) 1 =
        s₂.outRead (s₁.rowBase 1 0 + (x * s₁.config.spp.toNat + 0) * 1) 1 := by decide
theorem test_witness_NarrowRows : (rowDue 0x10 3 1 8 [1, 2, 3]).config.width.toNat ≤ 1 ∧
    (rowDue 0x10 3 0 8 []).config.width.toNat ≤ 1 := by decide

/-- An idle block with OUT written and a row of three samples of the given descriptor configured. -/
def prepared (mode desc : Word) : State :=
  { rowDue mode 1 3 desc [1, 2, 3, 4, 5, 6] with status := Status.reset, phase := .idle, trail := [] }

theorem test_witness_ExternalNone : let s := prepared 0 8
    s.status.busy = false ∧ s.comp = 0 ∧ s.pred = 0 ∧ s.configCheck = .none := by decide
theorem test_witness_ExternalHpred : let s := prepared 0x10 8
    s.status.busy = false ∧ s.turns = [] ∧ s.comp = 0 ∧ s.pred = 1 ∧ s.configCheck = .none ∧
      (s.bps 0).toNat = 8 * 1 ∧ ∃ t, exec (.start false) s = .next t :=
  ⟨rfl, rfl, by decide, by decide, by decide, by decide, _, rfl⟩
theorem test_witness_ExternalFpred : let s := prepared 0x20 0x210
    s.status.busy = false ∧ s.turns = [] ∧ s.comp = 0 ∧ s.pred = 2 ∧ s.configCheck = .none ∧
      (s.bps 0).toNat = 8 * 2 ∧ ∃ t, exec (.start false) s = .next t :=
  ⟨rfl, rfl, by decide, by decide, by decide, by decide, _, rfl⟩

/-- For EveryOperationFinishes, StepKeepsInvariant, StepNeverStops and BlockStepStaysWithinBounds. -/
theorem test_witness_invariant_steps : lzwBegun.Inv ∧ lzwBegun.status.busy = true ∧ lzwBegun.turns = [] ∧
    ∃ t, step lzwBegun = .next t :=
  ⟨test_witness_inv_lzw, rfl, rfl, _, rfl⟩
theorem test_witness_InputBeyondLength : let s := { running 1 1 [0x00, 0x41] with inBuf := bytesAt [0x00, 0x41, 7] }
    s.status.busy = true ∧ s.turns = [] ∧
    (∀ a < s.config.inLen.toNat, s.readIn a = ({ s with inBuf := bytesAt [0x00, 0x41, 9] } : State).readIn a) ∧
    ∃ t, step s = .next t := ⟨rfl, rfl, by decide, _, rfl⟩
theorem test_witness_params_least : Config.Params.legal { inCap := 1, outCap := 1, maxSpp := 1 } = true := by decide
theorem test_witness_params_most :
    Config.Params.legal { inCap := 2 ^ 28, outCap := 2 ^ 32 - 1, maxSpp := 16 } = true := by decide

end Sys2Proof.Tests
end

namespace Sys2Proof.Machine

/-! ### Register writes and reads of the host (R25 to R28, R39, R40, R119)

What a register write can be is said once, in `hostStep_writeReg_cases`; the statements about writes are read off it. -/

/-- A register write that is a command executes it. -/
theorem hostStep_of_command {index : Fin 32} {data : Word} {i : Instr} (h : decodeHostWrite index data = .ok i)
    (s : State) : hostStep (.writeReg index data) s = exec i s := by
  simp only [hostStep, decode, h]

/-- A register write that is no command is a plain write. -/
theorem hostStep_of_noCommand {index : Fin 32} {data : Word} {r : Reject} (h : decodeHostWrite index data = .error r)
    (s : State) : hostStep (.writeReg index data) s = .next (plainWrite index data s) := by
  simp only [hostStep, decode, h]

theorem decodeHostWrite_ctrl (data : Word) : decodeHostWrite 0 data =
    if data.getLsbD 1 then .ok (.srst (data.getLsbD 0) (data.getLsbD 2))
    else if data.getLsbD 0 then .ok (.start (data.getLsbD 2)) else .error .noCommand := rfl

theorem decodeHostWrite_status (data : Word) : decodeHostWrite 1 data =
    if data.getLsbD 1 then .ok .doneAck else .error .noCommand := rfl

/-- R25, R119: the offsets of the configuration registers. -/
theorem decodeHostWrite_config {index : Fin 32} (h : 2 ≤ index.val ∧ index.val < 7 ∨ 16 ≤ index.val) (data : Word) :
    ∃ reg, decodeHostWrite index data = .ok (.configWrite reg data) := by
  simp only [decodeHostWrite, if_neg (show index.val ≠ 0 by omega), if_neg (show index.val ≠ 1 by omega)]
  split_ifs
  iterate 6 exact ⟨_, rfl⟩
  omega

/-- R25, R119: the read-only and the reserved offsets. -/
theorem decodeHostWrite_readOnly {index : Fin 32} (h : 7 ≤ index.val ∧ index.val < 16) (data : Word) :
    decodeHostWrite index data = .error .noCommand := by
  simp only [decodeHostWrite, if_neg (show index.val ≠ 0 by omega), if_neg (show index.val ≠ 1 by omega)]
  split_ifs <;> first | rfl | omega

/-- A write is SRST, START, a plain CTRL write, a DONE acknowledge, a configuration write, or nothing. -/
theorem hostStep_writeReg_cases (index : Fin 32) (data : Word) (s : State) :
    (index = 0 ∧ data.getLsbD 1 = true ∧
      hostStep (.writeReg index data) s = execSrst (data.getLsbD 0) (data.getLsbD 2) s) ∨
    (index = 0 ∧ data.getLsbD 1 = false ∧ data.getLsbD 0 = true ∧
      hostStep (.writeReg index data) s = execStart (data.getLsbD 2) s) ∨
    (index = 0 ∧ data.getLsbD 1 = false ∧ data.getLsbD 0 = false ∧
      hostStep (.writeReg index data) s = .next { s with irqEn := data.getLsbD 2 }) ∨
    (index = 1 ∧ data.getLsbD 1 = true ∧ hostStep (.writeReg index data) s = execDoneAck s) ∨
    ((2 ≤ index.val ∧ index.val < 7 ∨ 16 ≤ index.val) ∧
      ∃ reg, hostStep (.writeReg index data) s = execConfigWrite reg data s) ∨
    ((index = 1 ∧ data.getLsbD 1 = false ∨ 7 ≤ index.val ∧ index.val < 16) ∧
      hostStep (.writeReg index data) s = .next s) := by
  have hindex : index = 0 ∨ index = 1 ∨ (2 ≤ index.val ∧ index.val < 7 ∨ 16 ≤ index.val) ∨
      (7 ≤ index.val ∧ index.val < 16) := by omega
  rcases hindex with rfl | rfl | hi | hi
  · have hd := decodeHostWrite_ctrl data
    by_cases h1 : data.getLsbD 1 = true
    · rw [if_pos h1] at hd
      exact .inl ⟨rfl, h1, hostStep_of_command hd s⟩
    rw [if_neg h1] at hd
    by_cases h0 : data.getLsbD 0 = true
    · rw [if_pos h0] at hd
      exact .inr (.inl ⟨rfl, by simpa using h1, h0, hostStep_of_command hd s⟩)
    · rw [if_neg h0] at hd
      exact .inr (.inr (.inl ⟨rfl, by simpa using h1, by simpa using h0, hostStep_of_noCommand hd s⟩))
  · have hd := decodeHostWrite_status data
    by_cases h1 : data.getLsbD 1 = true
    · rw [if_pos h1] at hd
      exact .inr (.inr (.inr (.inl ⟨rfl, h1, hostStep_of_command hd s⟩)))
    · rw [if_neg h1] at hd
      exact .inr (.inr (.inr (.inr (.inr ⟨.inl ⟨rfl, by simpa using h1⟩, hostStep_of_noCommand hd s⟩))))
  · obtain ⟨reg, hd⟩ := decodeHostWrite_config hi data
    exact .inr (.inr (.inr (.inr (.inl ⟨hi, reg, hostStep_of_command hd s⟩))))
  · refine .inr (.inr (.inr (.inr (.inr ⟨.inr hi, ?_⟩))))
    rw [hostStep_of_noCommand (decodeHostWrite_readOnly hi data) s, plainWrite, if_neg (by omega)]

/-- Settles O18: each of the six kinds of write, with BUSY = 1. -/
theorem writesWhileBusyAreIgnored : Obligations.WritesWhileBusyAreIgnored := by
  intro s index data hb
  rcases hostStep_writeReg_cases index data s with
    ⟨rfl, -, h⟩ | ⟨rfl, -, -, h⟩ | ⟨rfl, -, -, h⟩ | ⟨rfl, h1, h⟩ | ⟨hi, reg, h⟩ | ⟨hi, h⟩
  · simp [h, execSrst, hb]
  · simp [h, execStart, hb]
  · simp [h]
  · simp [h, execDoneAck, h1]
  · have h0 : index ≠ 0 := by rintro rfl; simp at hi
    have h1 : index ≠ 1 := by rintro rfl; simp at hi
    simp [h, execConfigWrite, hb, h0, h1]
  · have h0 : index ≠ 0 := by rintro rfl; simp at hi
    have h1 : ¬ (index = 1 ∧ data.getLsbD 1 = true) := by
      rintro ⟨rfl, h1⟩; rw [h1] at hi; simp at hi
    rw [h, if_neg h0, if_neg h1]

/-- Settles O19: the two kinds of write that are no command. -/
theorem otherWritesHaveNoEffect : Obligations.OtherWritesHaveNoEffect := by
  intro s index data
  rcases hostStep_writeReg_cases index data s with
    ⟨rfl, h1, -⟩ | ⟨rfl, -, h0, -⟩ | ⟨rfl, -, -, h⟩ | ⟨rfl, h1, -⟩ | ⟨hi, reg, -⟩ | ⟨hi, h⟩
  · simp [h1]
  · simp [h0]
  · simp [h]
  · simp [h1]
  · refine ⟨?_, ?_, fun _ _ => by omega⟩ <;> rintro rfl <;> simp at hi
  · refine ⟨?_, fun _ _ => h, fun _ _ => h⟩
    rintro rfl; simp at hi

/-- Settles O16: `irq` by its definition; the CTRL write is a plain one by O19. -/
theorem interruptIsDoneAndEnabled : Obligations.InterruptIsDoneAndEnabled := by
  intro s data
  refine ⟨rfl, fun h0 h1 => ?_⟩
  exact ⟨_, (otherWritesHaveNoEffect s 0 data).1 rfl h0 h1, rfl, rfl⟩

/-- R40: what a busy read draws is one of the values reached, if there is one. -/
theorem State.drawSnapshot_mem {s : State} (h : s.trail ≠ []) : s.drawSnapshot ∈ s.trail := by
  have hlt : Config.busyReadPick s.draws % s.trail.length < s.trail.length :=
    Nat.mod_lt _ (List.length_pos_iff.mpr h)
  simp [State.drawSnapshot, hlt]

theorem movesWhileBusy_iff (index : Fin 32) : movesWhileBusy index = true ↔ index ∈ [(1 : Fin 32), 8, 9, 10] := by
  revert index; decide

theorem State.readRegister_frame (index : Fin 32) (s : State) :
    s.readRegister index =
      { s with hostRead := (s.readRegister index).hostRead, draws := (s.readRegister index).draws } := by
  unfold State.readRegister; split <;> rfl

/-- A read that draws nothing returns the register. -/
theorem State.readRegister_hostRead {index : Fin 32} {s : State}
    (h : s.status.busy = false ∨ index ∉ [(1 : Fin 32), 8, 9, 10]) :
    (s.readRegister index).hostRead = .word (s.registerWord index) := by
  have hc : (s.status.busy && movesWhileBusy index) = false := by
    rcases h with h | h
    · simp [h]
    · rw [← movesWhileBusy_iff, Bool.not_eq_true] at h; simp [h]
  simp [State.readRegister, hc]

/-- A read that draws returns the register in the snapshot drawn. -/
theorem State.readRegister_busy_hostRead {index : Fin 32} {s : State} (hb : s.status.busy = true)
    (h : index ∈ [(1 : Fin 32), 8, 9, 10]) :
    (s.readRegister index).hostRead = .word (s.drawSnapshot.at index) := by
  simp [State.readRegister, hb, (movesWhileBusy_iff index).mpr h]

/-- Settles O20: the value read is the register's, or that of the snapshot drawn. -/
theorem registerReadReturnsReachedValue : Obligations.RegisterReadReturnsReachedValue := by
  intro s index
  refine ⟨_, rfl, s.readRegister_frame index, fun hb => State.readRegister_hostRead (.inl hb),
    fun hi => State.readRegister_hostRead (.inr hi), fun hb ht => ⟨_, State.drawSnapshot_mem ht, ?_⟩⟩
  refine ⟨?_, ?_, ?_, ?_⟩ <;> rintro rfl <;> exact State.readRegister_busy_hostRead hb (by decide)

/-! ### Words of the spec and register contents (R25 to R38, R45) -/

/-- Settles O3: the tables of 30_encoding.md, evaluated at eleven words. -/
theorem specWordsDecode : Obligations.SpecWordsDecode := by
  unfold Obligations.SpecWordsDecode
  decide

/-- Settles O51: `outLen` is written with a list sum, the statement with a sum over a range. -/
theorem outLenIsComputed : Obligations.OutLenIsComputed := by
  intro s length
  have hsum : s.bitsPerPixel = ∑ i ∈ Finset.range s.config.spp.toNat, (s.bps i).toNat := rfl
  have hlen : s.outLenExact = length := by
    simp only [State.outLenExact, State.bytesPerRow, hsum, length]
  have hreg : s.registerWord 7 = BitVec.ofNat 32 s.outLen := rfl
  have hle := s.outLen_le
  rw [hreg, BitVec.toNat_ofNat, Nat.mod_eq_of_lt (by omega), State.outLen, hlen]

/-- Reading a flag bit: `flagWord` sets the bits of `bit` or none. -/
theorem flagWord_getLsbD (bit : Word) (b : Bool) (k : Nat) : (flagWord bit b).getLsbD k = (b && bit.getLsbD k) := by
  cases b <;> simp [flagWord]

/-- A word `2 ^ i` has bit `i` and no other. -/
theorem twoPow_getLsbD_eq {i : Nat} (hi : i < 32) (k : Nat) : (BitVec.twoPow 32 i).getLsbD k = decide (k = i) := by
  rw [BitVec.getLsbD_twoPow, decide_eq_true hi, Bool.true_and]
  exact decide_eq_decide.mpr eq_comm

/-- R27. -/
theorem State.registerWord_ctrl_getLsbD (s : State) (k : Nat) :
    (s.registerWord 0).getLsbD k = (decide (k = 2) && s.irqEn) := by
  have h : s.registerWord 0 = flagWord (BitVec.twoPow 32 2) s.irqEn := rfl
  rw [h, flagWord_getLsbD, twoPow_getLsbD_eq (by decide), Bool.and_comm]

/-- R28. -/
theorem Status.word_getLsbD (st : Status) (k : Nat) : st.word.getLsbD k =
    (if k = 0 then st.busy else if k = 1 then st.done
    else if 4 ≤ k ∧ k < 8 then st.err.code.getLsbD (k - 4)
    else if k = 8 then st.wTrunc else if k = 9 then st.wOverrun
    else if k = 10 then st.wUnderfill else false) := by
  have h : st.word = flagWord (BitVec.twoPow 32 0) st.busy ||| flagWord (BitVec.twoPow 32 1) st.done |||
      (st.err.code.setWidth 32 <<< 4) ||| flagWord (BitVec.twoPow 32 8) st.wTrunc |||
      flagWord (BitVec.twoPow 32 9) st.wOverrun ||| flagWord (BitVec.twoPow 32 10) st.wUnderfill := rfl
  have herr : (st.err.code.setWidth 32 <<< 4).getLsbD k =
      (decide (4 ≤ k ∧ k < 8) && st.err.code.getLsbD (k - 4)) := by
    rw [BitVec.getLsbD_shiftLeft, BitVec.getLsbD_setWidth]
    by_cases h4 : k < 4
    · simp [h4, show ¬ 4 ≤ k by omega]
    by_cases h8 : k < 8
    · simp [h4, h8, show 4 ≤ k by omega, show k < 32 by omega, show k - 4 < 32 by omega]
    · simp [h8, BitVec.getLsbD_of_ge st.err.code (k - 4) (by omega)]
  simp only [h, BitVec.getLsbD_or, flagWord_getLsbD, herr, twoPow_getLsbD_eq (show 0 < 32 by decide),
    twoPow_getLsbD_eq (show 1 < 32 by decide), twoPow_getLsbD_eq (show 8 < 32 by decide),
    twoPow_getLsbD_eq (show 9 < 32 by decide), twoPow_getLsbD_eq (show 10 < 32 by decide)]
  split_ifs with h0 h1 h4 h8 h9 h10
  · simp [h0]
  · simp [h1]
  · simp [h0, h1, h4, show k ≠ 8 by omega, show k ≠ 9 by omega, show k ≠ 10 by omega]
  · simp [h8]
  · simp [h9]
  · simp [h10]
  · simp [h0, h1, h4, h8, h9, h10]

/-- R37. -/
theorem LzwRegs.word_getLsbD (z : LzwRegs) (k : Nat) : z.word.getLsbD k =
    (if k < 13 then z.tsize.getLsbD k else if 16 ≤ k ∧ k < 20 then z.cw.getLsbD (k - 16) else false) := by
  rw [LzwRegs.word, BitVec.getLsbD_or, BitVec.getLsbD_shiftLeft, BitVec.getLsbD_setWidth, BitVec.getLsbD_setWidth]
  split_ifs with h13 h16
  · simp [show k < 16 by omega, show k < 32 by omega]
  · rw [BitVec.getLsbD_of_ge z.tsize k (by omega)]
    simp [show ¬ k < 16 by omega, show k < 32 by omega, show k - 16 < 32 by omega]
  · rw [BitVec.getLsbD_of_ge z.tsize k (by omega)]
    by_cases hk : k < 16
    · simp [hk]
    · simp [BitVec.getLsbD_of_ge z.cw (k - 16) (by omega)]

/-- R25, R38: above LZW_STATE stand the reserved offsets, reading 0, and SDESC[i] at offset `4 * (16 + i)`. -/
theorem State.registerWord_of_ge (s : State) {index : Fin 32} (h : 11 ≤ index.val) :
    s.registerWord index = if 16 ≤ index.val then s.sdescWord (index.val - 16) else 0 := by
  rw [State.registerWord]
  iterate 11 rw [if_neg (by omega)]

/-- Settles O52: the STATUS and LZW_STATE words bit by bit. -/
theorem registersHoldTheirFields : Obligations.RegistersHoldTheirFields := fun s k =>
  ⟨s.registerWord_ctrl_getLsbD k, s.status.word_getLsbD k, rfl, rfl, s.lzw.word_getLsbD k,
    fun _ h h' => by rw [s.registerWord_of_ge h, if_neg (by omega)]⟩

/-- R45: an SDESC below MAX_SPP is reset to 8 bits per sample. -/
theorem State.resetOf_sdescWord (p : Config.Params) {i : Nat} (hi : i < 16) :
    (State.resetOf p).sdescWord i = if i < p.maxSpp then 0x00000008#32 else 0 := by
  have h8 : ConfigRegs.reset.sdesc[i]? = some 0x00000008#32 := by simp [ConfigRegs.reset, hi]
  simp [State.sdescWord, State.resetOf, h8]

/-- R34, R45: with WIDTH = ROWS = 0 there is no output. -/
theorem State.resetOf_outLen (p : Config.Params) : (State.resetOf p).outLen = 0 := by
  have h : (State.resetOf p).outLenExact = 0 := Nat.mul_zero _
  exact Nat.le_zero.mp (h ▸ State.outLen_le_exact _)

/-- Settles O50: the fixed registers evaluate; OUT_LEN and SDESC read the parameters. -/
theorem resetRegisterValues : Obligations.ResetRegisterValues := by
  intro p _
  refine ⟨fun index => ?_, rfl, rfl, fun _ => rfl⟩
  by_cases h11 : 11 ≤ index.val
  · have h5 : index ≠ 5 := by rintro rfl; simp at h11
    have h10 : index ≠ 10 := by rintro rfl; simp at h11
    rw [State.registerWord_of_ge _ h11, State.resetOf_sdescWord p (by omega)]
    simp only [if_neg h5, if_neg h10, ite_and]
    rfl
  · have hlow : index = 0 ∨ index = 1 ∨ index = 2 ∨ index = 3 ∨ index = 4 ∨ index = 5 ∨ index = 6 ∨ index = 7 ∨
        index = 8 ∨ index = 9 ∨ index = 10 := by omega
    have hstatus : Status.reset.word = 0#32 := by decide
    have hlzw : LzwRegs.reset.word = 0x00090102#32 := by decide
    rcases hlow with rfl | rfl | rfl | rfl | rfl | rfl | rfl | rfl | rfl | rfl | rfl
    exacts [rfl, hstatus, rfl, rfl, rfl, rfl, rfl, congrArg (BitVec.ofNat 32) (State.resetOf_outLen p), rfl, rfl, hlzw]

/-! ### The invariant in layers

`State.Inv` says what holds in every phase at once. The proofs go by phase, so the invariant is taken apart into what holds
always (`Sound`), while an operation runs (`Running`), once the start check has passed (`Active`) and during a decode
(`Decodes`), and put together again once per phase. -/

/-- The part of the invariant that does not depend on whether an operation runs. -/
structure State.Sound (s : State) : Prop where
  params : s.params.legal = true
  modeBits : s.config.mode &&& ~~~modeMask = 0
  sdescBits : ∀ i : Fin 16, s.config.sdesc[i] &&& ~~~sdescMask = 0
  inForm : Memory.wf s.inBuf = true
  inBound : ∀ c ∈ s.inBuf, c.1 < s.params.inCap
  outForm : Memory.wf s.outBuf = true
  outBound : ∀ c ∈ s.outBuf, c.1 < s.params.outCap
  lzw : s.lzw.Ok

/-- What holds in every phase of a running operation. -/
structure State.Running (s : State) : Prop extends s.Sound where
  busy : s.status.busy = true
  done : s.status.done = false
  err : s.status.err = .none
  trail : s.trail ≠ []
  cursorBound : s.cursor.toNat ≤ 8 * s.config.inLen.toNat
  cursorByte : s.comp = 1 → s.cursor.toNat % 8 = 0
  outPosBound : s.outPos.toNat ≤ s.outLen
  lzwOnly : s.comp ≠ 2 → s.lzw = LzwRegs.reset

/-- A running operation that has passed the start check. -/
structure State.Active (s : State) : Prop extends s.Running where
  passed : s.configCheck = .none

/-- A decode loop that is running, but for what PREV is. -/
structure State.Decodes (s : State) : Prop extends s.Active where
  phase : s.phase = .decode
  comp : s.comp = 1 ∨ s.comp = 2
  noTrunc : s.status.wTrunc = false
  noUnderfill : s.status.wUnderfill = false
  overrunFull : s.status.wOverrun = true → s.outLen ≤ s.outPos.toNat

/-- R12, R42: PREV is a dictionary string shorter than the entry it can start. -/
def LzwRegs.PrevFits (z : LzwRegs) : Prop := ∀ p ∈ z.prev, p.length ≤ z.tsize.toNat - 257 ∧ z.holds p

/-- The phases that may follow a decode loop that has returned 0 (R109, R181): a row that is due, or the finish step
without an error. -/
def State.PhaseDue (s : State) (x : Phase) : Prop :=
  x = .finish .none ∨ ∃ r, x = .predict r ∧ r < s.config.rows.toNat ∧ (s.pred = 1 ∨ s.pred = 2)

/-! ### Taking the invariant apart -/

theorem State.Inv.sound {s : State} (h : s.Inv) : s.Sound :=
  ⟨h.params, h.modeBits, h.sdescBits, h.inForm, h.inBound, h.outForm, h.outBound, h.lzw⟩

theorem State.Inv.running {s : State} (h : s.Inv) (hb : s.status.busy = true) : s.Running where
  toSound := h.sound
  busy := hb
  done := (h.busyDone hb).1
  err := (h.busyDone hb).2
  trail := h.trailBusy.mp hb
  cursorBound := h.cursorBound hb
  cursorByte := h.cursorByte hb
  outPosBound := h.outPosBound hb
  lzwOnly := h.lzwOnly hb

theorem State.Inv.active {s : State} (h : s.Inv) (hb : s.status.busy = true) (hp : ∀ e, s.phase ≠ .finish e) :
    s.Active where
  toRunning := h.running hb
  passed := (h.checked hb).resolve_left fun ⟨e, he⟩ => hp e he

theorem State.Inv.decodes {s : State} (h : s.Inv) (hp : s.phase = .decode) : s.Decodes := by
  obtain ⟨hTrunc, hUnderfill, hOverrun⟩ := h.decodeWarnings hp
  have hb : s.status.busy = true := h.busyPhase.mpr (by simp [hp])
  exact { h.active hb (by simp [hp]) with
    phase := hp, comp := h.decodeComp hp, noTrunc := hTrunc, noUnderfill := hUnderfill, overrunFull := hOverrun }

/-! ### Putting the invariant together, phase by phase -/

/-- An idle block. -/
theorem State.Sound.inv_idle {s : State} (h : s.Sound) (hb : s.status.busy = false) (hp : s.phase = .idle)
    (ht : s.trail = [])
    (hw : s.status.err ≠ .none → s.status.wTrunc = false ∧ s.status.wUnderfill = false ∧
      (s.status.wOverrun = true → s.status.err = .lzwTableFull))
    (he : s.status.err.isConfiguration = true →
      s.cursor = 0 ∧ s.outPos = 0 ∧ s.lzw = LzwRegs.reset ∧ s.status.wOverrun = false) : s.Inv := by
  have hrep : ∀ e, s.reports e → s.status.err = e := by
    rintro e (h | h)
    · exact h
    · simp [hp] at h
  exact { h with
    busyPhase := by simp [hb, hp]
    trailBusy := by simp [hb, ht]
    busyDone := by simp [hb]
    cursorBound := by simp [hb]
    cursorByte := by simp [hb]
    outPosBound := by simp [hb]
    lzwOnly := by simp [hb]
    checked := by simp [hb]
    decodeComp := by simp [hp]
    decodeWarnings := by simp [hp]
    decodePrev := by simp [hp]
    predictRow := by simp [hp]
    errorWarnings := fun e hr hne => by obtain rfl := hrep e hr; exact hw hne
    errorEarly := fun e hr hc => by obtain rfl := hrep e hr; exact he hc }

/-- A running operation reports no code but the one of its finish step. -/
theorem State.Running.phase_of_reports {s : State} (h : s.Running) {e : ErrCode} (hr : s.reports e)
    (hne : e ≠ .none) : s.phase = .finish e := by
  rcases hr with hr | hr
  · exact absurd (h.err.symm.trans hr).symm hne
  · exact hr

/-- A running operation, whatever its phase. -/
theorem State.Running.inv {s : State} (h : s.Running) (hi : s.phase ≠ .idle)
    (hc : (∃ e, s.phase = .finish e) ∨ s.configCheck = .none)
    (hd : s.phase = .decode → s.Decodes ∧ s.lzw.PrevFits)
    (hr : ∀ r, s.phase = .predict r → r < s.config.rows.toNat ∧ (s.pred = 1 ∨ s.pred = 2))
    (hw : ∀ e, s.phase = .finish e → e ≠ .none → s.status.wTrunc = false ∧ s.status.wUnderfill = false ∧
      (s.status.wOverrun = true → e = .lzwTableFull))
    (he : ∀ e, s.phase = .finish e → e.isConfiguration = true →
      s.cursor = 0 ∧ s.outPos = 0 ∧ s.lzw = LzwRegs.reset ∧ s.status.wOverrun = false) : s.Inv :=
  { h with
    busyPhase := by simp [h.busy, hi]
    trailBusy := by simp [h.busy, h.trail]
    busyDone := fun _ => ⟨h.done, h.err⟩
    cursorBound := fun _ => h.cursorBound
    cursorByte := fun _ => h.cursorByte
    outPosBound := fun _ => h.outPosBound
    lzwOnly := fun _ => h.lzwOnly
    checked := fun _ => hc
    decodeComp := fun hp => (hd hp).1.comp
    decodeWarnings := fun hp => ⟨(hd hp).1.noTrunc, (hd hp).1.noUnderfill, (hd hp).1.overrunFull⟩
    decodePrev := fun hp => (hd hp).2
    predictRow := hr
    errorWarnings := fun e hrep hne => hw e (h.phase_of_reports hrep hne) hne
    errorEarly := fun e hrep hconf =>
      have hne : e ≠ .none := by rintro rfl; simp [ErrCode.isConfiguration] at hconf
      he e (h.phase_of_reports hrep hne) hconf }

/-- The finish step with an error comes next. -/
theorem State.Running.inv_finish {s : State} (h : s.Running) {e : ErrCode} (hp : s.phase = .finish e)
    (hTrunc : s.status.wTrunc = false) (hUnderfill : s.status.wUnderfill = false)
    (hOverrun : s.status.wOverrun = true → e = .lzwTableFull)
    (he : e.isConfiguration = true → s.cursor = 0 ∧ s.outPos = 0 ∧ s.lzw = LzwRegs.reset ∧ s.status.wOverrun = false) :
    s.Inv := by
  refine h.inv (by simp [hp]) (.inl ⟨e, hp⟩) (by simp [hp]) (by simp [hp]) ?_ ?_
  · rintro e' he' -
    obtain rfl : e = e' := by simpa [hp] using he'
    exact ⟨hTrunc, hUnderfill, hOverrun⟩
  · rintro e' he'
    obtain rfl : e = e' := by simpa [hp] using he'
    exact he

/-- The predictor or the finish step without an error comes next. -/
theorem State.Active.inv_due {s : State} (h : s.Active) (hx : s.PhaseDue s.phase) : s.Inv := by
  rcases hx with hx | ⟨r, hx, hrow⟩
  · have hnone : ∀ e, s.phase = .finish e → e = .none := fun e he => by simpa [hx, eq_comm] using he
    refine h.inv (by simp [hx]) (.inr h.passed) (by simp [hx]) (by simp [hx]) ?_ ?_
    · exact fun e he hne => absurd (hnone e he) hne
    · rintro e he hconf
      obtain rfl := hnone e he
      simp [ErrCode.isConfiguration] at hconf
  · refine h.inv (by simp [hx]) (.inr h.passed) (by simp [hx]) ?_ (by simp [hx]) (by simp [hx])
    intro r' hr'
    obtain rfl : r = r' := by simpa [hx] using hr'
    exact hrow

/-- The decode loop goes on. -/
theorem State.Decodes.inv {s : State} (h : s.Decodes) (hf : s.lzw.PrevFits) : s.Inv :=
  h.toRunning.inv (by simp [h.phase]) (.inr h.passed) (fun _ => ⟨h, hf⟩) (by simp [h.phase]) (by simp [h.phase])
    (by simp [h.phase])

/-- R40: noting the values reached keeps the invariant. -/
theorem State.Inv.noted {s : State} (h : s.Inv) : s.noted.Inv := by
  unfold State.noted
  split
  · next hb => exact { h with trailBusy := by simp [hb] }
  · exact h

/-! ### Resets (R45, R117, R240) -/

theorem State.softReset_inv {s : State} (hp : s.params.legal = true) (hif : Memory.wf s.inBuf = true)
    (hib : ∀ c ∈ s.inBuf, c.1 < s.params.inCap) (hof : Memory.wf s.outBuf = true)
    (hob : ∀ c ∈ s.outBuf, c.1 < s.params.outCap) : s.softReset.Inv := by
  have hmode : ConfigRegs.reset.mode &&& ~~~modeMask = 0 := by decide
  have hsdesc : ∀ i : Fin 16, ConfigRegs.reset.sdesc[i] &&& ~~~sdescMask = 0 := by decide
  have hsound : s.softReset.Sound := ⟨hp, hmode, hsdesc, hif, hib, hof, hob, .ofReset⟩
  exact hsound.inv_idle rfl rfl rfl (fun hne => absurd rfl hne) (fun _ => ⟨rfl, rfl, rfl, rfl⟩)

/-- The soft reset changes nothing in a state that is already reset. -/
theorem State.softReset_resetOf (p : Config.Params) : (State.resetOf p).softReset = State.resetOf p := rfl

theorem State.hardReset_inv {s : State} (hp : s.params.legal = true) : s.hardReset.Inv :=
  State.softReset_inv (s := { s with inBuf := [], outBuf := [], powerUps := s.powerUps + 1 }) hp rfl
    (by simp) rfl (by simp)

/-- Settles O53: a reset state is its own soft reset. -/
theorem resetMeetsInvariant : Obligations.ResetMeetsInvariant := by
  have h : ∀ p : Config.Params, p.legal = true → (State.resetOf p).Inv := fun p hp => by
    rw [← State.softReset_resetOf]
    exact State.softReset_inv hp rfl (by simp [State.resetOf]) rfl (by simp [State.resetOf])
  exact ⟨h, h _ (by decide)⟩

/-! ### The host's moves keep the invariant -/

/-- Nothing in the invariant speaks of IRQ_EN or of the model's own fields. -/
theorem State.Inv.withHostFields {s : State} (h : s.Inv) (irqEn : Bool) (turns : List Turn) (hostRead : HostValue)
    (draws : Nat) :
    ({ s with irqEn := irqEn, turns := turns, hostRead := hostRead, draws := draws } : State).Inv := { h with }

/-- R118. -/
theorem State.Inv.doneAck {s : State} (h : s.Inv) :
    ({ s with status := { s.status with done := false } } : State).Inv :=
  { h with busyDone := fun hb => ⟨rfl, (h.busyDone hb).2⟩ }

/-- A change of the host to an idle block that keeps its buffers and configuration sound. -/
theorem State.Inv.of_idle {s t : State} (h : s.Inv) (hb : s.status.busy = false) (ht : t.Sound)
    (hstatus : t.status = s.status) (hcursor : t.cursor = s.cursor) (hpos : t.outPos = s.outPos)
    (hlzw : t.lzw = s.lzw) (hphase : t.phase = s.phase) (htrail : t.trail = s.trail) : t.Inv := by
  have hidle : s.phase = .idle := by simpa [hb] using h.busyPhase
  have hempty : s.trail = [] := by simpa [hb] using h.trailBusy
  refine ht.inv_idle (hstatus ▸ hb) (hphase.trans hidle) (htrail.trans hempty) ?_ ?_
  · rw [hstatus]
    exact h.errorWarnings _ (.inl rfl)
  · rw [hstatus, hcursor, hpos, hlzw]
    exact h.errorEarly _ (.inl rfl)

/-- R119: a configuration write leaves the reserved bits 0. -/
theorem State.Sound.storeConfig {s : State} (h : s.Sound) (reg : CfgReg) (data : Word) :
    (s.storeConfig reg data).Sound := by
  have hmask : ∀ m : Word, data &&& m &&& ~~~m = 0 := fun m => by
    simp [BitVec.and_assoc]
  cases reg with
  | mode => exact { h with modeBits := hmask modeMask }
  | sdesc i =>
    simp only [State.storeConfig]
    split
    · refine { h with sdescBits := fun j => ?_ }
      have hj := h.sdescBits j
      simp only [Fin.getElem_fin] at hj ⊢
      rw [Vector.getElem_set]
      split
      · exact hmask sdescMask
      · exact hj
    · exact h
  | _ => exact { h with }

/-- R51: a byte write of the host stays within the capacity. -/
theorem State.Inv.hostWriteByte {s : State} (h : s.Inv) (buffer : Config.Buffer) (a : Nat) (v : Byte) :
    (s.hostWriteByte buffer a v).Inv := by
  unfold State.hostWriteByte
  split
  · exact h
  next hb =>
  have hb : s.status.busy = false := by simpa using hb
  split
  · exact h
  next hcap =>
  cases buffer with
  | input =>
    have hbound : ∀ c ∈ (s.writeIn a v).inBuf, c.1 < s.params.inCap := fun c hc => by
      rcases Store.mem_set hc with rfl | hc
      · exact Nat.lt_of_not_le hcap
      · exact h.inBound c hc
    exact h.of_idle hb { h.sound with inForm := State.writeIn_wf a v h.inForm, inBound := hbound } rfl rfl rfl rfl rfl rfl
  | output =>
    have hbound : ∀ c ∈ (s.writeOut a v).outBuf, c.1 < s.params.outCap := fun c hc => by
      rcases Store.mem_set hc with rfl | hc
      · exact Nat.lt_of_not_le hcap
      · exact h.outBound c hc
    exact h.of_idle hb { h.sound with outForm := State.writeOut_wf a v h.outForm, outBound := hbound } rfl rfl rfl rfl rfl
      rfl

/-! ### START (R101 to R103) -/

theorem State.enterPredictor_eq (s : State) : ∃ x, s.PhaseDue x ∧ s.enterPredictor = { s with phase := x } := by
  unfold State.enterPredictor
  split
  · next h =>
    exact ⟨.predict 0, .inr ⟨0, rfl, h.2, h.1.imp BitVec.toNat_eq.mpr BitVec.toNat_eq.mpr⟩, rfl⟩
  · exact ⟨.finish .none, .inl rfl, rfl⟩

/-- An operation just begun: R101 and R102 have cleared STATUS, CURSOR, OUT_POS and the LZW datapath. -/
def State.begun (s : State) (x : Phase) (trail : List Snapshot) : State :=
  { ({ s with status := Status.started } : State).initOperation with phase := x, trail := trail }

theorem State.Sound.begun {s : State} (h : s.Sound) (x : Phase) {trail : List Snapshot} (ht : trail ≠ []) :
    (s.begun x trail).Running :=
  { h with
    lzw := .ofReset
    busy := rfl
    done := rfl
    err := rfl
    trail := ht
    cursorBound := Nat.zero_le _
    cursorByte := fun _ => rfl
    outPosBound := Nat.zero_le _
    lzwOnly := fun _ => rfl }

/-- R103, R109: the START step leaves an operation just begun, in the phase the start check leads to. -/
theorem State.startStep_eq (s : State) : ∃ x trail, trail ≠ [] ∧ s.startStep = s.begun x trail ∧
    (s.configCheck ≠ .none ∧ x = .finish s.configCheck ∨
      s.configCheck = .none ∧ (x = .decode ∧ (s.comp = 1 ∨ s.comp = 2) ∨ s.PhaseDue x)) := by
  have hcheck : (({ s with status := Status.started } : State).initOperation).configCheck = s.configCheck :=
    State.configCheck_congr rfl rfl rfl rfl
  simp only [State.startStep, hcheck]
  split
  · next hc =>
    unfold State.enterOperation
    split
    · next hcomp =>
      exact ⟨.decode, _, List.cons_ne_nil _ _, rfl, .inr ⟨hc, .inl ⟨rfl, hcomp.imp BitVec.toNat_eq.mpr BitVec.toNat_eq.mpr⟩⟩⟩
    · obtain ⟨x, hx, he⟩ := (({ s with status := Status.started } : State).initOperation).enterPredictor_eq
      rw [he]
      exact ⟨x, _, List.cons_ne_nil _ _, rfl, .inr ⟨hc, .inr hx⟩⟩
  · next hc => exact ⟨_, _, List.cons_ne_nil _ _, rfl, .inl ⟨hc, rfl⟩⟩

theorem State.Inv.startStep {s : State} (h : s.Inv) : s.startStep.Inv := by
  obtain ⟨x, trail, ht, heq, hx⟩ := s.startStep_eq
  have hrun : (s.begun x trail).Running := h.sound.begun x ht
  have hcheck : (s.begun x trail).configCheck = s.configCheck := State.configCheck_congr rfl rfl rfl rfl
  rw [heq]
  rcases hx with ⟨-, rfl⟩ | ⟨hc, ⟨rfl, hcomp⟩ | hx⟩
  · exact hrun.inv_finish rfl rfl rfl (fun hw => absurd hw Bool.false_ne_true) fun _ => ⟨rfl, rfl, rfl, rfl⟩
  · have hdec : (s.begun .decode trail).Decodes :=
      { hrun with
        passed := hcheck.trans hc, phase := rfl, comp := hcomp, noTrunc := rfl, noUnderfill := rfl
        overrunFull := fun hw => absurd hw Bool.false_ne_true }
    exact hdec.inv (by rintro p ⟨⟩)
  · exact State.Active.inv_due { hrun with passed := hcheck.trans hc } hx

/-- The commands of the host (R101, R117 to R119). -/
theorem State.Inv.writeReg {s t : State} (h : s.Inv) {index : Fin 32} {data : Word}
    (ht : hostStep (.writeReg index data) s = .next t) : t.Inv := by
  have hirq : ({ s with irqEn := data.getLsbD 2 } : State).Inv := h.withHostFields _ s.turns s.hostRead s.draws
  rcases hostStep_writeReg_cases index data s with
    ⟨-, -, hw⟩ | ⟨-, -, -, hw⟩ | ⟨-, -, -, hw⟩ | ⟨-, -, hw⟩ | ⟨-, reg, hw⟩ | ⟨-, hw⟩ <;> rw [hw] at ht
  · unfold execSrst at ht
    split at ht <;> cases ht
    · exact hirq
    · exact State.softReset_inv h.params h.inForm h.inBound h.outForm h.outBound
  · unfold execStart at ht
    split at ht <;> cases ht
    · exact hirq
    · exact hirq.startStep
  · cases ht; exact hirq
  · cases ht; exact h.doneAck
  · unfold execConfigWrite at ht
    split at ht <;> cases ht
    · exact h
    · next hb =>
      exact h.of_idle (by simpa using hb) (h.sound.storeConfig reg data) (by simp) (by simp) (by simp) (by simp) (by simp)
        (by simp)
  · cases ht; exact h

/-- Whatever the host does, the invariant stays. -/
theorem State.Inv.hostStep {s t : State} (h : s.Inv) {move : HostMove} (ht : hostStep move s = .next t) : t.Inv := by
  cases move with
  | writeReg index data => exact h.writeReg ht
  | readReg index =>
    cases ht
    rw [s.readRegister_frame index]
    exact h.withHostFields s.irqEn s.turns _ _
  | writeByte buffer a v => cases ht; exact h.hostWriteByte buffer a v
  | readByte buffer a =>
    cases ht
    unfold State.hostReadByte
    split
    · exact h.withHostFields s.irqEn s.turns _ _
    · exact h.withHostFields s.irqEn s.turns _ s.draws
  | hardReset => cases ht; exact State.hardReset_inv h.params

/-! ### How far a step of the block reaches

`s.Within t` says what `t` may differ in from `s` after any part of a step of the block. It composes, so it is shown once
for each operation of the block. -/

structure State.Within (s t : State) : Prop where
  frame : t = { s with
    status := t.status, cursor := t.cursor, outPos := t.outPos, lzw := t.lzw, outBuf := t.outBuf
    phase := t.phase, trail := t.trail }
  cursor : s.cursor.toNat ≤ t.cursor.toNat
  outPos : s.outPos.toNat ≤ t.outPos.toNat
  bytes : ∀ a, s.outLen ≤ a → t.readOut a = s.readOut a

theorem State.Within.outLen {s t : State} (h : s.Within t) : t.outLen = s.outLen := by
  rw [h.frame]; exact State.outLen_congr rfl rfl

theorem State.Within.trans {s t u : State} (h : s.Within t) (k : t.Within u) : s.Within u where
  frame := by rw [k.frame, h.frame]
  cursor := h.cursor.trans k.cursor
  outPos := h.outPos.trans k.outPos
  bytes a ha := (k.bytes a (h.outLen.symm ▸ ha)).trans (h.bytes a ha)

/-- A part of a step that touches neither CURSOR nor OUT_POS nor OUT. -/
theorem State.Within.of_frame {s t : State}
    (h : t = { s with status := t.status, lzw := t.lzw, phase := t.phase, trail := t.trail }) : s.Within t where
  frame := by rw [h]
  cursor := by rw [h]
  outPos := by rw [h]
  bytes a _ := by rw [h]; rfl

theorem State.Within.warn (w : Warning) (s : State) : s.Within (s.warn w) := .of_frame rfl

theorem State.Within.fatal (e : ErrCode) (s : State) : s.Within (s.fatal e) := .of_frame rfl

theorem State.Within.finish (e : ErrCode) (s : State) : s.Within (s.finish e) := .of_frame rfl

theorem State.Within.clearTable (s : State) : s.Within s.clearTable := .of_frame rfl

theorem State.Within.withLzw (s : State) (z : LzwRegs) : s.Within { s with lzw := z } := .of_frame rfl

theorem State.Within.withPhase (s : State) (x : Phase) : s.Within { s with phase := x } := .of_frame rfl

theorem State.Within.noted (s : State) : s.Within s.noted := .of_frame (by unfold State.noted; split <;> rfl)

/-- R63: `Emit` writes below OUT_LEN only. -/
theorem State.Within.emitAll (bs : Bytes) (s : State) : s.Within (s.emitAll bs) := by
  have he := s.emitAll_emitted bs
  have hpos := he.outPos
  refine ⟨?_, by simp, by omega, fun a ha => ?_⟩
  · rw [he.frame]
  · rw [he.bytes, if_neg (by omega)]

/-! ### The ends of a decode loop (R109, R211) -/

theorem State.Active.withStatus {s : State} (h : s.Active) {st : Status} (hb : st.busy = s.status.busy)
    (hd : st.done = s.status.done) (he : st.err = s.status.err) : ({ s with status := st } : State).Active :=
  { h with busy := hb.trans h.busy, done := hd.trans h.done, err := he.trans h.err }

theorem State.Active.warn {s : State} (h : s.Active) (w : Warning) : (s.warn w).Active := by
  cases w <;> exact h.withStatus rfl rfl rfl

theorem State.Active.enterPredictor {s : State} (h : s.Active) : s.Within s.enterPredictor ∧ s.enterPredictor.Inv := by
  obtain ⟨x, hx, he⟩ := s.enterPredictor_eq
  rw [he]
  exact ⟨.withPhase s x, State.Active.inv_due { h with } hx⟩

/-- R109: a decode loop that returns 0. -/
theorem State.Active.afterDecode {s : State} (h : s.Active) : s.Within s.afterDecode ∧ s.afterDecode.Inv := by
  unfold State.afterDecode
  split
  · obtain ⟨hw, hi⟩ := (h.warn .underfill).enterPredictor
    exact ⟨(State.Within.warn .underfill s).trans hw, hi⟩
  · exact h.enterPredictor

/-- R130 to R132, R158: a decode loop that the end of the input stops. -/
theorem State.Active.truncated {s : State} (h : s.Active) :
    s.Within (s.warn .trunc).afterDecode ∧ (s.warn .trunc).afterDecode.Inv := by
  obtain ⟨hw, hi⟩ := (h.warn .trunc).afterDecode
  exact ⟨(State.Within.warn .trunc s).trans hw, hi⟩

/-- R211, R214: a decode loop that an error of the stream stops. -/
theorem State.Active.fatal {s : State} (h : s.Active) {e : ErrCode} (hTrunc : s.status.wTrunc = false)
    (hUnderfill : s.status.wUnderfill = false) (hOverrun : s.status.wOverrun = true → e = .lzwTableFull)
    (he : e.isConfiguration = false) : s.Within (s.fatal e) ∧ (s.fatal e).Inv :=
  ⟨.fatal e s, State.Running.inv_finish (s := s.fatal e) { h.toRunning with } rfl hTrunc hUnderfill hOverrun
    (by simp [he])⟩

/-! ### Input and output of a decode step -/

/-- R107: no sum of CURSOR and a number of bits within the input overflows. -/
theorem State.Active.advance_cursor {s : State} (h : s.Active) (hcomp : s.comp = 1 ∨ s.comp = 2) {n : Nat}
    (hn : s.cursor.toNat + n ≤ 8 * s.config.inLen.toNat) : (s.advance n).cursor.toNat = s.cursor.toNat + n := by
  have hlen := State.inLen_le h.params h.passed hcomp
  rw [State.advance_cursor, BitVec.toNat_add, BitVec.toNat_ofNat]
  omega

/-- R15: input consumed within IN_LEN. -/
theorem State.Active.advance {s : State} (h : s.Active) (hcomp : s.comp = 1 ∨ s.comp = 2) {n : Nat}
    (hn : s.cursor.toNat + n ≤ 8 * s.config.inLen.toNat) (h8 : s.comp = 1 → n % 8 = 0) :
    s.Within (s.advance n) ∧ (s.advance n).Active := by
  have hc := h.advance_cursor hcomp hn
  refine ⟨⟨rfl, by omega, le_rfl, fun _ _ => rfl⟩, { h with cursorBound := ?_, cursorByte := fun h1 => ?_ }⟩
  · rw [hc]; exact hn
  · have hbyte := h.cursorByte h1
    have hn8 := h8 h1
    rw [hc]; omega

theorem State.Decodes.advance {s : State} (h : s.Decodes) {n : Nat}
    (hn : s.cursor.toNat + n ≤ 8 * s.config.inLen.toNat) (h8 : s.comp = 1 → n % 8 = 0) :
    s.Within (s.advance n) ∧ (s.advance n).Decodes := by
  obtain ⟨hw, ha⟩ := h.toActive.advance h.comp hn h8
  exact ⟨hw, { ha, h with }⟩

/-- What `Emit` may change, kept within its bounds, keeps a decode a decode. -/
theorem State.Decodes.withOutput {s : State} (h : s.Decodes) {pos : Word} {buf : Memory} {overrun : Bool}
    (hform : Memory.wf buf = true) (hbound : ∀ c ∈ buf, c.1 < s.params.outCap) (hpos : pos.toNat ≤ s.outLen)
    (hover : overrun = true → s.outLen ≤ pos.toNat) :
    ({ s with outPos := pos, outBuf := buf, status := { s.status with wOverrun := overrun } } : State).Decodes :=
  { h with outForm := hform, outBound := hbound, outPosBound := hpos, overrunFull := hover }

/-- R63: `Emit` in a decode. -/
theorem State.Decodes.emitAll {s : State} (h : s.Decodes) (bs : Bytes) : (s.emitAll bs).Decodes := by
  have he := s.emitAll_emitted bs
  obtain ⟨hstatus, hmono, hle, hfull⟩ := he.warnings h.outPosBound
  obtain ⟨hexact, hcap⟩ := State.outLen_exact h.params h.passed
  have heq : s.emitAll bs = { s with
      outPos := (s.emitAll bs).outPos, outBuf := (s.emitAll bs).outBuf
      status := { s.status with wOverrun := (s.emitAll bs).status.wOverrun } } := he.frame.trans (by rw [← hstatus])
  rw [heq]
  exact h.withOutput (State.emitAll_wf h.outForm) (State.emitAll_bound (hexact.trans_le hcap) h.outBound) hle fun hw =>
    (hfull hw).elim (fun hs => (h.overrunFull hs).trans hmono) id

/-! ### PackBits (R130 to R133) -/

/-- With CURSOR on a byte of the input, that byte is within IN_LEN. -/
theorem State.Decodes.byteHere_room {s : State} (h : s.Decodes) (hcomp : s.comp = 1) {b : Byte}
    (hb : s.byteHere = some b) : s.cursor.toNat + 8 ≤ 8 * s.config.inLen.toNat := by
  have hbyte := h.cursorByte hcomp
  have hlt : ¬ s.config.inLen.toNat ≤ s.cursor.toNat / 8 := fun hle => by
    simp [State.byteHere, hle] at hb
  omega

/-- Only an LZW operation has a PREV. -/
theorem State.Decodes.prevFits_of_packBits {s : State} (h : s.Decodes) (hcomp : s.comp = 1) : s.lzw.PrevFits := by
  rw [h.lzwOnly (by simp [hcomp])]
  rintro p ⟨⟩

theorem State.Decodes.literalLoop (n : Nat) {s : State} (h : s.Decodes) (hcomp : s.comp = 1) :
    s.Within (literalLoop n s) ∧ (Machine.literalLoop n s).Inv := by
  induction n generalizing s with
  | zero => exact ⟨.of_frame rfl, h.inv (h.prevFits_of_packBits hcomp)⟩
  | succ n ih =>
    rw [Machine.literalLoop]
    split
    · exact h.truncated
    · next b hb =>
      have hroom : (s.emit b).cursor.toNat + 8 ≤ 8 * (s.emit b).config.inLen.toNat := by
        simpa using h.byteHere_room hcomp hb
      obtain ⟨hw, hd⟩ := (h.emitAll [b]).advance hroom fun _ => rfl
      obtain ⟨hw', hi⟩ := ih hd (by simpa using hcomp)
      exact ⟨((State.Within.emitAll [b] s).trans hw).trans hw', hi⟩

theorem State.Decodes.runRecord {s t : State} (h : s.Decodes) (hcomp : s.comp = 1) {r : Record}
    (ht : runRecord r s = .next t) : s.Within t ∧ t.Inv := by
  cases r with
  | nop => cases ht; exact ⟨.of_frame rfl, h.inv (h.prevFits_of_packBits hcomp)⟩
  | literal c => cases ht; exact h.literalLoop _ hcomp
  | replicate u =>
    rw [Machine.runRecord, execPbReplicate] at ht
    split at ht <;> cases ht
    · exact h.truncated
    · next b hb =>
      obtain ⟨hw, hd⟩ := h.advance (h.byteHere_room hcomp hb) fun _ => rfl
      have he := hd.emitAll (List.replicate (replicateCount u) b)
      exact ⟨hw.trans (.emitAll _ _), he.inv (he.prevFits_of_packBits (by simpa using hcomp))⟩

theorem State.Decodes.packBitsStep {s t : State} (h : s.Decodes) (hcomp : s.comp = 1)
    (ht : packBitsStep s = .next t) : s.Within t ∧ t.Inv := by
  unfold Machine.packBitsStep at ht
  split at ht
  · cases ht; exact h.afterDecode
  split at ht
  · cases ht; exact h.truncated
  · next u hu =>
    obtain ⟨hw, hd⟩ := h.advance (h.byteHere_room hcomp hu) fun _ => rfl
    obtain ⟨hw', hi⟩ := hd.runRecord (by simpa using hcomp) ht
    exact ⟨hw.trans hw', hi⟩

/-! ### LZW (R151 to R163) -/

/-- R152: a code that has been read fits in the input, and CURSOR is past it. -/
theorem State.readCode_some {s t : State} {code : Nat} (h : s.readCode = some (code, t)) :
    s.cursor.toNat + s.lzw.cw.toNat ≤ 8 * s.config.inLen.toNat ∧ t = s.advance s.lzw.cw.toNat := by
  unfold State.readCode at h
  split at h
  · cases h
  · cases h; exact ⟨by omega, rfl⟩

/-- A change of the LZW datapath by an LZW operation. -/
theorem State.Active.withLzw {s : State} (h : s.Active) (hcomp : s.comp = 2) {z : LzwRegs} (hz : z.Ok) :
    ({ s with lzw := z } : State).Active :=
  { h with lzw := hz, lzwOnly := fun hne => absurd hcomp hne }

theorem State.Decodes.withLzw {s : State} (h : s.Decodes) (hcomp : s.comp = 2) {z : LzwRegs} (hz : z.Ok) :
    ({ s with lzw := z } : State).Decodes :=
  { h.toActive.withLzw hcomp hz, h with }

/-- R153: the datapath after the addition of `entry`, with PREV = `str`. -/
def LzwRegs.afterAdd (z : LzwRegs) (str entry : Bytes) : LzwRegs :=
  { dict := Store.set z.dict z.tsize.toNat entry, tsize := z.tsize + 1, cw := widthAfter (z.tsize + 1) z.cw,
    prev := some str }

/-- R159 to R161 with room in the table, as one change of the datapath. -/
theorem State.emitAndAdd_eq {s : State} (str entry : Bytes) (h : s.lzw.tsize.toNat < 4096) :
    s.emitAndAdd str entry = { s.emitAll str with lzw := s.lzw.afterAdd str entry } := by
  simp only [State.emitAndAdd, State.addEntry, State.emitAll_lzw, if_neg (show ¬ s.lzw.tsize.toNat = 4096 by omega),
    State.setPrev, LzwRegs.afterAdd]

/-- R12, R42: the new PREV is in the dictionary, if it was before or is the entry just added, and fits the next entry. -/
theorem LzwRegs.Ok.prevFits_afterAdd {z : LzwRegs} (h : z.Ok) {str entry : Bytes} (hroom : z.tsize.toNat < 4096)
    (hlen : str.length ≤ z.tsize.toNat - 256) (hstr : z.holds str ∨ str = entry) :
    (z.afterAdd str entry).PrevFits := by
  have hlow := h.low
  have htsize : (z.tsize + 1).toNat = z.tsize.toNat + 1 := by simp [BitVec.toNat_add]; omega
  have hsub : z.tsize.toNat + 1 - 257 = z.tsize.toNat - 256 := Nat.add_sub_add_right _ 1 256
  have hlen' : str.length ≤ (z.tsize + 1).toNat - 257 := by rw [htsize, hsub]; exact hlen
  rintro p ⟨⟩
  refine ⟨hlen', ?_⟩
  unfold LzwRegs.holds LzwRegs.afterAdd
  rw [h.set_dict]
  rcases hstr with (hone | hmem) | rfl
  · exact .inl hone
  · exact .inr (by rw [List.map_append]; exact List.mem_append_left _ hmem)
  · exact .inr (by simp)

/-- R159 to R161: the string is emitted, and the previous string with the first byte `x` of it is added. -/
theorem State.Decodes.emitAndAdd {s : State} (h : s.Decodes) (hcomp : s.comp = 2) (hfits : s.lzw.PrevFits) {p : Bytes}
    (hp : s.lzw.prev = some p) {str : Bytes} (x : Byte) (h1 : 1 ≤ str.length)
    (hlen : str.length ≤ s.lzw.tsize.toNat - 256) (hstr : s.lzw.holds str ∨ str = p ++ [x]) :
    s.Within (s.emitAndAdd str (p ++ [x])) ∧ (s.emitAndAdd str (p ++ [x])).Inv := by
  have he := h.emitAll str
  by_cases hroom : s.lzw.tsize.toNat < 4096
  · obtain ⟨hplen, hholds⟩ := hfits p hp
    have hp1 := (h.lzw.prevLength p hp).1
    have hok : (s.lzw.afterAdd str (p ++ [x])).Ok :=
      h.lzw.added x str hroom hholds hp1 hplen h1 (by omega)
    rw [State.emitAndAdd_eq _ _ hroom]
    exact ⟨(State.Within.emitAll str s).trans (.withLzw _ _),
      (he.withLzw (by simpa using hcomp) hok).inv (h.lzw.prevFits_afterAdd hroom hlen hstr)⟩
  · have hfull : s.lzw.tsize.toNat = 4096 := by have := h.lzw.high; omega
    rw [State.emitAndAdd_full _ _ hfull]
    obtain ⟨hw, hi⟩ := he.toActive.fatal he.noTrunc he.noUnderfill (fun _ => rfl) rfl
    exact ⟨(State.Within.emitAll str s).trans hw, hi⟩

/-- R159, R160: a code whose string is in the dictionary. -/
theorem State.Decodes.emitAndAdd_entry {s : State} (h : s.Decodes) (hcomp : s.comp = 2) (hfits : s.lzw.PrevFits)
    {p : Bytes} (hp : s.lzw.prev = some p) {str : Bytes} (h1 : 1 ≤ str.length)
    (hlen : str.length ≤ s.lzw.tsize.toNat - 256) (hstr : s.lzw.holds str) :
    s.Within (s.emitAndAdd str (p ++ str.take 1)) ∧ (s.emitAndAdd str (p ++ str.take 1)).Inv := by
  cases str with
  | nil => simp at h1
  | cons x rest => exact h.emitAndAdd hcomp hfits hp x h1 hlen (.inl hstr)

/-- R163. -/
theorem State.Decodes.noClear {s : State} (h : s.Decodes) (hover : s.status.wOverrun = false) :
    s.Within (s.fatal .lzwNoClear) ∧ (s.fatal .lzwNoClear).Inv :=
  h.toActive.fatal h.noTrunc h.noUnderfill (fun hw => by simp [hover] at hw) rfl

/-- R156: the first code after a CLEAR, with the table just cleared. -/
theorem State.Decodes.lzwFirst {s t : State} (h : s.Decodes) (hcomp : s.comp = 2) (hclear : s.lzw.tsize = 258)
    {c : Byte} (ht : execLzwFirst c s = .next t) : s.Within t ∧ t.Inv := by
  cases ht
  rw [s.entry_byte c]
  have he := h.emitAll [c]
  have hok : ({ s.lzw with prev := some [c] } : LzwRegs).Ok := h.lzw.withPrev [c] (by simp) (by simp)
  have hfits : ({ s.lzw with prev := some [c] } : LzwRegs).PrevFits := by
    rintro p ⟨⟩
    exact ⟨by simp [hclear], .inl rfl⟩
  have hset : (s.emitAll [c]).setPrev [c] = { s.emitAll [c] with lzw := { s.lzw with prev := some [c] } } := by
    simp [State.setPrev]
  rw [hset]
  exact ⟨(State.Within.emitAll [c] s).trans (.withLzw _ _), (he.withLzw (by simpa using hcomp) hok).inv hfits⟩

/-- R155: CLEAR and the code after it. -/
theorem State.Decodes.lzwClear {s t : State} (h : s.Decodes) (hcomp : s.comp = 2)
    (hover : s.status.wOverrun = false) (ht : execLzwClear s = .next t) : s.Within t ∧ t.Inv := by
  have hclear : s.clearTable.Decodes := h.withLzw hcomp h.lzw.cleared
  suffices hs : s.clearTable.Within t ∧ t.Inv from ⟨(State.Within.clearTable s).trans hs.1, hs.2⟩
  unfold execLzwClear at ht
  split at ht
  · cases ht; exact hclear.truncated
  next code u hread =>
  obtain ⟨hroom, rfl⟩ := State.readCode_some hread
  obtain ⟨hw, hd⟩ := hclear.advance hroom (by simp [hcomp])
  suffices hs : (s.clearTable.advance s.clearTable.lzw.cw.toNat).Within t ∧ t.Inv from ⟨hw.trans hs.1, hs.2⟩
  split at ht
  · cases ht; exact hd.afterDecode
  split at ht
  · cases ht; exact hd.toActive.fatal hd.noTrunc hd.noUnderfill (by simp [hover]) rfl
  · exact hd.lzwFirst (by simpa using hcomp) rfl ht

/-- R84: what the class of a code read by the loop says of the code. -/
theorem classOf_bounds {ctx : LzwContext} (hctx : ctx.afterClear = false) (ht : ctx.tsize ≤ 4096) {code : Nat} :
    (∀ c, classOf ctx code ≠ .first c) ∧
      ∀ c, classOf ctx code = .table c → 258 ≤ c.toNat ∧ c.toNat < ctx.tsize := by
  unfold classOf
  simp only [hctx, Bool.false_eq_true, if_false]
  split_ifs with hend hclear hprev hlit htab hpend
  · simp
  · simp
  · simp
  · simp
  · refine ⟨by simp, ?_⟩
    rintro c ⟨⟩
    rw [BitVec.toNat_ofNat, Nat.mod_eq_of_lt (by omega)]
    omega
  · simp
  · simp

/-- R154 to R163: the meaning of a code the loop has read. -/
theorem State.Decodes.runCode {s t : State} (h : s.Decodes) (hcomp : s.comp = 2) (hfits : s.lzw.PrevFits)
    (hover : s.status.wOverrun = false) {k : CodeClass} (hfirst : ∀ c, k ≠ .first c)
    (htable : ∀ c, k = .table c → 258 ≤ c.toNat ∧ c.toNat < s.lzw.tsize.toNat) (ht : runCode k s = .next t) :
    s.Within t ∧ t.Inv := by
  have hlow := h.lzw.low
  cases k with
  | clear => exact h.lzwClear hcomp hover ht
  | endCode => cases ht; exact h.afterDecode
  | first c => exact absurd rfl (hfirst c)
  | literal c =>
    rw [Machine.runCode, execLzwLiteral, s.entry_byte c] at ht
    split at ht <;> cases ht
    · exact h.noClear hover
    · next p hp => exact h.emitAndAdd_entry hcomp hfits hp (by simp) (by simp; omega) (.inl rfl)
  | table c =>
    obtain ⟨hc1, hc2⟩ := htable c rfl
    obtain ⟨str, hget, hmem, hlen, hlen'⟩ := h.lzw.entry hc1 hc2
    have hentry : s.entry c.toNat = str := by
      rw [State.entry, if_neg (by omega), hget]; rfl
    have hshort : str.length ≤ s.lzw.tsize.toNat - 256 := hlen'.trans (Nat.sub_le_sub_right hc2.le 256)
    rw [Machine.runCode, execLzwTable, hentry] at ht
    split at ht <;> cases ht
    · exact h.noClear hover
    · next p hp =>
      exact h.emitAndAdd_entry hcomp hfits hp (by omega) hshort (.inr (List.mem_map_of_mem (f := Prod.snd) hmem))
  | pending =>
    rw [Machine.runCode, execLzwPending] at ht
    split at ht <;> cases ht
    · exact h.noClear hover
    · next p hp =>
      have hp1 := (h.lzw.prevLength p hp).1
      have hplen := (hfits p hp).1
      cases p with
      | nil => simp at hp1
      | cons x rest => exact h.emitAndAdd hcomp hfits hp x (by simp) (by simp at hplen ⊢; omega) (.inr rfl)
  | invalid c => cases ht; exact h.toActive.fatal h.noTrunc h.noUnderfill (by simp [hover]) rfl
  | noClear c => cases ht; exact h.noClear hover
  | implicitEnd => cases ht; exact h.truncated

/-- R154: one iteration of the loop. -/
theorem State.Decodes.lzwStep {s t : State} (h : s.Decodes) (hcomp : s.comp = 2) (hfits : s.lzw.PrevFits)
    (ht : lzwStep s = .next t) : s.Within t ∧ t.Inv := by
  unfold Machine.lzwStep at ht
  split at ht
  · cases ht; exact h.afterDecode
  next hroom =>
  have hover : s.status.wOverrun = false := by
    rw [← Bool.not_eq_true]; exact fun hw => hroom (h.overrunFull hw)
  split at ht
  · cases ht; exact h.truncated
  · next code u hread =>
    obtain ⟨hin, rfl⟩ := State.readCode_some hread
    obtain ⟨hw, hd⟩ := h.advance hin (by simp [hcomp])
    obtain ⟨hfirst, htable⟩ := classOf_bounds (ctx := s.lzwContext) rfl h.lzw.high (code := code)
    obtain ⟨hw', hi⟩ := hd.runCode (by simpa using hcomp) hfits hover hfirst htable ht
    exact ⟨hw.trans hw', hi⟩

/-! ### The predictor (R181 to R189) -/

theorem State.readOut_outWrite_of_outside (s : State) {a n v c : Nat} (h : c < a ∨ a + n ≤ c) :
    (s.outWrite a n v).readOut c = s.readOut c := by
  have hlen : (if s.littleEndian then (bigEndianBytes n v).reverse else bigEndianBytes n v).length = n := by
    split <;> simp [bigEndianBytes_length]
  rw [State.outWrite, State.readOut_writeBytes]
  split
  · rw [List.getElem?_eq_none (by omega)]; rfl
  · rfl

/-- HPRED_ROW changes no byte outside the samples it goes over. -/
theorem hpredLoop_readOut_of_outside {b base k i c : Nat} {s : State}
    (h : c < base + i * b ∨ base + (i + k) * b ≤ c) : (hpredLoop b base k i s).readOut c = s.readOut c := by
  induction k generalizing i s with
  | zero => rfl
  | succ k ih =>
    have hnext : (i + 1) * b = i * b + b := by ring
    have hlast : (i + (k + 1)) * b = (i + 1 + k) * b := by ring
    have hle : (i + 1) * b ≤ (i + 1 + k) * b := Nat.mul_le_mul_right _ (by omega)
    rw [hpredLoop, ih (by omega), State.readOut_outWrite_of_outside _ (by omega)]

theorem hpredRow_readOut_of_outside {b r c : Nat} {s : State} (h : ¬ s.inRow b r c) :
    (hpredRow b (s.rowBase b r) s).readOut c = s.readOut c := by
  unfold State.inRow at h
  by_cases hle : s.config.spp.toNat ≤ s.samplesPerRow
  · have hspp : s.config.spp.toNat + (s.samplesPerRow - s.config.spp.toNat) = s.samplesPerRow := by omega
    refine hpredLoop_readOut_of_outside ?_
    rw [hspp]
    omega
  · rw [hpredRow, show s.samplesPerRow - s.config.spp.toNat = 0 by omega]; rfl

theorem fpredRow_readOut_of_outside {b r c : Nat} {s : State} (h : ¬ s.inRow b r c) :
    (fpredRow b (s.rowBase b r) s).readOut c = s.readOut c := by
  unfold State.inRow at h
  rw [fpredRow, State.readOut_writeBytes]
  split
  · rw [List.getElem?_eq_none (by simp [regroup]; omega)]; rfl
  · rfl

/-- R87: a sub-operation is HPRED_ROW or FPRED_ROW at the depth that selects it. -/
theorem runRow_eq_rowStep {pred : BitVec 2} {bps : Byte} {op : RowOp} (h : rowOpOf pred bps = .ok op) :
    ∃ b row, bps.toNat = 8 * b ∧ (row = hpredRow ∨ row = fpredRow) ∧ runRow op = rowStep b row := by
  unfold rowOpOf at h
  split at h <;> cases h
  case h_1 hb => exact ⟨1, _, hb, .inl rfl, rfl⟩
  case h_2 hb => exact ⟨2, _, hb, .inl rfl, rfl⟩
  case h_3 hb => exact ⟨4, _, hb, .inl rfl, rfl⟩
  case h_4 hb => exact ⟨2, _, hb, .inr rfl, rfl⟩
  case h_5 hb => exact ⟨3, _, hb, .inr rfl, rfl⟩
  case h_6 hb => exact ⟨4, _, hb, .inr rfl, rfl⟩
  case h_7 hb => exact ⟨8, _, hb, .inr rfl, rfl⟩

/-- Reversing row `r` changes OUT only, keeps its form and the bounds of its addresses, and leaves what is outside the
row. -/
theorem rowReversed {row : Nat → Nat → State → State} (hrow : row = hpredRow ∨ row = fpredRow) {b r n : Nat}
    {s : State} (hb : (r + 1) * (s.samplesPerRow * b) ≤ n) (hform : Memory.wf s.outBuf = true)
    (hbound : ∀ c ∈ s.outBuf, c.1 < n) :
    ∃ m, row b (s.rowBase b r) s = { s with outBuf := m } ∧ Memory.wf m = true ∧ (∀ c ∈ m, c.1 < n) ∧
      ∀ a, ¬ s.inRow b r a → ({ s with outBuf := m } : State).readOut a = s.readOut a := by
  rcases hrow with rfl | rfl
  · have hframe : hpredRow b (s.rowBase b r) s = { s with outBuf := (hpredRow b (s.rowBase b r) s).outBuf } :=
      hpredLoop_frame _ _ _ _ _
    obtain ⟨hwf, hb'⟩ := hpredRow_wf hb hform hbound
    exact ⟨_, hframe, hwf, hb', fun a ha => hframe ▸ hpredRow_readOut_of_outside ha⟩
  · have hframe : fpredRow b (s.rowBase b r) s = { s with outBuf := (fpredRow b (s.rowBase b r) s).outBuf } :=
      State.writeBytes_frame _ _ _
    obtain ⟨hwf, hb'⟩ := fpredRow_wf hb hform hbound
    exact ⟨_, hframe, hwf, hb', fun a ha => hframe ▸ fpredRow_readOut_of_outside ha⟩

/-- R106: an operation with a predictor has passed the check that all depths are equal. -/
theorem State.uniformBps_of_predictor {s : State} (hc : s.configCheck = .none) (hp : s.pred = 1 ∨ s.pred = 2) :
    s.uniformBps = true := by
  obtain ⟨-, -, hok, -⟩ := State.configCheck_none hc
  unfold State.predictorOk at hok
  rcases hp with hp | hp <;> simp [hp] at hok
  · obtain ⟨-, hu, -⟩ := hok
    exact hu
  · obtain ⟨-, -, ⟨hu, -⟩, -⟩ := hok
    exact hu

theorem State.nextRow_eq {s : State} (hp : s.pred = 1 ∨ s.pred = 2) (r : Nat) :
    ∃ x, s.PhaseDue x ∧ s.nextRow r = { s with phase := x } := by
  unfold State.nextRow
  split
  · next hr => exact ⟨_, .inr ⟨r + 1, rfl, hr, hp⟩, rfl⟩
  · exact ⟨_, .inl rfl, rfl⟩

/-- R181: one predictor step. -/
theorem State.Active.predictorStep {s t : State} (h : s.Active) {r : Nat} (hphase : s.phase = .predict r)
    (hr : r < s.config.rows.toNat) (hp : s.pred = 1 ∨ s.pred = 2) (ht : predictorStep s.pred s = .next t) :
    s.Within t ∧ t.Inv := by
  unfold Machine.predictorStep at ht
  split at ht
  case h_2 => cases ht
  next op hop =>
  obtain ⟨b, row, hbps, hrow, hrun⟩ := runRow_eq_rowStep hop
  simp only [hrun, rowStep, hphase] at ht
  cases ht
  obtain ⟨hlen, hcap⟩ := State.outLen_exact h.params h.passed
  have hrows := State.outLenExact_uniform (State.uniformBps_of_predictor h.passed hp) hbps
  have hle : (r + 1) * (s.samplesPerRow * b) ≤ s.outLenExact := by
    rw [hrows]; exact Nat.mul_le_mul_right _ hr
  obtain ⟨m, heq, hform, hbound, hbytes⟩ := rowReversed hrow (hle.trans hcap) h.outForm h.outBound
  have hwithin : s.Within { s with outBuf := m } := by
    refine ⟨rfl, le_rfl, le_rfl, fun a ha => hbytes a fun ⟨_, hlt⟩ => ?_⟩
    have hend : s.rowBase b r + s.samplesPerRow * b = (r + 1) * (s.samplesPerRow * b) := by
      rw [State.rowBase]; ring
    omega
  have hactive : ({ s with outBuf := m } : State).Active := { h with outForm := hform, outBound := hbound }
  obtain ⟨x, hx, hnext⟩ := State.nextRow_eq (s := { s with outBuf := m }) hp r
  rw [heq, hnext]
  exact ⟨hwithin.trans (.withPhase _ x), State.Active.inv_due { hactive with } hx⟩

/-! ### Steps (R100, R109, R110) -/

/-- R81: the operation of MODE predicts as PRED says and decodes as COMP says. -/
theorem exec_operation_eq {s : State} {i : Instr} (h : decode (.operation s.config.mode) = .ok i) :
    ∃ d, exec i s = operationStep d s.pred s ∧ (s.comp = 1 → d = packBitsStep) ∧ (s.comp = 2 → d = lzwStep) := by
  rw [decode, decodeOperation] at h
  split at h
  case h_7 => split at h <;> cases h
  all_goals
    next hpred hcomp =>
    cases h
    have hp : s.pred = _ := (BitVec.toNat_eq_nat.mp hpred).2
    have hc : s.comp = _ := (BitVec.toNat_eq_nat.mp hcomp).2
    rw [hp, hc]
    exact ⟨_, rfl, by simp, by simp⟩

/-- What a step of the block can be: the finish step, a predictor step or a decode step, with the values it reaches
noted. -/
theorem blockStep_cases {s t : State} (h : s.Inv) (hb : s.status.busy = true) (ht : blockStep s = .next t) :
    ∃ u, t = u.noted ∧
      ((∃ e, s.phase = .finish e ∧ u = s.finish e) ∨
        (∃ r, s.phase = .predict r ∧ predictorStep s.pred s = .next u) ∨
        (s.phase = .decode ∧ s.comp = 1 ∧ packBitsStep s = .next u) ∨
        (s.phase = .decode ∧ s.comp = 2 ∧ lzwStep s = .next u)) := by
  have hidle : s.phase ≠ .idle := h.busyPhase.mp hb
  rw [blockStep, if_pos hb] at ht
  split at ht <;> cases ht
  next u hu =>
  refine ⟨u, rfl, ?_⟩
  split at hu
  · next i hi =>
    obtain ⟨d, hexec, hpack, hlzw⟩ := exec_operation_eq hi
    rw [hexec, operationStep] at hu
    split at hu
    case h_1 hp => exact absurd hp hidle
    case h_2 hp =>
      rcases h.decodeComp hp with hc | hc
      · exact .inr (.inr (.inl ⟨hp, hc, hpack hc ▸ hu⟩))
      · exact .inr (.inr (.inr ⟨hp, hc, hlzw hc ▸ hu⟩))
    case h_3 r hp => exact .inr (.inl ⟨r, hp, hu⟩)
    case h_4 e hp => cases hu; exact .inl ⟨e, hp, rfl⟩
  · rw [rejectedStep] at hu
    split at hu <;> cases hu
    case h_1.refl e hp => exact .inl ⟨e, hp, rfl⟩
    case h_2.refl hp => exact absurd hp hidle

/-- R110: the finish step. -/
theorem State.Inv.finish {s : State} (h : s.Inv) {e : ErrCode} (hp : s.phase = .finish e) : (s.finish e).Inv :=
  State.Sound.inv_idle { h.sound with } rfl rfl rfl (h.errorWarnings e (.inr hp)) (h.errorEarly e (.inr hp))

/-- A step of the running operation reaches no further than `Within` says and keeps the invariant. -/
theorem blockStep_within_inv {s t : State} (h : s.Inv) (hb : s.status.busy = true) (ht : blockStep s = .next t) :
    s.Within t ∧ t.Inv := by
  obtain ⟨u, rfl, hu⟩ := blockStep_cases h hb ht
  suffices hs : s.Within u ∧ u.Inv from ⟨hs.1.trans (.noted u), hs.2.noted⟩
  rcases hu with ⟨e, hp, rfl⟩ | ⟨r, hp, hu⟩ | ⟨hp, hc, hu⟩ | ⟨hp, hc, hu⟩
  · exact ⟨.finish e s, h.finish hp⟩
  · obtain ⟨hr, hpred⟩ := h.predictRow r hp
    exact (h.active hb (by simp [hp])).predictorStep hp hr hpred hu
  · exact (h.decodes hp).packBitsStep hc hu
  · exact (h.decodes hp).lzwStep hc (h.decodePrev hp) hu

theorem blockStep_idle {s : State} (hb : s.status.busy = false) : blockStep s = .next s := by
  simp [blockStep, hb]

theorem State.Inv.blockStep {s t : State} (h : s.Inv) (ht : blockStep s = .next t) : t.Inv := by
  cases hb : s.status.busy with
  | true => exact (blockStep_within_inv h hb ht).2
  | false =>
    rw [blockStep_idle hb] at ht
    cases ht
    exact h

/-- Settles O54: a move of the host, or a step of the block, by the phase it is in. -/
theorem stepKeepsInvariant : Obligations.StepKeepsInvariant := by
  intro s t h ht
  have hrest : ∀ rest, ({ s with turns := rest } : State).Inv := fun rest => h.withHostFields s.irqEn rest s.hostRead s.draws
  unfold step at ht
  split at ht
  · exact (hrest _).hostStep ht
  · exact (hrest _).blockStep ht
  · exact h.blockStep ht

/-- Settles O56: what `Within` says of a step of the block. -/
theorem blockStepStaysWithinBounds : Obligations.BlockStepStaysWithinBounds := by
  intro s t h hb hturns ht
  unfold step at ht
  rw [hturns] at ht
  obtain ⟨hframe, hcursor, hpos, hbytes⟩ := (blockStep_within_inv h hb ht).1
  exact ⟨hframe, hcursor, hpos, hbytes⟩

end Sys2Proof.Machine

namespace Sys2Proof.Machine

/-! ### The host's byte accesses (R51) -/

theorem State.hostWriteByte_ignored {s : State} {buffer : Config.Buffer} {a : Nat}
    (h : s.status.busy = true ∨ s.capacity buffer ≤ a) (v : Byte) : s.hostWriteByte buffer a v = s := by
  unfold State.hostWriteByte
  rcases h with h | h
  · rw [if_pos h]
  · rw [if_pos h, ite_self]

theorem State.hostWriteByte_input {s : State} {a : Nat} (hb : s.status.busy = false) (h : a < s.params.inCap)
    (v : Byte) : s.hostWriteByte .input a v = s.writeIn a v := by
  have hcap : ¬ s.capacity .input ≤ a := Nat.not_le.mpr h
  simp only [State.hostWriteByte, hb, Bool.false_eq_true, if_false, if_neg hcap]

theorem State.hostWriteByte_output {s : State} {a : Nat} (hb : s.status.busy = false) (h : a < s.params.outCap)
    (v : Byte) : s.hostWriteByte .output a v = s.writeOut a v := by
  have hcap : ¬ s.capacity .output ≤ a := Nat.not_le.mpr h
  simp only [State.hostWriteByte, hb, Bool.false_eq_true, if_false, if_neg hcap]

theorem State.byteAt_input (s : State) (a : Nat) :
    s.byteAt .input a = if a < s.params.inCap then s.readIn a else 0 := by
  simp only [State.byteAt, State.capacity, ← Nat.not_lt, ite_not]

theorem State.byteAt_output (s : State) (a : Nat) :
    s.byteAt .output a = if a < s.params.outCap then s.readOut a else 0 := by
  simp only [State.byteAt, State.capacity, ← Nat.not_lt, ite_not]

theorem State.hostReadByte_idle {s : State} (hb : s.status.busy = false) (buffer : Config.Buffer) (a : Nat) :
    s.hostReadByte buffer a = { s with hostRead := .byte (s.byteAt buffer a) } := by
  simp [State.hostReadByte, hb]

theorem State.hostReadByte_frame (buffer : Config.Buffer) (a : Nat) (s : State) :
    s.hostReadByte buffer a =
      { s with hostRead := (s.hostReadByte buffer a).hostRead, draws := (s.hostReadByte buffer a).draws } := by
  unfold State.hostReadByte; split <;> rfl

/-- Settles O21: a write is `writeIn`, `writeOut` or nothing; a read changes only what the host has read. -/
theorem hostByteAccess : Obligations.HostByteAccess := by
  intro s a v
  refine ⟨fun hb ha => ⟨s.writeIn a v, ?_, rfl, fun b => s.readIn_writeIn a b v⟩,
    fun hb ha => ⟨s.writeOut a v, ?_, rfl, fun b => s.readOut_writeOut a b v⟩,
    fun h => ?_, fun h => ?_, fun hb => ?_, fun hb => ?_,
    fun _ buffer => ⟨_, rfl, s.hostReadByte_frame buffer a⟩⟩ <;> rw [hostStep]
  · rw [State.hostWriteByte_input hb ha]
  · rw [State.hostWriteByte_output hb ha]
  · rw [State.hostWriteByte_ignored h]
  · rw [State.hostWriteByte_ignored h]
  · rw [State.hostReadByte_idle hb, s.byteAt_input]
  · rw [State.hostReadByte_idle hb, s.byteAt_output]

/-! ### Input bytes and samples of OUT (R58, R59, R61, R62) -/

/-- Settles O29: with FILL_ORDER = 1 an input byte is `bitrev8` of the byte of IN. -/
theorem fillOrderReversesInputBytes : Obligations.FillOrderReversesInputBytes := by
  refine fun s => ⟨fun i k hk => ?_, fun _ => rfl⟩
  rw [State.inByte, State.lsbFirst]
  split
  · exact bitrev8_getLsbD _ k hk
  · rfl

/-- R61 with BYTE_ORDER = 0: the first byte is the most significant. -/
theorem State.bigEndianValue_outBytes (s : State) (a n : Nat) :
    bigEndianValue (s.outBytes a n) = ∑ j ∈ Finset.range n, (s.readOut (a + j)).toNat * 256 ^ (n - 1 - j) := by
  induction n generalizing a with
  | zero => rfl
  | succ n ih =>
    have hcons := bigEndianValue_append [s.readOut a] (s.outBytes (a + 1) n)
    rw [List.singleton_append] at hcons
    rw [State.outBytes, hcons, ih, State.outBytes_length, Finset.sum_range_succ', add_comm]
    congr 1
    · refine Finset.sum_congr rfl fun j _ => ?_
      rw [Nat.add_right_comm a 1 j, Nat.add_sub_cancel, show n - 1 - j = n - (j + 1) by omega, Nat.add_assoc]
    · simp [bigEndianValue]

/-- R61 with BYTE_ORDER = 1: the first byte is the least significant. -/
theorem State.bigEndianValue_outBytes_reverse (s : State) (a n : Nat) :
    bigEndianValue (s.outBytes a n).reverse = ∑ j ∈ Finset.range n, (s.readOut (a + j)).toNat * 256 ^ j := by
  induction n generalizing a with
  | zero => rfl
  | succ n ih =>
    rw [State.outBytes, List.reverse_cons, bigEndianValue_append, ih, Finset.sum_range_succ', Finset.sum_mul]
    congr 1
    refine Finset.sum_congr rfl fun j _ => ?_
    rw [Nat.add_right_comm a 1 j, Nat.add_assoc, pow_succ, List.length_singleton, pow_one, mul_assoc]

theorem two_pow_eight_mul (k : Nat) : 2 ^ (8 * k) = 256 ^ k := by rw [pow_mul]; norm_num

/-- R61. -/
theorem State.outRead_eq_sum (s : State) (a n : Nat) :
    s.outRead a n = ∑ j ∈ Finset.range n,
      (s.readOut (a + j)).toNat * 2 ^ (8 * (if s.littleEndian then j else n - 1 - j)) := by
  simp only [State.outRead, two_pow_eight_mul]
  split
  · exact s.bigEndianValue_outBytes_reverse a n
  · exact s.bigEndianValue_outBytes a n

/-- R62: a sample just written reads back. -/
theorem State.outRead_outWrite (s : State) (a : Nat) {n v : Nat} (h : v < 2 ^ (8 * n)) :
    (s.outWrite a n v).outRead a n = v := by
  have hlen := bigEndianBytes_length n v
  have hvalue : bigEndianValue (bigEndianBytes n v) = v := by
    rw [bigEndianValue_bytes, ← two_pow_eight_mul, Nat.mod_eq_of_lt h]
  rw [State.outRead, State.outWrite_littleEndian, State.outWrite]
  split
  · have hbytes := s.outBytes_writeBytes a (bigEndianBytes n v).reverse
    rw [List.length_reverse, hlen] at hbytes
    rw [hbytes, List.reverse_reverse, hvalue]
  · have hbytes := s.outBytes_writeBytes a (bigEndianBytes n v)
    rw [hlen] at hbytes
    rw [hbytes, hvalue]

/-- Settles O40: the sum, the read back and the frame of the sample accesses. -/
theorem outReadAfterOutWrite : Obligations.OutReadAfterOutWrite := fun s a n _ =>
  ⟨s.outRead_eq_sum a n, s.outRead_outWrite a, fun _ => s.readOut_outWrite_of_outside⟩

/-! ### No step stops (R57, R81, R87, R106)

A decode step answers a next state from any state. What can be missing is the operation or the predictor sub-operation,
and a passed start check excludes that. -/

theorem runRecord_next (r : Record) (s : State) : ∃ t, runRecord r s = .next t := by
  cases r with
  | nop => exact ⟨_, rfl⟩
  | literal c => exact ⟨_, rfl⟩
  | replicate u =>
    rw [runRecord, execPbReplicate]
    split <;> exact ⟨_, rfl⟩

theorem packBitsStep_next (s : State) : ∃ t, packBitsStep s = .next t := by
  rw [packBitsStep]
  split
  · exact ⟨_, rfl⟩
  · split
    · exact ⟨_, rfl⟩
    · exact runRecord_next _ _

theorem execLzwClear_next (s : State) : ∃ t, execLzwClear s = .next t := by
  rw [execLzwClear]
  split
  · exact ⟨_, rfl⟩
  · split
    · exact ⟨_, rfl⟩
    · split <;> exact ⟨_, rfl⟩

theorem runCode_next (k : CodeClass) (s : State) : ∃ t, runCode k s = .next t := by
  cases k with
  | clear => exact execLzwClear_next s
  | literal c => rw [runCode, execLzwLiteral]; split <;> exact ⟨_, rfl⟩
  | table c => rw [runCode, execLzwTable]; split <;> exact ⟨_, rfl⟩
  | pending => rw [runCode, execLzwPending]; split <;> exact ⟨_, rfl⟩
  | _ => exact ⟨_, rfl⟩

theorem lzwStep_next (s : State) : ∃ t, lzwStep s = .next t := by
  rw [lzwStep]
  split
  · exact ⟨_, rfl⟩
  · split <;> exact runCode_next _ _

/-- The decode loops of the operations: none, PackBits, LZW (R109). -/
def IsDecodeLoop (d : State → Host.Outcome State Fault Refusal) : Prop :=
  d = noDecode ∨ d = packBitsStep ∨ d = lzwStep

/-- R81: an operation word stands for a decode loop and the predictor of its PRED. -/
theorem exec_operation_fun {mode : Word} {i : Instr} (h : decode (.operation mode) = .ok i) :
    ∃ d, exec i = operationStep d (predOf mode) ∧ IsDecodeLoop d := by
  rw [decode, decodeOperation] at h
  split at h
  case h_7 => split at h <;> cases h
  all_goals
    next hpred _ =>
    cases h
    rw [show predOf mode = _ from (BitVec.toNat_eq_nat.mp hpred).2]
    exact ⟨_, rfl, by simp [IsDecodeLoop]⟩

theorem IsDecodeLoop.next {d : State → Host.Outcome State Fault Refusal} (h : IsDecodeLoop d) (s : State) :
    ∃ t, d s = .next t := by
  rcases h with rfl | rfl | rfl
  · exact ⟨_, rfl⟩
  · exact packBitsStep_next s
  · exact lzwStep_next s

/-- R106: the predictors that PredictorOK takes, each with its compressions and its sample depths. -/
theorem State.predictorOk_cases {s : State} (h : s.predictorOk = true) :
    s.pred.toNat = 0 ∨
    (s.pred.toNat = 1 ∧ s.comp.toNat ≠ 1 ∧
      ((s.bps 0).toNat = 8 ∨ (s.bps 0).toNat = 16 ∨ (s.bps 0).toNat = 32)) ∨
    (s.pred.toNat = 2 ∧ s.comp.toNat ≠ 1 ∧ s.comp.toNat ≠ 2 ∧
      ((s.bps 0).toNat = 16 ∨ (s.bps 0).toNat = 24 ∨ (s.bps 0).toNat = 32 ∨ (s.bps 0).toNat = 64)) := by
  unfold State.predictorOk at h
  split_ifs at h with h3 h0 hc1 hc2 h1
  · exact .inl h0
  · simp only [Bool.and_eq_true, List.contains_iff_mem, List.mem_cons, List.not_mem_nil, or_false] at h
    exact .inr (.inl ⟨h1, hc1, h.2⟩)
  · simp only [Bool.and_eq_true, List.contains_iff_mem, List.mem_cons, List.not_mem_nil, or_false] at h
    obtain ⟨⟨-, hbps⟩, -⟩ := h
    have h2 : s.pred.toNat = 2 := by omega
    exact .inr (.inr ⟨h2, hc1, fun hc => hc2 ⟨hc, h2⟩, hbps⟩)

/-- R105, R106: the MODE word of a passed start check selects an operation. -/
theorem decode_operation_of_checked {s : State} (h : s.configCheck = .none) :
    ∃ i, decode (.operation s.config.mode) = .ok i := by
  obtain ⟨hcomp, -, hok, -⟩ := State.configCheck_none h
  have hpairs := State.predictorOk_cases hok
  simp only [State.pred, State.comp] at hcomp hpairs
  rw [decode, decodeOperation]
  split
  case h_7 =>
    simp only [imp_false] at *
    omega
  all_goals exact ⟨_, rfl⟩

/-- R87, R106: PRED and BPS of a passed start check select a sub-operation. -/
theorem rowOpOf_of_checked {s : State} (h : s.configCheck = .none) (hp : s.pred = 1 ∨ s.pred = 2) :
    ∃ op, rowOpOf s.pred (s.bps 0) = .ok op := by
  obtain ⟨-, -, hok, -⟩ := State.configCheck_none h
  rcases State.predictorOk_cases hok with h0 | ⟨h1, -, hbps⟩ | ⟨h2, -, -, hbps⟩
  · rcases hp with hp | hp <;> simp [hp] at h0
  · rw [rowOpOf, h1]
    rcases hbps with hbps | hbps | hbps <;> rw [hbps] <;> exact ⟨_, rfl⟩
  · rw [rowOpOf, h2]
    rcases hbps with hbps | hbps | hbps | hbps <;> rw [hbps] <;> exact ⟨_, rfl⟩

theorem rowStep_next (b : Nat) (row : Nat → Nat → State → State) (s : State) : ∃ t, rowStep b row s = .next t := by
  rw [rowStep]
  split <;> exact ⟨_, rfl⟩

theorem predictorStep_next {s : State} (h : s.configCheck = .none) (hp : s.pred = 1 ∨ s.pred = 2) :
    ∃ t, predictorStep s.pred s = .next t := by
  obtain ⟨op, hop⟩ := rowOpOf_of_checked h hp
  obtain ⟨b, row, -, -, hrun⟩ := runRow_eq_rowStep hop
  simp only [predictorStep, hop, hrun]
  exact rowStep_next b row s

/-- R100: a step of a running operation answers a next state: with a failed start check only the finish step is left. -/
theorem State.Inv.operation_next {s : State} (h : s.Inv) (hb : s.status.busy = true) :
    (∃ i t, decode (.operation s.config.mode) = .ok i ∧ exec i s = .next t) ∨
      ∃ r t, decode (.operation s.config.mode) = .error r ∧ rejectedStep r s = .next t := by
  cases hdec : decode (.operation s.config.mode) with
  | ok i =>
    obtain ⟨d, hexec, hd⟩ := exec_operation_fun hdec
    refine .inl ⟨i, ?_⟩
    simp only [hexec, true_and, operationStep]
    split
    · exact ⟨_, rfl⟩
    · exact hd.next s
    · next r hphase => exact predictorStep_next (h.active hb (by simp [hphase])).passed (h.predictRow r hphase).2
    · exact ⟨_, rfl⟩
  | error r =>
    have hfinish : ∃ e, s.phase = .finish e := by
      refine (h.checked hb).resolve_right fun hc => ?_
      obtain ⟨i, hi⟩ := decode_operation_of_checked hc
      simp [hi] at hdec
    obtain ⟨e, he⟩ := hfinish
    exact .inr ⟨r, s.finish e, rfl, by simp only [rejectedStep, he]⟩

theorem State.Inv.blockStep_next {s : State} (h : s.Inv) : ∃ t, Machine.blockStep s = .next t := by
  cases hb : s.status.busy with
  | false => exact ⟨s, blockStep_idle hb⟩
  | true =>
    rcases h.operation_next hb with ⟨i, t, hdec, ht⟩ | ⟨r, t, hdec, ht⟩ <;>
      exact ⟨t.noted, by simp only [Machine.blockStep, if_pos hb, hdec, ht]⟩

theorem hostStep_writeReg_next (index : Fin 32) (data : Word) (s : State) :
    ∃ t, hostStep (.writeReg index data) s = .next t := by
  rcases hostStep_writeReg_cases index data s with
    ⟨-, -, h⟩ | ⟨-, -, -, h⟩ | ⟨-, -, -, h⟩ | ⟨-, -, h⟩ | ⟨-, reg, h⟩ | ⟨-, h⟩ <;> rw [h]
  · rw [execSrst]; split <;> exact ⟨_, rfl⟩
  · rw [execStart]; split <;> exact ⟨_, rfl⟩
  · exact ⟨_, rfl⟩
  · exact ⟨_, rfl⟩
  · rw [execConfigWrite]; split <;> exact ⟨_, rfl⟩
  · exact ⟨_, rfl⟩

theorem hostStep_next (move : HostMove) (s : State) : ∃ t, hostStep move s = .next t := by
  cases move with
  | writeReg index data => exact hostStep_writeReg_next index data s
  | _ => exact ⟨_, rfl⟩

/-- Settles O55: the host's moves stop in no state, the block's steps in none of the invariant. -/
theorem stepNeverStops : Obligations.StepNeverStops := by
  intro s h
  unfold step
  split
  · exact hostStep_next _ _
  · exact (h.withHostFields s.irqEn _ s.hostRead s.draws).blockStep_next
  · exact h.blockStep_next

/-! ### IN beyond IN_LEN (R53, R68)

From a state whose IN is replaced, a step of the block answers what it answered before, with that IN. Where it reads IN,
it has compared CURSOR with IN_LEN. -/

/-- The state with another IN. -/
def State.withIn (m : Memory) (s : State) : State := { s with inBuf := m }

@[simp] theorem State.withIn_status (m : Memory) (s : State) : (s.withIn m).status = s.status := rfl
@[simp] theorem State.withIn_config (m : Memory) (s : State) : (s.withIn m).config = s.config := rfl
@[simp] theorem State.withIn_lzw (m : Memory) (s : State) : (s.withIn m).lzw = s.lzw := rfl
@[simp] theorem State.withIn_phase (m : Memory) (s : State) : (s.withIn m).phase = s.phase := rfl
@[simp] theorem State.withIn_bps (m : Memory) (s : State) (i : Nat) : (s.withIn m).bps i = s.bps i := rfl

/-- What a step answers, with another IN in the next state. -/
def answerWithIn (m : Memory) : Host.Outcome State Fault Refusal → Host.Outcome State Fault Refusal
  | .next t => .next (t.withIn m)
  | .fault f => .fault f
  | .refused r => .refused r

@[simp] theorem answerWithIn_next (m : Memory) (t : State) : answerWithIn m (.next t) = .next (t.withIn m) := rfl

/-- IN and `m` hold the same bytes below IN_LEN. -/
def State.AgreesIn (m : Memory) (s : State) : Prop := ∀ a < s.config.inLen.toNat, (s.withIn m).readIn a = s.readIn a

theorem State.AgreesIn.congr {m : Memory} {s t : State} (h : s.AgreesIn m) (hc : t.config = s.config)
    (hb : t.inBuf = s.inBuf) (hu : t.powerUps = s.powerUps) : t.AgreesIn m := by
  intro a ha
  have hs := h a (hc ▸ ha)
  simp only [State.readIn, State.withIn] at hs ⊢
  rwa [hb, hu]

/-! #### Operations that do not read IN -/

theorem State.withIn_emit (m : Memory) (b : Byte) (s : State) : (s.withIn m).emit b = (s.emit b).withIn m := by
  rw [State.emit, State.emit, apply_ite (State.withIn m)]
  rfl

theorem State.withIn_emitAll (m : Memory) (bs : Bytes) (s : State) :
    (s.withIn m).emitAll bs = (s.emitAll bs).withIn m := by
  induction bs generalizing s with
  | nil => rfl
  | cons b bs ih => rw [State.emitAll, s.withIn_emit, ih, State.emitAll]

theorem State.withIn_enterPredictor (m : Memory) (s : State) :
    (s.withIn m).enterPredictor = s.enterPredictor.withIn m := by
  rw [State.enterPredictor, State.enterPredictor, apply_ite (State.withIn m)]
  rfl

theorem State.withIn_afterDecode (m : Memory) (s : State) : (s.withIn m).afterDecode = s.afterDecode.withIn m := by
  unfold State.afterDecode
  rw [apply_ite (State.withIn m), ← State.withIn_enterPredictor, ← State.withIn_enterPredictor]
  rfl

theorem State.withIn_noted (m : Memory) (s : State) : (s.withIn m).noted = s.noted.withIn m := by
  rw [State.noted, State.noted, apply_ite (State.withIn m)]
  rfl

theorem State.withIn_nextRow (m : Memory) (r : Nat) (s : State) : (s.withIn m).nextRow r = (s.nextRow r).withIn m := by
  rw [State.nextRow, State.nextRow, apply_ite (State.withIn m)]
  rfl

theorem State.withIn_addEntry (m : Memory) (str : Bytes) (s : State) :
    (s.withIn m).addEntry str = (s.addEntry str).map (State.withIn m) := by
  rw [State.addEntry, State.addEntry, apply_ite (Option.map (State.withIn m))]
  rfl

theorem State.withIn_emitAndAdd (m : Memory) (str entry : Bytes) (s : State) :
    (s.withIn m).emitAndAdd str entry = (s.emitAndAdd str entry).withIn m := by
  rw [State.emitAndAdd, State.emitAndAdd, s.withIn_emitAll, State.withIn_addEntry]
  cases (s.emitAll str).addEntry entry <;> rfl

theorem State.withIn_writeBytes (m : Memory) (a : Nat) (bs : Bytes) (s : State) :
    (s.withIn m).writeBytes a bs = (s.writeBytes a bs).withIn m := by
  induction bs generalizing a s with
  | nil => rfl
  | cons b bs ih => exact ih (a + 1) (s.writeOut a b)

theorem State.withIn_outRead (m : Memory) (a n : Nat) (s : State) : (s.withIn m).outRead a n = s.outRead a n :=
  State.outRead_congr a n (fun _ _ => rfl) rfl

theorem withIn_hpredLoop (m : Memory) (b base k i : Nat) (s : State) :
    hpredLoop b base k i (s.withIn m) = (hpredLoop b base k i s).withIn m := by
  induction k generalizing i s with
  | zero => rfl
  | succ k ih =>
    rw [hpredLoop, hpredLoop, ← ih, s.withIn_outRead, s.withIn_outRead]
    exact congrArg (hpredLoop b base k (i + 1)) (s.withIn_writeBytes m _ _)

/-- The predictor works on OUT. -/
theorem withIn_row {row : Nat → Nat → State → State} (hrow : row = hpredRow ∨ row = fpredRow) (m : Memory)
    (b base : Nat) (s : State) : row b base (s.withIn m) = (row b base s).withIn m := by
  rcases hrow with rfl | rfl
  · exact withIn_hpredLoop m b base _ _ s
  · have hbytes : (s.withIn m).outBytes base (s.samplesPerRow * b) = s.outBytes base (s.samplesPerRow * b) :=
      State.outBytes_congr _ _ fun _ _ => rfl
    rw [fpredRow, fpredRow, ← s.withIn_writeBytes, ← hbytes]
    rfl

theorem withIn_rowStep {row : Nat → Nat → State → State} (hrow : row = hpredRow ∨ row = fpredRow) (m : Memory)
    (b : Nat) (s : State) : rowStep b row (s.withIn m) = answerWithIn m (rowStep b row s) := by
  rw [rowStep, rowStep, State.withIn_phase]
  cases s.phase with
  | predict r =>
    simp only [answerWithIn_next, ← State.withIn_nextRow, ← withIn_row hrow]
    rfl
  | idle => rfl
  | decode => rfl
  | finish e => rfl

theorem withIn_predictorStep (m : Memory) (pred : BitVec 2) (s : State) :
    predictorStep pred (s.withIn m) = answerWithIn m (predictorStep pred s) := by
  rw [predictorStep, predictorStep, State.withIn_bps]
  cases hop : rowOpOf pred (s.bps 0) with
  | error r => rfl
  | ok op =>
    obtain ⟨b, row, -, hrow, hrun⟩ := runRow_eq_rowStep hop
    simp only [hrun]
    exact withIn_rowStep hrow m b s

/-! #### Input below IN_LEN -/

theorem State.AgreesIn.inByte {m : Memory} {s : State} (h : s.AgreesIn m) {i : Nat} (hi : i < s.config.inLen.toNat) :
    (s.withIn m).inByte i = s.inByte i := by
  have hfill : (s.withIn m).lsbFirst = s.lsbFirst := rfl
  rw [State.inByte, State.inByte, h i hi, hfill]

theorem State.AgreesIn.inBits {m : Memory} {s : State} (h : s.AgreesIn m) {p n : Nat}
    (hn : p + n ≤ 8 * s.config.inLen.toNat) : (s.withIn m).inBits p n = s.inBits p n := by
  induction n generalizing p with
  | zero => rfl
  | succ n ih => rw [State.inBits, State.inBits, State.inBit, State.inBit, h.inByte (by omega), ih (by omega)]

/-- R130 to R132: a byte is read below IN_LEN only. -/
theorem State.AgreesIn.byteHere {m : Memory} {s : State} (h : s.AgreesIn m) : (s.withIn m).byteHere = s.byteHere := by
  by_cases hend : s.config.inLen.toNat ≤ s.cursor.toNat / 8
  · exact (if_pos hend).trans (if_pos hend).symm
  · have hbyte := h.inByte (Nat.lt_of_not_le hend)
    rw [State.byteHere, State.byteHere, if_neg hend, ← hbyte]
    exact if_neg hend

/-- R152: a code is read if all its bits are below IN_LEN. -/
theorem State.AgreesIn.readCode {m : Memory} {s : State} (h : s.AgreesIn m) :
    (s.withIn m).readCode = s.readCode.map (Prod.map id (State.withIn m)) := by
  by_cases hend : 8 * s.config.inLen.toNat < s.cursor.toNat + s.lzw.cw.toNat
  · rw [State.readCode, State.readCode, if_pos hend]
    exact if_pos hend
  · rw [State.readCode, State.readCode, if_neg hend]
    refine (if_neg hend).trans ?_
    have hbits : (s.withIn m).inBits s.cursor.toNat s.lzw.cw.toNat = s.inBits s.cursor.toNat s.lzw.cw.toNat :=
      h.inBits (by omega)
    rw [← hbits]
    rfl

/-! #### Decode steps -/

theorem withIn_truncated (m : Memory) (s : State) :
    ((s.withIn m).warn .trunc).afterDecode = ((s.warn .trunc).afterDecode).withIn m :=
  State.withIn_afterDecode m (s.warn .trunc)

/-- R131. -/
theorem withIn_literalLoop {m : Memory} {s : State} (h : s.AgreesIn m) (n : Nat) :
    literalLoop n (s.withIn m) = (literalLoop n s).withIn m := by
  induction n generalizing s with
  | zero => rfl
  | succ n ih =>
    rw [literalLoop, literalLoop, h.byteHere]
    cases s.byteHere with
    | none => exact withIn_truncated m s
    | some b =>
      simp only [s.withIn_emit]
      exact ih (s := (s.emit b).advance 8) (h.congr (by simp) (by simp) (by simp))

theorem withIn_runRecord {m : Memory} {s : State} (h : s.AgreesIn m) (r : Record) :
    runRecord r (s.withIn m) = answerWithIn m (runRecord r s) := by
  cases r with
  | nop => rfl
  | literal c => exact congrArg Host.Outcome.next (withIn_literalLoop h (literalCount c))
  | replicate u =>
    rw [runRecord, runRecord, execPbReplicate, execPbReplicate, h.byteHere]
    cases s.byteHere with
    | none => exact congrArg Host.Outcome.next (withIn_truncated m s)
    | some b => exact congrArg Host.Outcome.next ((s.advance 8).withIn_emitAll m (List.replicate (replicateCount u) b))

/-- R130. -/
theorem withIn_packBitsStep {m : Memory} {s : State} (h : s.AgreesIn m) :
    packBitsStep (s.withIn m) = answerWithIn m (packBitsStep s) := by
  rw [packBitsStep, packBitsStep, h.byteHere, apply_ite (answerWithIn m), answerWithIn_next, ← s.withIn_afterDecode]
  congr 1
  cases s.byteHere with
  | none => exact congrArg Host.Outcome.next (withIn_truncated m s)
  | some u => exact withIn_runRecord (s := s.advance 8) (h.congr rfl rfl rfl) (recordOf u)

theorem withIn_execLzwFirst (m : Memory) (c : Byte) (s : State) :
    execLzwFirst c (s.withIn m) = answerWithIn m (execLzwFirst c s) := by
  rw [execLzwFirst, s.withIn_emitAll]
  rfl

/-- R155: the code after a CLEAR is read at 9 bits. -/
theorem withIn_execLzwClear {m : Memory} {s : State} (h : s.AgreesIn m) :
    execLzwClear (s.withIn m) = answerWithIn m (execLzwClear s) := by
  have hread : (s.withIn m).clearTable.readCode = s.clearTable.readCode.map (Prod.map id (State.withIn m)) :=
    State.AgreesIn.readCode (s := s.clearTable) (h.congr rfl rfl rfl)
  rw [execLzwClear, execLzwClear, hread]
  cases s.clearTable.readCode with
  | none => exact congrArg Host.Outcome.next (withIn_truncated m s.clearTable)
  | some p =>
    obtain ⟨c, u⟩ := p
    simp only [Option.map_some, Prod.map_apply, id_eq, apply_ite (answerWithIn m), execLzwEnd, execLzwInvalid,
      answerWithIn_next, ← withIn_execLzwFirst, ← State.withIn_afterDecode]
    rfl

theorem withIn_runCode {m : Memory} {s : State} (h : s.AgreesIn m) (k : CodeClass) :
    runCode k (s.withIn m) = answerWithIn m (runCode k s) := by
  cases k with
  | clear => exact withIn_execLzwClear h
  | endCode => exact congrArg Host.Outcome.next (s.withIn_afterDecode m)
  | first c => exact withIn_execLzwFirst m c s
  | literal _ | table _ | pending =>
    simp only [runCode, execLzwLiteral, execLzwTable, execLzwPending, State.withIn_lzw]
    cases s.lzw.prev with
    | none => rfl
    | some p => exact congrArg Host.Outcome.next (s.withIn_emitAndAdd m _ _)
  | invalid c => rfl
  | noClear c => rfl
  | implicitEnd => exact congrArg Host.Outcome.next (withIn_truncated m s)

/-- R154. -/
theorem withIn_lzwStep {m : Memory} {s : State} (h : s.AgreesIn m) :
    lzwStep (s.withIn m) = answerWithIn m (lzwStep s) := by
  rw [lzwStep, lzwStep, h.readCode, apply_ite (answerWithIn m), answerWithIn_next, ← s.withIn_afterDecode]
  congr 1
  cases hread : s.readCode with
  | none => exact withIn_runCode h .implicitEnd
  | some p =>
    obtain ⟨code, u⟩ := p
    obtain ⟨-, rfl⟩ := State.readCode_some hread
    exact withIn_runCode (s := s.advance s.lzw.cw.toNat) (h.congr rfl rfl rfl) (classOf s.lzwContext code)

theorem withIn_decodeLoop {m : Memory} {s : State} (h : s.AgreesIn m)
    {d : State → Host.Outcome State Fault Refusal} (hd : IsDecodeLoop d) : d (s.withIn m) = answerWithIn m (d s) := by
  rcases hd with rfl | rfl | rfl
  · exact congrArg Host.Outcome.next (s.withIn_enterPredictor m)
  · exact withIn_packBitsStep h
  · exact withIn_lzwStep h

/-! #### A step of the block -/

theorem withIn_operationStep {m : Memory} {s : State} (h : s.AgreesIn m)
    {d : State → Host.Outcome State Fault Refusal} (hd : IsDecodeLoop d) (pred : BitVec 2) :
    operationStep d pred (s.withIn m) = answerWithIn m (operationStep d pred s) := by
  rw [operationStep, operationStep, State.withIn_phase]
  cases s.phase with
  | idle => rfl
  | decode => exact withIn_decodeLoop h hd
  | predict r => exact withIn_predictorStep m pred s
  | finish e => rfl

theorem withIn_rejectedStep (m : Memory) (r : Reject) (s : State) :
    rejectedStep r (s.withIn m) = answerWithIn m (rejectedStep r s) := by
  rw [rejectedStep, rejectedStep, State.withIn_phase]
  cases s.phase <;> rfl

theorem withIn_blockStep {m : Memory} {s : State} (h : s.AgreesIn m) (hb : s.status.busy = true) :
    blockStep (s.withIn m) = answerWithIn m (blockStep s) := by
  rw [blockStep, blockStep, State.withIn_status, State.withIn_config, if_pos hb, if_pos hb]
  cases hdec : decode (.operation s.config.mode) with
  | ok i =>
    obtain ⟨d, hexec, hd⟩ := exec_operation_fun hdec
    simp only [hexec, withIn_operationStep h hd]
    cases operationStep d (predOf s.config.mode) s with
    | next t => exact congrArg Host.Outcome.next (t.withIn_noted m)
    | fault f => rfl
    | refused r => rfl
  | error r =>
    simp only [withIn_rejectedStep]
    cases rejectedStep r s with
    | next t => exact congrArg Host.Outcome.next (t.withIn_noted m)
    | fault f => rfl
    | refused r => rfl

theorem step_of_no_turns {s : State} (h : s.turns = []) : step s = blockStep s := by
  rw [step, h]

/-- Settles O57: a step of the block compares CURSOR with IN_LEN before it reads IN. -/
theorem inputBeyondLengthIsNotRead : Obligations.InputBeyondLengthIsNotRead := by
  intro s t m hb hturns hagree ht
  have hin : s.AgreesIn m := fun a ha => (hagree a ha).symm
  rw [step_of_no_turns hturns] at ht
  calc step (s.withIn m) = blockStep (s.withIn m) := step_of_no_turns hturns
    _ = answerWithIn m (blockStep s) := withIn_blockStep hin hb
    _ = .next (t.withIn m) := by rw [ht, answerWithIn_next]

end Sys2Proof.Machine

namespace Sys2Proof

open Machine

/-! ### Encoding and decoding (R81 to R84, R86, R87, R92, R101, R117 to R119)

`classOf` is R84's table with the class as a function of the code. It is read both ways: an equation per row of the table
gives the round trip, and `classOf_instr_valid` says that a code of CW bits meets the conditions of the row it falls in. -/

/-! #### Operation words, register writes and PackBits records -/

/-- R25, R119: a write at the index of a configuration register names that register. -/
theorem decodeHostWrite_index (reg : CfgReg) (data : Word) :
    decodeHostWrite reg.index data = .ok (.configWrite reg data) := by
  cases reg with
  | sdesc i =>
    have hindex : (CfgReg.sdesc i).index.val = 16 + i.val := Nat.mod_eq_of_lt (by omega)
    have hback : Fin.ofNat 16 (16 + i.val - 16) = i := Fin.ext (by simp)
    simp (disch := omega) only [decodeHostWrite, hindex, if_neg, Nat.le_add_right, if_true, hback]
  | mode | width | rows | spp | inLen => rfl

/-- R101: the bits of a CTRL word written for START. -/
theorem decodeHostWrite_start (irqEn : Bool) : decodeHostWrite 0 (ctrlWord true false irqEn) = .ok (.start irqEn) := by
  cases irqEn <;> rfl

/-- R117: the bits of a CTRL word written for SRST. -/
theorem decodeHostWrite_srst (startBit irqEn : Bool) :
    decodeHostWrite 0 (ctrlWord startBit true irqEn) = .ok (.srst startBit irqEn) := by
  cases startBit <;> cases irqEn <;> rfl

/-- R82: a control byte with bit 7 clear. -/
theorem recordOf_literal (c : BitVec 7) : recordOf (c.setWidth 8) = .literal c := by
  have hlt : (c.setWidth 8).toNat < 0x80 := by
    rw [BitVec.toNat_setWidth_of_le (by decide)]
    exact c.isLt
  rw [recordOf, if_neg (by omega), if_pos hlt, BitVec.setWidth_setWidth_of_le _ (by decide), BitVec.setWidth_eq]

/-- R82: a control byte with bit 7 set, other than 0x80. -/
theorem recordOf_replicate {u : Byte} (h : 0x81 ≤ u.toNat) : recordOf u = .replicate u := by
  rw [recordOf, if_neg (by omega), if_neg (by omega)]

theorem decodeOperation_wellFormed {mode : Word} {i : Instr} (h : decodeOperation mode = .ok i) :
    i.wellFormed = true := by
  rw [decodeOperation] at h
  split at h
  case h_7 => split_ifs at h
  all_goals cases h; rfl

theorem decodeHostWrite_wellFormed {index : Fin 32} {data : Word} {i : Instr}
    (h : decodeHostWrite index data = .ok i) : i.wellFormed = true := by
  rw [decodeHostWrite] at h
  split_ifs at h
  all_goals cases h; rfl

theorem recordOf_wellFormed (u : Byte) : (recordOf u).instr.wellFormed = true := by
  rw [recordOf]
  split_ifs with hnop hliteral
  · rfl
  · rfl
  · exact decide_eq_true (show 0x81 ≤ u.toNat by omega)

theorem RowOp.instr_wellFormed (op : RowOp) : op.instr.wellFormed = true := by cases op <;> rfl

/-! #### Code widths -/

/-- R86. -/
theorem widthFor_bounds (t : Nat) : 9 ≤ widthFor t ∧ widthFor t ≤ 12 := by
  rw [widthFor]
  split_ifs <;> decide

/-- R13, R164: what a legal context says of TSIZE and CW. -/
theorem LzwContext.bounds_of_legal (ctx : LzwContext) (h : ctx.legal = true) :
    258 ≤ ctx.tsize ∧ ctx.tsize ≤ 4096 ∧ ctx.cw = widthFor ctx.tsize := by
  simp only [LzwContext.legal, Bool.and_eq_true, decide_eq_true_eq, beq_iff_eq] at h
  obtain ⟨⟨⟨hlow, hhigh⟩, hcw⟩, -⟩ := h
  exact ⟨hlow, hhigh, hcw⟩

/-- R86: the codes of every width take in 0 to 511 and are numbers of 12 bits. -/
theorem LzwContext.codes_of_legal (ctx : LzwContext) (h : ctx.legal = true) : 512 ≤ 2 ^ ctx.cw ∧ 2 ^ ctx.cw ≤ 4096 := by
  obtain ⟨-, -, hcw⟩ := ctx.bounds_of_legal h
  obtain ⟨hlow, hhigh⟩ := widthFor_bounds ctx.tsize
  rw [hcw]
  exact ⟨Nat.pow_le_pow_right (n := 2) (by decide) hlow, Nat.pow_le_pow_right (n := 2) (by decide) hhigh⟩

/-- R164: TSIZE is itself a code of CW bits while the table has room. -/
theorem LzwContext.tsize_lt (ctx : LzwContext) (h : ctx.legal = true) (hroom : ctx.tsize ≤ 4095) :
    ctx.tsize < 2 ^ ctx.cw := by
  obtain ⟨-, -, hcw⟩ := ctx.bounds_of_legal h
  rw [hcw]
  exact lt_two_pow_widthFor (by omega)

/-- R164: CW bits reach every entry of the table, a full one included. -/
theorem LzwContext.tsize_le (ctx : LzwContext) (h : ctx.legal = true) : ctx.tsize ≤ 2 ^ ctx.cw := by
  obtain ⟨-, hhigh, hcw⟩ := ctx.bounds_of_legal h
  rcases Nat.lt_or_eq_of_le hhigh with hroom | hfull
  · exact (ctx.tsize_lt h (by omega)).le
  · rw [hcw, hfull]
    decide

/-! #### The rows of R84 -/

section Rows

variable {ctx : LzwContext}

theorem classOf_end : classOf ctx 257 = .endCode := rfl

theorem classOf_first (ha : ctx.afterClear = true) (c : Byte) : classOf ctx c.toNat = .first c := by
  have := c.isLt
  rw [classOf, if_neg (by omega), if_pos ha, if_neg (by omega), BitVec.ofNat_toNat, BitVec.setWidth_eq]

theorem classOf_invalid_afterClear (ha : ctx.afterClear = true) {c : BitVec 12} (hlow : 256 ≤ c.toNat)
    (hend : c.toNat ≠ 257) : classOf ctx c.toNat = .invalid c := by
  rw [classOf, if_neg hend, if_pos ha, if_pos hlow, BitVec.ofNat_toNat, BitVec.setWidth_eq]

theorem classOf_clear (ha : ctx.afterClear = false) : classOf ctx 256 = .clear := by
  rw [classOf, if_neg (by decide), if_neg (by simp [ha]), if_pos rfl]

theorem classOf_noClear (ha : ctx.afterClear = false) (hp : ctx.prevSet = false) {c : BitVec 12}
    (hclear : c.toNat ≠ 256) (hend : c.toNat ≠ 257) : classOf ctx c.toNat = .noClear c := by
  rw [classOf, if_neg hend, if_neg (by simp [ha]), if_neg hclear, if_pos (by simp [hp]), BitVec.ofNat_toNat,
    BitVec.setWidth_eq]

/-- R154: past the tests for CLEAR and for PREV, the code and TSIZE decide. -/
theorem classOf_in_stream (ha : ctx.afterClear = false) (hp : ctx.prevSet = true) {code : Nat} (hclear : code ≠ 256)
    (hend : code ≠ 257) : classOf ctx code =
      if code < 256 then .literal (BitVec.ofNat 8 code)
      else if code < ctx.tsize then .table (BitVec.ofNat 12 code)
      else if code = ctx.tsize then .pending else .invalid (BitVec.ofNat 12 code) := by
  rw [classOf, if_neg hend, if_neg (by simp [ha]), if_neg hclear, if_neg (by simp [hp])]

theorem classOf_literal (ha : ctx.afterClear = false) (hp : ctx.prevSet = true) (c : Byte) :
    classOf ctx c.toNat = .literal c := by
  have := c.isLt
  rw [classOf_in_stream ha hp (by omega) (by omega), if_pos (by omega), BitVec.ofNat_toNat, BitVec.setWidth_eq]

theorem classOf_table (ha : ctx.afterClear = false) (hp : ctx.prevSet = true) {c : BitVec 12} (hlow : 258 ≤ c.toNat)
    (hentry : c.toNat < ctx.tsize) : classOf ctx c.toNat = .table c := by
  rw [classOf_in_stream ha hp (by omega) (by omega), if_neg (by omega), if_pos hentry, BitVec.ofNat_toNat,
    BitVec.setWidth_eq]

theorem classOf_pending (ha : ctx.afterClear = false) (hp : ctx.prevSet = true) (hlow : 258 ≤ ctx.tsize) :
    classOf ctx ctx.tsize = .pending := by
  rw [classOf_in_stream ha hp (by omega) (by omega), if_neg (by omega), if_neg (by omega), if_pos rfl]

theorem classOf_invalid_in_stream (ha : ctx.afterClear = false) (hp : ctx.prevSet = true) (hlow : 258 ≤ ctx.tsize)
    {c : BitVec 12} (hbeyond : ctx.tsize < c.toNat) : classOf ctx c.toNat = .invalid c := by
  rw [classOf_in_stream ha hp (by omega) (by omega), if_neg (by omega), if_neg (by omega), if_neg (by omega),
    BitVec.ofNat_toNat, BitVec.setWidth_eq]

/-- R84, R162, R155: both ways a code can be invalid. -/
theorem classOf_invalid (hlow : 258 ≤ ctx.tsize) {c : BitVec 12} (hwf : (Instr.lzwInvalid c).wellFormed = true)
    (hctx : (Instr.lzwInvalid c).inContext ctx = true) : classOf ctx c.toNat = .invalid c := by
  simp only [Instr.wellFormed, Instr.inContext, Bool.and_eq_true, Bool.or_eq_true, decide_eq_true_eq,
    bne_iff_ne] at hwf hctx
  obtain ⟨h256, hend⟩ := hwf
  cases ha : ctx.afterClear with
  | true => exact classOf_invalid_afterClear ha h256 hend
  | false =>
    obtain ⟨hp, hbeyond⟩ := hctx.2.resolve_left (by simp [ha])
    exact classOf_invalid_in_stream ha hp hlow hbeyond

/-- R159 to R162: in the stream, a code of CW bits meets the conditions of the row it falls in. -/
theorem classOf_in_stream_valid (hctx : ctx.legal = true) (ha : ctx.afterClear = false) (hp : ctx.prevSet = true)
    {code : Nat} (hclear : code ≠ 256) (hend : code ≠ 257) (hcode : code < 2 ^ ctx.cw) :
    (classOf ctx code).instr.wellFormed = true ∧ (classOf ctx code).instr.inContext ctx = true := by
  have hlow := (ctx.bounds_of_legal hctx).1
  have hwide := (ctx.codes_of_legal hctx).2
  have hnat : (BitVec.ofNat 12 code).toNat = code := Nat.mod_eq_of_lt (by omega)
  rw [classOf_in_stream ha hp hclear hend]
  split_ifs with hbyte hentry hpending
  · simp [CodeClass.instr, Instr.wellFormed, Instr.inContext, ha, hp]
  · have hfirst : 258 ≤ code := by omega
    simp [CodeClass.instr, Instr.wellFormed, Instr.inContext, hnat, ha, hp, hfirst, hentry]
  · have hroom : ctx.tsize ≤ 4095 := by omega
    simp [CodeClass.instr, Instr.wellFormed, Instr.inContext, ha, hp, hroom]
  · have hbeyond : ctx.tsize < code := by omega
    have hlarge : 256 ≤ code := by omega
    simp [CodeClass.instr, Instr.wellFormed, Instr.inContext, hnat, hp, hend, hcode, hbeyond, hlarge]

/-- R84: a code of CW bits meets the conditions of the row it falls in. -/
theorem classOf_instr_valid (hctx : ctx.legal = true) {code : Nat} (hcode : code < 2 ^ ctx.cw) :
    (classOf ctx code).instr.wellFormed = true ∧ (classOf ctx code).instr.inContext ctx = true := by
  have hwide := (ctx.codes_of_legal hctx).2
  have hnat : (BitVec.ofNat 12 code).toNat = code := Nat.mod_eq_of_lt (by omega)
  by_cases hend : code = 257
  · rw [hend, classOf_end]
    exact ⟨rfl, rfl⟩
  cases ha : ctx.afterClear with
  | true =>
    rw [classOf, if_neg hend, if_pos ha]
    split_ifs with hlarge
    · simp [CodeClass.instr, Instr.wellFormed, Instr.inContext, hnat, ha, hlarge, hend, hcode]
    · exact ⟨rfl, ha⟩
  | false =>
    by_cases hclear : code = 256
    · rw [hclear, classOf_clear ha]
      simp [CodeClass.instr, Instr.wellFormed, Instr.inContext, ha]
    cases hp : ctx.prevSet with
    | false =>
      have hclass : classOf ctx code = .noClear (BitVec.ofNat 12 code) := by
        rw [← classOf_noClear ha hp (by rwa [hnat]) (by rwa [hnat]), hnat]
      simp [hclass, CodeClass.instr, Instr.wellFormed, Instr.inContext, hnat, ha, hp, hclear, hend, hcode]
    | true => exact classOf_in_stream_valid hctx ha hp hclear hend hcode

end Rows

/-! #### Codes as bits of the stream -/

/-- R83, R92: the bits written for a code of CW bits are read back as that code. -/
theorem decode_lzw_bitsOf {ctx : LzwContext} {code : Nat} (h : code < 2 ^ ctx.cw) :
    decode (.lzw ctx (bitsOf ctx.cw code)) = .ok (classOf ctx code).instr := by
  have hlength := bitsOf_length ctx.cw code
  rw [decode, classOfBits, if_neg (by omega), List.take_of_length_le hlength.le, codeValue_bitsOf, Nat.mod_eq_of_lt h]

/-- R152: fewer than CW bits are an implicit END. -/
theorem decode_lzw_short {ctx : LzwContext} {bits : List Bool} (h : bits.length < ctx.cw) :
    decode (.lzw ctx bits) = .ok .lzwImplicitEnd := by
  rw [decode, classOfBits, if_pos h, CodeClass.instr]

/-- R83, R152: the bits of the stream are too few for a code, or they start with a code of CW bits. -/
theorem decode_lzw_cases {ctx : LzwContext} {bits : List Bool} {i : Instr} (h : decode (.lzw ctx bits) = .ok i) :
    i = .lzwImplicitEnd ∨ ∃ code < 2 ^ ctx.cw, i = (classOf ctx code).instr := by
  rcases Nat.lt_or_ge bits.length ctx.cw with hshort | hlong
  · rw [decode_lzw_short hshort] at h
    cases h
    exact .inl rfl
  · rw [decode, classOfBits, if_neg (by omega)] at h
    cases h
    have hlt := codeValue_lt (bits.take ctx.cw)
    rw [List.length_take_of_le hlong] at hlt
    exact .inr ⟨_, hlt, rfl⟩

/-- R84, R158: whatever the bits of the stream decode to, its row's conditions hold. -/
theorem decode_lzw_valid {ctx : LzwContext} (hctx : ctx.legal = true) {bits : List Bool} {i : Instr}
    (h : decode (.lzw ctx bits) = .ok i) : i.wellFormed = true ∧ i.inContext ctx = true := by
  rcases decode_lzw_cases h with rfl | ⟨code, hcode, rfl⟩
  · exact ⟨rfl, rfl⟩
  · exact classOf_instr_valid hctx hcode

/-- Settles O1: the equation of each row, on the word the encoder writes for it. -/
theorem decodeUndoesEncode : Obligations.DecodeUndoesEncode := by
  intro ctx i hlegal hwf hctx
  obtain ⟨hlow, -, hcw⟩ := ctx.bounds_of_legal hlegal
  have hbytes := (ctx.codes_of_legal hlegal).1
  cases i with
  | start irqEn => exact decodeHostWrite_start irqEn
  | srst startBit irqEn => exact decodeHostWrite_srst startBit irqEn
  | configWrite reg data => exact decodeHostWrite_index reg data
  | pbLiteral c => rw [encode, decode, recordOf_literal, Record.instr]
  | pbReplicate u => rw [encode, decode, recordOf_replicate (of_decide_eq_true hwf), Record.instr]
  | lzwClear =>
    have ha : ctx.afterClear = false := by simpa [Instr.inContext] using hctx
    rw [encode, decode_lzw_bitsOf (by omega), classOf_clear ha, CodeClass.instr]
  | lzwEnd => rw [encode, decode_lzw_bitsOf (by omega), classOf_end, CodeClass.instr]
  | lzwFirst c =>
    rw [encode, decode_lzw_bitsOf (by omega), classOf_first hctx, CodeClass.instr]
  | lzwLiteral c =>
    obtain ⟨hp, ha⟩ : ctx.prevSet = true ∧ ctx.afterClear = false := by simpa [Instr.inContext] using hctx
    rw [encode, decode_lzw_bitsOf (by omega), classOf_literal ha hp, CodeClass.instr]
  | lzwTable c =>
    obtain ⟨⟨hp, ha⟩, hentry⟩ : (ctx.prevSet = true ∧ ctx.afterClear = false) ∧ c.toNat < ctx.tsize := by
      simpa [Instr.inContext] using hctx
    rw [encode, decode_lzw_bitsOf (hentry.trans_le (ctx.tsize_le hlegal)),
      classOf_table ha hp (of_decide_eq_true hwf) hentry, CodeClass.instr]
  | lzwPending =>
    obtain ⟨⟨hp, ha⟩, hroom⟩ : (ctx.prevSet = true ∧ ctx.afterClear = false) ∧ ctx.tsize ≤ 4095 := by
      simpa [Instr.inContext] using hctx
    rw [encode, decode_lzw_bitsOf (ctx.tsize_lt hlegal hroom), classOf_pending ha hp hlow, CodeClass.instr]
  | lzwInvalid c =>
    have hfits : c.toNat < 2 ^ ctx.cw := of_decide_eq_true (Bool.and_elim_left hctx)
    rw [encode, decode_lzw_bitsOf hfits, classOf_invalid hlow hwf hctx, CodeClass.instr]
  | lzwNoClear c =>
    obtain ⟨⟨hp, ha⟩, hfits⟩ : (ctx.prevSet = false ∧ ctx.afterClear = false) ∧ c.toNat < 2 ^ ctx.cw := by
      simpa [Instr.inContext] using hctx
    obtain ⟨hclear, hend⟩ : c.toNat ≠ 256 ∧ c.toNat ≠ 257 := by simpa [Instr.wellFormed] using hwf
    rw [encode, decode_lzw_bitsOf hfits, classOf_noClear ha hp hclear hend, CodeClass.instr]
  | lzwImplicitEnd =>
    have hwidth : 9 ≤ ctx.cw := hcw ▸ (widthFor_bounds ctx.tsize).1
    exact decode_lzw_short (Nat.zero_lt_of_lt hwidth)
  | opExternalNone | opExternalHpred | opExternalFpred | opPackbits | opLzw | opLzwHpred => rfl
  | doneAck | pbNop => rfl
  | hpred8 | hpred16 | hpred32 | fpred16 | fpred24 | fpred32 | fpred64 => rfl

/-- Settles O2: by the kind of item. -/
theorem decodedIsWellFormed : Obligations.DecodedIsWellFormed := by
  refine ⟨fun e i hlzw h => ?_, fun ctx bits i hlegal _ h => (decode_lzw_valid hlegal h).2⟩
  cases e with
  | operation mode => exact decodeOperation_wellFormed h
  | hostWrite index data => exact decodeHostWrite_wellFormed h
  | packBits u =>
    cases h
    exact recordOf_wellFormed u
  | lzw ctx bits => exact (decode_lzw_valid (hlzw ctx bits rfl).1 h).1
  | predictor pred bps =>
    rw [decode] at h
    cases hop : rowOpOf pred bps with
    | error r => rw [hop] at h; cases h
    | ok op =>
      rw [hop] at h
      cases h
      exact op.instr_wellFormed

end Sys2Proof

namespace Sys2Proof.Machine

/-! ### The steps of an operation (R100, R109, R110) -/

/-- A step of the block, its turn given or not. -/
theorem step_of_block {s : State} {rest : List Turn} (h : s.turns = .block :: rest ∨ s.turns = [] ∧ rest = []) :
    step s = blockStep { s with turns := rest } := by
  rcases h with h | ⟨h, rfl⟩
  · rw [step, h]
  · rw [step_of_no_turns h, ← h]

theorem blockStep_of_exec {s t : State} {i : Instr} (hb : s.status.busy = true)
    (hi : decode (.operation s.config.mode) = .ok i) (ht : exec i s = .next t) : blockStep s = .next t.noted := by
  simp only [blockStep, if_pos hb, hi, ht]

/-- Settles O4: the turn is a host move, the block's with BUSY = 1, or the block's with BUSY = 0. -/
theorem stepRunsDecodedInstruction : Obligations.StepRunsDecodedInstruction := by
  refine fun s rest => ⟨fun index data i hturn hi => ?_, fun i t hturn hb hi ht => ?_, fun hturn hb => ?_⟩
  · rw [step, hturn]
    exact hostStep_of_command hi _
  · rw [step_of_block hturn]
    exact blockStep_of_exec (s := { s with turns := rest }) hb hi ht
  · rw [step_of_block hturn]
    exact blockStep_idle hb

theorem State.noted_of_idle {s : State} (h : s.status.busy = false) : s.noted = s := by
  rw [State.noted, if_neg (by simp [h])]

theorem operationStep_idle {s : State} (h : s.phase = .idle) (d : State → Host.Outcome State Fault Refusal)
    (pred : BitVec 2) : operationStep d pred s = .next s := by
  rw [operationStep, h]

theorem operationStep_decode {s : State} (h : s.phase = .decode) (d : State → Host.Outcome State Fault Refusal)
    (pred : BitVec 2) : operationStep d pred s = d s := by
  rw [operationStep, h]

theorem operationStep_predict {s : State} {r : Nat} (h : s.phase = .predict r)
    (d : State → Host.Outcome State Fault Refusal) (pred : BitVec 2) :
    operationStep d pred s = predictorStep pred s := by
  rw [operationStep, h]

theorem operationStep_finish {s : State} {e : ErrCode} (h : s.phase = .finish e)
    (d : State → Host.Outcome State Fault Refusal) (pred : BitVec 2) :
    operationStep d pred s = .next (s.finish e) := by
  rw [operationStep, h]

/-- R100, R110: the finish step, whatever MODE holds. -/
theorem blockStep_finish {s : State} {e : ErrCode} (hb : s.status.busy = true) (hp : s.phase = .finish e) :
    blockStep s = .next (s.finish e) := by
  have hnoted : (s.finish e).noted = s.finish e := State.noted_of_idle rfl
  cases hdec : decode (.operation s.config.mode) with
  | ok i =>
    obtain ⟨d, hexec, -⟩ := exec_operation_fun hdec
    have hfinish : exec i s = .next (s.finish e) := by rw [hexec, operationStep_finish hp]
    rw [blockStep_of_exec hb hdec hfinish, hnoted]
  | error r => simp only [blockStep, if_pos hb, hdec, rejectedStep, hp, hnoted]

/-- Settles O6: the step is `State.finish`, which sets the three fields of STATUS. -/
theorem finishStepReports : Obligations.FinishStepReports := by
  intro s e hb hturns hp
  refine ⟨s.finish e, ?_, rfl, ?_⟩
  · rw [step_of_no_turns hturns, blockStep_finish hb hp]
  · rw [State.irq, State.finish_status, State.finish_irqEn, Status.finished, Bool.true_and]

/-- The six operations are decode loops with a predictor. -/
theorem exec_of_mem_operations {op : Instr}
    (h : op ∈ [Instr.opExternalNone, .opExternalHpred, .opExternalFpred, .opPackbits, .opLzw, .opLzwHpred]) :
    ∃ d pred, exec op = operationStep d pred := by
  simp only [List.mem_cons, List.not_mem_nil, or_false] at h
  rcases h with rfl | rfl | rfl | rfl | rfl | rfl <;> exact ⟨_, _, rfl⟩

/-- In the decode phase the three decoding operations take the step of their loop. -/
theorem exec_of_mem_decoding {s : State} (hp : s.phase = .decode) {op : Instr}
    (h : op ∈ [Instr.opPackbits, .opLzw, .opLzwHpred]) :
    op = .opPackbits ∧ exec op s = packBitsStep s ∨ op ≠ .opPackbits ∧ exec op s = lzwStep s := by
  simp only [List.mem_cons, List.not_mem_nil, or_false] at h
  rcases h with rfl | rfl | rfl
  · exact .inl ⟨rfl, operationStep_decode hp _ _⟩
  · exact .inr ⟨by decide, operationStep_decode hp _ _⟩
  · exact .inr ⟨by decide, operationStep_decode hp _ _⟩

theorem packBitsStep_complete {s : State} (h : s.outLen ≤ s.outPos.toNat) : packBitsStep s = .next s.afterDecode := by
  rw [packBitsStep, if_pos h]

theorem packBitsStep_exhausted {s : State} (h : s.outPos.toNat < s.outLen)
    (hin : s.config.inLen.toNat ≤ s.cursor.toNat / 8) : packBitsStep s = .next (s.warn .trunc).afterDecode := by
  have hnone : s.byteHere = none := if_pos hin
  rw [packBitsStep, if_neg (Nat.not_le.mpr h), hnone]

theorem lzwStep_complete {s : State} (h : s.outLen ≤ s.outPos.toNat) : lzwStep s = .next s.afterDecode := by
  rw [lzwStep, if_pos h]

/-- Settles O7: by the phase; both decode loops test first whether the output is complete. -/
theorem operationsEndTheirLoops : Obligations.OperationsEndTheirLoops := by
  refine fun s => ⟨fun op hop => ?_, fun hp hfull op hop => ?_, fun hp hroom hin => ?_⟩
  · obtain ⟨d, pred, hexec⟩ := exec_of_mem_operations hop
    rw [hexec]
    exact ⟨fun e he => operationStep_finish he d pred, fun hidle => operationStep_idle hidle d pred⟩
  · rcases exec_of_mem_decoding hp hop with ⟨-, hexec⟩ | ⟨-, hexec⟩ <;> rw [hexec]
    · exact packBitsStep_complete hfull
    · exact lzwStep_complete hfull
  · exact (operationStep_decode hp packBitsStep 0).trans (packBitsStep_exhausted hroom hin)

/-! ### What follows a decode loop, and START (R101 to R103, R109) -/

/-- R109, R181: the predictor from row 0 if PRED selects one and there is a row, else the finish step. -/
def State.predictorPhase (s : State) : Phase :=
  if (s.pred = 1 ∨ s.pred = 2) ∧ 0 < s.config.rows.toNat then .predict 0 else .finish .none

theorem State.pred_toNat_iff (s : State) : s.pred.toNat = 1 ∨ s.pred.toNat = 2 ↔ s.pred = 1 ∨ s.pred = 2 := by
  simp only [BitVec.toNat_eq]; rfl

theorem State.comp_toNat_iff (s : State) : s.comp.toNat = 1 ∨ s.comp.toNat = 2 ↔ s.comp = 1 ∨ s.comp = 2 := by
  simp only [BitVec.toNat_eq]; rfl

theorem State.enterPredictor_phase (s : State) : s.enterPredictor = { s with phase := s.predictorPhase } := by
  simp only [State.enterPredictor, State.predictorPhase, s.pred_toNat_iff]
  split <;> rfl

/-- Settles O10: W_UNDERFILL, then the choice of `enterPredictor`. -/
theorem endOfDecodeReportsUnderfill : Obligations.EndOfDecodeReportsUnderfill := by
  intro s
  rw [State.afterDecode, State.enterPredictor_phase, State.enterPredictor_phase]
  split <;> rfl

/-- R103, R109: what START leads to. -/
def State.firstPhase (s : State) : Phase :=
  if s.configCheck ≠ .none then .finish s.configCheck
  else if s.comp = 1 ∨ s.comp = 2 then .decode
  else s.predictorPhase

theorem State.enterOperation_phase (s : State) :
    s.enterOperation = { s with phase := if s.comp = 1 ∨ s.comp = 2 then .decode else s.predictorPhase } := by
  simp only [State.enterOperation, s.comp_toNat_iff, s.enterPredictor_phase]
  split <;> rfl

/-- R103, R109: the start check leaves the operation or the finish step. -/
theorem State.firstPhase_eq (s : State) :
    (if s.configCheck = .none then s.enterOperation else s.fatal s.configCheck) = { s with phase := s.firstPhase } := by
  simp only [State.firstPhase, s.enterOperation_phase, State.fatal, ne_eq, ite_not]
  split <;> rfl

/-- R40: the values a busy read can return after the START step. -/
def startTrail : List Snapshot :=
  [{ cursor := 0, outPos := 0, lzwState := 0x00090102#32, status := 0x00000001#32 }]

/-- R101 to R103: the START step. -/
theorem exec_start_idle {s : State} (hb : s.status.busy = false) (irqEn : Bool) :
    exec (.start irqEn) s = .next (({ s with irqEn := irqEn } : State).begun s.firstPhase startTrail) := by
  have hstep : ∀ u : State, u.startStep = u.begun u.firstPhase startTrail := fun u => by
    rw [State.startStep]
    simp only [State.firstPhase_eq]
    rw [startTrail, ← u.snapshot_started]
    rfl
  have hexec : exec (.start irqEn) s = .next ({ s with irqEn := irqEn } : State).startStep := if_neg (by simp [hb])
  rw [hexec, hstep]
  rfl

/-- Settles O11: START is `execStart`; with BUSY = 0 the START step. -/
theorem startBeginsOperation : Obligations.StartBeginsOperation := by
  refine fun s irqEn => ⟨fun data h0 h1 => ?_, fun hb => ?_, fun hb => ?_⟩
  · exact hostStep_of_command (by rw [decodeHostWrite_ctrl, h1, h0]; rfl) s
  · exact if_pos hb
  · exact exec_start_idle hb irqEn

/-- Settles O12: what START leads to reads the configuration, the parameters and IN alone. -/
theorem startForgetsEarlierOperation : Obligations.StartForgetsEarlierOperation := by
  intro s₁ s₂ irqEn hb₁ hb₂ heq
  refine ⟨({ s₁ with irqEn := irqEn } : State).begun s₁.firstPhase startTrail, exec_start_idle hb₁ irqEn, ?_⟩
  rw [exec_start_idle hb₂, heq]
  rfl

/-- R109: with COMP = 0 and a passed start check the predictor comes first. -/
theorem State.firstPhase_external {s : State} (hcheck : s.configCheck = .none) (hcomp : s.comp = 0) :
    s.firstPhase = s.predictorPhase := by
  rw [State.firstPhase, if_neg (by simp [hcheck]), if_neg (by simp [hcomp])]

/-- Settles O46: the START step, then the finish step. -/
theorem externalNoneOnlyReports : Obligations.ExternalNoneOnlyReports := by
  intro s irqEn hb hcomp hpred hcheck
  have hphase : s.firstPhase = .finish .none := by
    rw [State.firstPhase_external hcheck hcomp, State.predictorPhase, if_neg (by simp [hpred])]
  refine ⟨_, _, exec_start_idle hb irqEn, operationStep_finish hphase noDecode 0, rfl⟩

/-! ### The other commands (R117 to R119) -/

/-- Settles O14: SRST is `execSrst`. -/
theorem softResetRestoresRegisters : Obligations.SoftResetRestoresRegisters := by
  refine fun s startBit irqEn => ⟨fun data h1 => ?_, fun hb => ?_, fun hb => ?_⟩
  · exact hostStep_of_command (by rw [decodeHostWrite_ctrl, if_pos h1]) s
  · exact if_neg (by simp [hb])
  · exact if_pos hb

theorem hostStep_status (data : Word) (s : State) : hostStep (.writeReg 1 data) s =
    .next { s with status := { s.status with done := s.status.done && !data.getLsbD 1 } } := by
  cases h1 : data.getLsbD 1 with
  | true =>
    rw [hostStep_of_command (by rw [decodeHostWrite_status, if_pos h1]) s]
    simp [exec, execDoneAck]
  | false =>
    rw [(otherWritesHaveNoEffect s 1 data).2.1 rfl h1]
    simp

/-- Settles O15: DONE_ACK is `execDoneAck`. -/
theorem doneAckClearsDone : Obligations.DoneAckClearsDone := by
  refine fun s data => ⟨⟨_, rfl, rfl, rfl⟩, fun hdone => ?_, fun h1 => ?_, fun h1 => ?_⟩
  · have hsame : ({ s with status := { s.status with done := false } } : State) = s := by rw [← hdone]
    exact congrArg Host.Outcome.next hsame
  · exact hostStep_of_command (by rw [decodeHostWrite_status, if_pos h1]) s
  · exact (otherWritesHaveNoEffect s 1 data).2.1 rfl h1

/-! ### The start check (R103 to R107, R150) -/

theorem State.layoutOk_iff (s : State) : s.layoutOk = true ↔
    1 ≤ s.config.spp.toNat ∧ s.config.spp.toNat ≤ s.params.maxSpp ∧
      ∀ i < s.config.spp.toNat, 1 ≤ (s.bps i).toNat ∧ (s.bps i).toNat ≤ 64 ∧ (s.sfmt i).toNat ≤ 3 := by
  simp [State.layoutOk, and_assoc]

theorem State.uniformBps_iff (s : State) : s.uniformBps = true ↔ ∀ i < s.config.spp.toNat, s.bps i = s.bps 0 := by
  simp [State.uniformBps]

/-- R106, by the value of PRED. -/
theorem State.predictorOk_iff (s : State) : s.predictorOk = true ↔
    s.pred = 0 ∨
    (s.pred = 1 ∧ s.comp ≠ 1 ∧ s.uniformBps = true ∧ (s.bps 0 = 8 ∨ s.bps 0 = 16 ∨ s.bps 0 = 32)) ∨
    (s.pred = 2 ∧ s.comp ≠ 1 ∧ s.comp ≠ 2 ∧ s.uniformBps = true ∧
      (s.bps 0 = 16 ∨ s.bps 0 = 24 ∨ s.bps 0 = 32 ∨ s.bps 0 = 64) ∧ ∀ i < s.config.spp.toNat, s.sfmt i = 2) := by
  have hpred : s.pred = 0 ∨ s.pred = 1 ∨ s.pred = 2 ∨ s.pred = 3 := by
    generalize s.pred = p; revert p; decide
  rcases hpred with hp | hp | hp | hp
  · simp [State.predictorOk, hp]
  · simp [State.predictorOk, hp, BitVec.toNat_eq]
  · simp [State.predictorOk, hp, BitVec.toNat_eq, and_assoc]
  · simp [State.predictorOk, hp]

theorem State.outLenExact_eq_sum (s : State) : s.outLenExact =
    ((∑ i ∈ Finset.range s.config.spp.toNat, (s.bps i).toNat) * s.config.width.toNat + 7) / 8 * s.config.rows.toNat :=
  rfl

theorem State.capacityOk_iff (s : State) : s.capacityOk = true ↔
    s.outLenExact ≤ s.params.outCap ∧ (s.comp = 1 ∨ s.comp = 2 → s.config.inLen.toNat ≤ s.params.inCap) := by
  simp [State.capacityOk, ← not_or, imp_iff_not_or, s.comp_toNat_iff]

theorem State.legacyLzw_iff (s : State) : s.legacyLzw = true ↔
    2 ≤ s.config.inLen.toNat ∧ s.inByte 0 = 0x00#8 ∧ s.inByte 1 = 0x01#8 := by
  simp [State.legacyLzw, and_assoc]

/-- Settles O13: `configCheck` makes the five tests of R103 in order. -/
theorem startCheckReportsFirstFailure : Obligations.StartCheckReportsFirstFailure := by
  refine fun s => ⟨fun hb irqEn => ⟨_, exec_start_idle hb irqEn, rfl, rfl, rfl, fun hc => if_pos hc⟩, ?_⟩
  simp only [← s.uniformBps_iff, ← s.layoutOk_iff, ← s.predictorOk_iff, ← s.outLenExact_eq_sum, ← s.capacityOk_iff,
    ← s.legacyLzw_iff]
  refine ⟨fun hc => ?_, fun hc hl => ?_, fun hc hl hp => ?_, fun hc hl hp hcap => ?_, fun hc hl hp hcap hlegacy => ?_,
    fun hc hl hp hcap hlegacy => ?_⟩
  · rw [State.configCheck, if_pos hc]
  · simp [State.configCheck, Nat.not_le.mpr hc, hl]
  · simp [State.configCheck, Nat.not_le.mpr hc, hl, hp]
  · simp [State.configCheck, Nat.not_le.mpr hc, hl, hp, hcap]
  · simp [State.configCheck, hc, hl, hp, hcap, hlegacy]
  · have hlegacy' : ¬ (s.comp.toNat = 2 ∧ s.legacyLzw = true) := fun h => hlegacy (h.imp_left BitVec.toNat_eq.mpr)
    simp only [State.configCheck, Nat.not_le.mpr hc, hl, hp, hcap, hlegacy', if_false, Bool.not_true, Bool.false_eq_true]

/-! ### Configuration writes (R29 to R33, R38, R119) -/

/-- What a configuration register reads. -/
def State.configWord (s : State) : CfgReg → Word
  | .mode => s.config.mode
  | .width => s.config.width.setWidth 32
  | .rows => s.config.rows.setWidth 32
  | .spp => s.config.spp.setWidth 32
  | .inLen => s.config.inLen
  | .sdesc i => s.sdescWord i.val

/-- The bits of a written word that a configuration register takes. -/
def State.definedBits (s : State) (reg : CfgReg) (data : Word) : Word :=
  match reg with
  | .mode => data &&& 0x337#32
  | .width => data &&& 0xFFFF#32
  | .rows => data &&& 0xFFFF#32
  | .spp => data &&& 0xFF#32
  | .inLen => data
  | .sdesc i => if i.val < s.params.maxSpp then data &&& 0x7FF#32 else 0#32

theorem CfgReg.index_sdesc (i : Fin 16) : (CfgReg.sdesc i).index.val = 16 + i.val :=
  Nat.mod_eq_of_lt (by omega)

theorem State.registerWord_index (s : State) (reg : CfgReg) : s.registerWord reg.index = s.configWord reg := by
  cases reg with
  | sdesc i =>
    have hi := CfgReg.index_sdesc i
    rw [s.registerWord_of_ge (by omega), if_pos (by omega), hi, Nat.add_sub_cancel_left, State.configWord]
  | mode | width | rows | spp | inLen => rfl

/-- R25: the offsets of the configuration registers. -/
theorem CfgReg.exists_index {index : Fin 32} (h : 2 ≤ index.val ∧ index.val < 7 ∨ 16 ≤ index.val) :
    ∃ reg : CfgReg, index = reg.index := by
  have hcases : index = 2 ∨ index = 3 ∨ index = 4 ∨ index = 5 ∨ index = 6 ∨ 16 ≤ index.val := by omega
  rcases hcases with rfl | rfl | rfl | rfl | rfl | h16
  · exact ⟨.mode, rfl⟩
  · exact ⟨.width, rfl⟩
  · exact ⟨.rows, rfl⟩
  · exact ⟨.spp, rfl⟩
  · exact ⟨.inLen, rfl⟩
  · have hlt : index.val - 16 < 16 := by omega
    refine ⟨.sdesc ⟨index.val - 16, hlt⟩, Fin.ext ?_⟩
    rw [CfgReg.index_sdesc]
    exact (Nat.add_sub_cancel' h16).symm

/-- The registers that hold neither the configuration nor OUT_LEN do not read it. -/
theorem State.registerWord_withConfig (s : State) (c : ConfigRegs) {index : Fin 32}
    (h : index.val < 2 ∨ 8 ≤ index.val ∧ index.val < 16) :
    ({ s with config := c } : State).registerWord index = s.registerWord index := by
  simp only [State.registerWord, show index.val ≠ 2 by omega, show index.val ≠ 3 by omega,
    show index.val ≠ 4 by omega, show index.val ≠ 5 by omega, show index.val ≠ 6 by omega,
    show index.val ≠ 7 by omega, show ¬ 16 ≤ index.val by omega, if_false]

theorem State.storeConfig_frame (reg : CfgReg) (data : Word) (s : State) :
    s.storeConfig reg data = { s with config := (s.storeConfig reg data).config } := by
  cases reg with
  | sdesc i => rw [State.storeConfig]; split <;> rfl
  | mode | width | rows | spp | inLen => rfl

/-- R38: a reserved SDESC takes no write. -/
theorem State.storeConfig_reserved {i : Fin 16} {s : State} (h : s.params.maxSpp ≤ i.val) (data : Word) :
    s.storeConfig (.sdesc i) data = s := by
  rw [State.storeConfig, if_neg (by omega)]

theorem State.storeConfig_sdesc {i : Fin 16} {s : State} (h : i.val < s.params.maxSpp) (data : Word) (j : Fin 16) :
    (s.storeConfig (.sdesc i) data).sdescWord j.val = if j = i then data &&& sdescMask else s.sdescWord j.val := by
  rw [State.storeConfig, if_pos h, State.sdescWord, State.sdescWord, Vector.getElem?_set]
  by_cases hji : j = i
  · subst hji; simp [h]
  · simp [hji, Ne.symm (Fin.val_ne_of_ne hji)]

/-- R119: the low bits that a register of `n` bits takes. -/
theorem setWidth_setWidth_eq_and {n : Nat} (hn : n ≤ 32) (data : Word) :
    (data.setWidth n).setWidth 32 = data &&& BitVec.ofNat 32 (2 ^ n - 1) := by
  have hpow : 2 ^ n ≤ 2 ^ 32 := Nat.pow_le_pow_right (by decide) hn
  have hpos := Nat.two_pow_pos n
  apply BitVec.eq_of_toNat_eq
  rw [BitVec.toNat_setWidth_of_le hn, BitVec.toNat_setWidth, BitVec.toNat_and, BitVec.toNat_ofNat,
    Nat.mod_eq_of_lt (by omega : 2 ^ n - 1 < 2 ^ 32), Nat.and_two_pow_sub_one_eq_mod]

/-- R119: a configuration register reads back the defined bits written. -/
theorem State.storeConfig_configWord_same (reg : CfgReg) (data : Word) (s : State) :
    (s.storeConfig reg data).configWord reg = s.definedBits reg data := by
  cases reg with
  | sdesc i =>
    rw [State.configWord, State.definedBits]
    split
    · next hi => rw [State.storeConfig_sdesc hi, if_pos rfl, sdescMask]
    · next hi => rw [State.storeConfig_reserved (Nat.le_of_not_lt hi), State.sdescWord, if_neg hi]; rfl
  | mode => rfl
  | width => exact setWidth_setWidth_eq_and (by decide) data
  | rows => exact setWidth_setWidth_eq_and (by decide) data
  | spp => exact setWidth_setWidth_eq_and (by decide) data
  | inLen => rfl

/-- R119: a configuration write leaves the other configuration registers. -/
theorem State.storeConfig_configWord_of_ne {reg reg' : CfgReg} (h : reg' ≠ reg) (data : Word) (s : State) :
    (s.storeConfig reg data).configWord reg' = s.configWord reg' := by
  cases reg with
  | sdesc i =>
    by_cases hi : i.val < s.params.maxSpp
    · cases reg' with
      | sdesc j =>
        have hji : j ≠ i := fun hji => h (congrArg CfgReg.sdesc hji)
        rw [State.configWord, State.storeConfig_sdesc hi, if_neg hji, State.configWord]
      | mode | width | rows | spp | inLen => rw [State.storeConfig, if_pos hi]; rfl
    · rw [State.storeConfig_reserved (Nat.le_of_not_lt hi)]
  | mode => cases reg' with | mode => exact absurd rfl h | _ => rfl
  | width => cases reg' with | width => exact absurd rfl h | _ => rfl
  | rows => cases reg' with | rows => exact absurd rfl h | _ => rfl
  | spp => cases reg' with | spp => exact absurd rfl h | _ => rfl
  | inLen => cases reg' with | inLen => exact absurd rfl h | _ => rfl

/-- A configuration write leaves every other register but OUT_LEN, which is computed (R34). -/
theorem State.storeConfig_registerWord_of_ne {reg : CfgReg} {index : Fin 32} (h : index ≠ reg.index) (h7 : index ≠ 7)
    (data : Word) (s : State) : (s.storeConfig reg data).registerWord index = s.registerWord index := by
  have hcases : (index.val < 2 ∨ 8 ≤ index.val ∧ index.val < 16) ∨
      (2 ≤ index.val ∧ index.val < 7 ∨ 16 ≤ index.val) := by omega
  rcases hcases with hother | hconfig
  · rw [State.storeConfig_frame, State.registerWord_withConfig s _ hother]
  · obtain ⟨reg', rfl⟩ := CfgReg.exists_index hconfig
    have hne : reg' ≠ reg := fun heq => h (congrArg CfgReg.index heq)
    rw [State.registerWord_index, State.registerWord_index, State.storeConfig_configWord_of_ne hne]

/-- Settles O17: the register reads by `configWord`, the writes that are no configuration write by O19. -/
theorem configWriteReadsBack : Obligations.ConfigWriteReadsBack := by
  intro s reg index data hb
  have hexec : exec (.configWrite reg data) s = .next (s.storeConfig reg data) := if_neg (by simp [hb])
  refine ⟨⟨_, hexec, s.storeConfig_frame reg data, ?_, fun h h7 => State.storeConfig_registerWord_of_ne h h7 data s, ?_⟩,
    hostStep_of_command (decodeHostWrite_index reg data) s, hostStep_status data s,
    (otherWritesHaveNoEffect s index data).2.2⟩
  · rw [State.registerWord_index, State.storeConfig_configWord_same]
    cases reg <;> rfl
  · rintro i rfl hi
    exact State.storeConfig_reserved hi data

/-! ### What a decode step may change (R114 to R116, R130, R154)

`s.DecodesTo t` holds from every state, of the invariant or not, and says of STATUS and of OUT below OUT_POS what `Within`
does not. It composes, as `Within` does. -/

structure State.DecodesTo (s t : State) : Prop where
  frame : t = { s with
    status := t.status, cursor := t.cursor, outPos := t.outPos, lzw := t.lzw, outBuf := t.outBuf, phase := t.phase }
  status : t.status = { s.status with
    wTrunc := t.status.wTrunc, wOverrun := t.status.wOverrun, wUnderfill := t.status.wUnderfill }
  trunc : s.status.wTrunc = true → t.status.wTrunc = true
  overrun : s.status.wOverrun = true → t.status.wOverrun = true
  underfill : s.status.wUnderfill = true → t.status.wUnderfill = true
  outPos : s.outPos.toNat ≤ t.outPos.toNat
  bytes : ∀ a, a < s.outPos.toNat ∨ s.outLen ≤ a → t.readOut a = s.readOut a

namespace State.DecodesTo

variable {s t u : State}

theorem trans (h : s.DecodesTo t) (k : t.DecodesTo u) : s.DecodesTo u where
  frame := by rw [k.frame, h.frame]
  status := by rw [k.status, h.status]
  trunc := k.trunc ∘ h.trunc
  overrun := k.overrun ∘ h.overrun
  underfill := k.underfill ∘ h.underfill
  outPos := h.outPos.trans k.outPos
  bytes a ha := by
    have hlen : t.outLen = s.outLen := by rw [h.frame]; exact State.outLen_congr rfl rfl
    have ha' : a < t.outPos.toNat ∨ t.outLen ≤ a := ha.imp (fun hlt => hlt.trans_le h.outPos) hlen.trans_le
    exact (k.bytes a ha').trans (h.bytes a ha)

/-- A part of a step that touches neither STATUS nor OUT. -/
theorem of_frame (h : t = { s with cursor := t.cursor, lzw := t.lzw, phase := t.phase }) : s.DecodesTo t where
  frame := by rw [h]
  status := by rw [h]
  trunc := by rw [h]; exact id
  overrun := by rw [h]; exact id
  underfill := by rw [h]; exact id
  outPos := by rw [h]
  bytes a _ := by rw [h]; rfl

theorem warn (w : Warning) (s : State) : s.DecodesTo (s.warn w) where
  frame := rfl
  status := by cases w <;> rfl
  trunc h := by cases w <;> simp [Status.warn, h]
  overrun h := by cases w <;> simp [Status.warn, h]
  underfill h := by cases w <;> simp [Status.warn, h]
  outPos := le_rfl
  bytes _ _ := rfl

/-- R63: `Emit` writes from OUT_POS to OUT_LEN. -/
theorem emitAll (bs : Bytes) (s : State) : s.DecodesTo (s.emitAll bs) := by
  have he := s.emitAll_emitted bs
  have hpos := he.outPos
  refine ⟨?_, ?_, ?_, ?_, ?_, by omega, fun a ha => ?_⟩
  · rw [he.frame]
  · rw [he.status]; split <;> rfl
  · rw [he.status]; split <;> exact id
  · rw [he.status]; split <;> simp
  · rw [he.status]; split <;> exact id
  · rw [he.bytes, if_neg (by omega)]

theorem enterPredictor (s : State) : s.DecodesTo s.enterPredictor := by
  rw [s.enterPredictor_phase]; exact of_frame rfl

theorem afterDecode (s : State) : s.DecodesTo s.afterDecode := by
  unfold State.afterDecode
  split
  · exact (warn .underfill s).trans (enterPredictor _)
  · exact enterPredictor s

theorem truncated (s : State) : s.DecodesTo (s.warn .trunc).afterDecode := (warn .trunc s).trans (afterDecode _)

/-- R159 to R161, with room in the table or without. -/
theorem emitAndAdd (str entry : Bytes) (s : State) : s.DecodesTo (s.emitAndAdd str entry) := by
  refine (emitAll str s).trans ?_
  unfold State.emitAndAdd
  split
  · exact of_frame rfl
  · next v hv =>
    unfold State.addEntry at hv
    split at hv <;> cases hv
    exact of_frame rfl

/-! #### PackBits -/

theorem literalLoop (n : Nat) (s : State) :
    s.DecodesTo (literalLoop n s) ∧ (Machine.literalLoop n s).lzw = s.lzw := by
  induction n generalizing s with
  | zero => exact ⟨of_frame rfl, rfl⟩
  | succ n ih =>
    rw [Machine.literalLoop]
    split
    · exact ⟨truncated s, by simp⟩
    · next b _ =>
      obtain ⟨hto, hlzw⟩ := ih ((s.emit b).advance 8)
      exact ⟨((emitAll [b] s).trans (of_frame rfl)).trans hto, hlzw.trans (by simp)⟩

theorem runRecord {r : Record} (h : runRecord r s = .next t) : s.DecodesTo t ∧ t.lzw = s.lzw := by
  cases r with
  | nop => cases h; exact ⟨of_frame rfl, rfl⟩
  | literal c => cases h; exact literalLoop _ s
  | replicate w =>
    rw [Machine.runRecord, execPbReplicate] at h
    split at h <;> cases h
    · exact ⟨truncated s, by simp⟩
    · exact ⟨(of_frame rfl).trans (emitAll _ (s.advance 8)), by simp⟩

/-- R130: one iteration of the PackBits loop. -/
theorem packBitsStep (h : packBitsStep s = .next t) : s.DecodesTo t ∧ t.lzw = s.lzw := by
  unfold Machine.packBitsStep at h
  split at h
  · cases h; exact ⟨afterDecode s, by simp⟩
  split at h
  · cases h; exact ⟨truncated s, by simp⟩
  · obtain ⟨hto, hlzw⟩ := runRecord h
    exact ⟨(of_frame rfl).trans hto, hlzw⟩

/-! #### LZW -/

theorem execLzwFirst {c : Byte} (h : execLzwFirst c s = .next t) : s.DecodesTo t := by
  cases h
  exact (emitAll _ s).trans (of_frame rfl)

theorem execLzwClear (h : execLzwClear s = .next t) : s.DecodesTo t := by
  suffices hs : s.clearTable.DecodesTo t from (of_frame rfl : s.DecodesTo s.clearTable).trans hs
  unfold Machine.execLzwClear at h
  split at h
  · cases h; exact truncated s.clearTable
  next code v hread =>
  obtain ⟨-, rfl⟩ := State.readCode_some hread
  refine (of_frame rfl).trans (?_ : State.DecodesTo (s.clearTable.advance s.clearTable.lzw.cw.toNat) t)
  split at h
  · cases h; exact afterDecode _
  split at h
  · cases h; exact of_frame rfl
  · exact execLzwFirst h

theorem runCode {k : CodeClass} (h : runCode k s = .next t) : s.DecodesTo t := by
  cases k with
  | clear => exact execLzwClear h
  | endCode => cases h; exact afterDecode s
  | first c => exact execLzwFirst h
  | literal _ | table _ | pending =>
    simp only [Machine.runCode, execLzwLiteral, execLzwTable, execLzwPending] at h
    split at h <;> cases h
    · exact of_frame rfl
    · exact emitAndAdd _ _ s
  | invalid c => cases h; exact of_frame rfl
  | noClear c => cases h; exact of_frame rfl
  | implicitEnd => cases h; exact truncated s

/-- R154: one iteration of the LZW loop. -/
theorem lzwStep (h : lzwStep s = .next t) : s.DecodesTo t := by
  unfold Machine.lzwStep at h
  split at h
  · cases h; exact afterDecode s
  split at h
  · exact runCode h
  · next hread =>
    obtain ⟨-, rfl⟩ := State.readCode_some hread
    exact (of_frame rfl).trans (runCode h)

end State.DecodesTo

/-- Settles O8: a decode step answers a next state, and `DecodesTo` says how far it reaches. -/
theorem decodeStepsComplete : Obligations.DecodeStepsComplete := by
  intro s hp op hop
  rcases exec_of_mem_decoding hp hop with ⟨-, hexec⟩ | ⟨hne, hexec⟩
  · obtain ⟨t, ht⟩ := packBitsStep_next s
    obtain ⟨h, hlzw⟩ := State.DecodesTo.packBitsStep ht
    exact ⟨t, hexec.trans ht, h.frame, h.status, h.trunc, h.overrun, h.underfill, h.outPos, h.bytes, fun _ => hlzw⟩
  · obtain ⟨t, ht⟩ := lzwStep_next s
    have h := State.DecodesTo.lzwStep ht
    exact ⟨t, hexec.trans ht, h.frame, h.status, h.trunc, h.overrun, h.underfill, h.outPos, h.bytes,
      fun hpb => absurd hpb hne⟩

/-! ### Rows of OUT (R180, R181) -/

theorem State.rowBase_congr {s t : State} (hc : t.config = s.config) (b r : Nat) : t.rowBase b r = s.rowBase b r := by
  simp only [State.rowBase, State.samplesPerRow, hc]

theorem State.rowBase_succ (s : State) (b r : Nat) : s.rowBase b (r + 1) = s.rowBase b r + s.samplesPerRow * b := by
  simp only [State.rowBase]; ring

theorem State.rowBase_mono (s : State) (b : Nat) {r q : Nat} (h : r ≤ q) : s.rowBase b r ≤ s.rowBase b q :=
  Nat.mul_le_mul_right _ h

theorem State.inRow_iff (s : State) (b r a : Nat) : s.inRow b r a ↔ s.rowBase b r ≤ a ∧ a < s.rowBase b (r + 1) := by
  rw [State.inRow, s.rowBase_succ]

/-- The bytes of sample `i` lie below those of sample `j`. -/
theorem sample_end_le {i j : Nat} (h : i < j) (b : Nat) : i * b + b ≤ j * b := by
  rw [← Nat.succ_mul]; exact Nat.mul_le_mul_right b h

/-- The bytes of sample `i` lie in the row. -/
theorem State.inRow_sample (s : State) {b r i x : Nat} (hi : i < s.samplesPerRow) (hx : x < b) :
    s.inRow b r (s.rowBase b r + i * b + x) := by
  have := sample_end_le hi b
  exact ⟨by omega, by omega⟩

/-- What the proofs about rows use of a row transformation: `R b r s t` says that row `r` of `t` is that of `s` reversed,
and looks at no byte of OUT outside the row. -/
structure RowLaw (row : Nat → Nat → State → State) (R : Nat → Nat → State → State → Prop) : Prop where
  frame : ∀ b base s, row b base s = { s with outBuf := (row b base s).outBuf }
  outside : ∀ {b r a : Nat} {s : State}, ¬ s.inRow b r a → (row b (s.rowBase b r) s).readOut a = s.readOut a
  reversed : ∀ (b r : Nat) (s : State), R b r s (row b (s.rowBase b r) s)
  congr : ∀ {b r : Nat} {s s' t t' : State}, s'.config = s.config → t'.config = t.config →
    (∀ a, s.inRow b r a → s'.readOut a = s.readOut a) → (∀ a, s.inRow b r a → t'.readOut a = t.readOut a) →
    R b r s t → R b r s' t'

/-! #### HPRED_ROW -/

theorem State.outRead_outWrite_of_ne (s : State) {b base i j : Nat} (h : i ≠ j) (v : Nat) :
    (s.outWrite (base + i * b) b v).outRead (base + j * b) b = s.outRead (base + j * b) b := by
  refine State.outRead_congr _ _ (fun x hx => State.readOut_outWrite_of_outside s ?_) (by simp)
  rcases Nat.lt_or_gt_of_ne h with hlt | hgt
  · have := sample_end_le hlt b; omega
  · have := sample_end_le hgt b; omega

/-- The loop leaves the samples before its first. -/
theorem hpredLoop_outRead_of_lt {b base k i j : Nat} (h : j < i) (s : State) :
    (hpredLoop b base k i s).outRead (base + j * b) b = s.outRead (base + j * b) b := by
  have hend := sample_end_le h b
  refine State.outRead_congr _ _ (fun x hx => hpredLoop_readOut_of_outside (.inl (by omega))) ?_
  rw [hpredLoop_frame]

/-- Every sample of the loop is its old value plus the new value of the sample SPP before it. -/
theorem hpredLoop_outRead {b base k i j : Nat} {s : State} (hspp : 1 ≤ s.config.spp.toNat)
    (hi : s.config.spp.toNat ≤ i) (hij : i ≤ j) (hjk : j < i + k) :
    (hpredLoop b base k i s).outRead (base + j * b) b =
      (s.outRead (base + j * b) b +
        (hpredLoop b base k i s).outRead (base + (j - s.config.spp.toNat) * b) b) % 2 ^ (8 * b) := by
  induction k generalizing i s with
  | zero => omega
  | succ k ih =>
    rcases Nat.lt_or_eq_of_le hij with hlt | rfl
    · obtain ⟨v, hv⟩ : ∃ v, hpredLoop b base (k + 1) i s = hpredLoop b base k (i + 1) (s.outWrite (base + i * b) b v) :=
        ⟨_, rfl⟩
      rw [hv, ih (by simpa using hspp) (by simp; omega) hlt (by omega), State.outRead_outWrite_of_ne s hlt.ne,
        State.outWrite_config]
    · have hold := hpredLoop_outRead_of_lt (b := b) (base := base) (k := k + 1)
        (show i - s.config.spp.toNat < i by omega) s
      rw [hold, hpredLoop, hpredLoop_outRead_of_lt (Nat.lt_succ_self i), State.outRead_outWrite]
      exact Nat.mod_lt _ (Nat.two_pow_pos _)

/-- R182 to R184. -/
theorem hpredRow_reversed (b r : Nat) (s : State) : s.HorizontalRow b r (hpredRow b (s.rowBase b r) s) := by
  intro i hi
  split
  · next hlt => exact hpredLoop_outRead_of_lt hlt s
  · next hge =>
    have hspp : 1 ≤ s.config.spp.toNat := by
      rw [State.samplesPerRow] at hi
      exact Nat.pos_of_mul_pos_left (Nat.zero_lt_of_lt hi)
    exact hpredLoop_outRead hspp le_rfl (by omega) (by omega)

theorem State.HorizontalRow.congr {b r : Nat} {s s' t t' : State} (hs : s'.config = s.config)
    (ht : t'.config = t.config) (hin : ∀ a, s.inRow b r a → s'.readOut a = s.readOut a)
    (hout : ∀ a, s.inRow b r a → t'.readOut a = t.readOut a) (h : s.HorizontalRow b r t) : s'.HorizontalRow b r t' := by
  have hold : ∀ i < s.samplesPerRow, s'.outRead (s.rowBase b r + i * b) b = s.outRead (s.rowBase b r + i * b) b :=
    fun i hi => State.outRead_congr _ _ (fun x hx => hin _ (s.inRow_sample hi hx)) hs
  have hnew : ∀ i < s.samplesPerRow, t'.outRead (s.rowBase b r + i * b) b = t.outRead (s.rowBase b r + i * b) b :=
    fun i hi => State.outRead_congr _ _ (fun x hx => hout _ (s.inRow_sample hi hx)) ht
  have hn : s'.samplesPerRow = s.samplesPerRow := by simp only [State.samplesPerRow, hs]
  intro i hi
  rw [hn] at hi
  rw [State.rowBase_congr hs, hs, hold i hi, hnew i hi, hnew (i - s.config.spp.toNat) (by omega)]
  exact h i hi

theorem hpredRow_law : RowLaw hpredRow State.HorizontalRow where
  frame _ _ _ := hpredLoop_frame _ _ _ _ _
  outside := hpredRow_readOut_of_outside
  reversed := hpredRow_reversed
  congr := State.HorizontalRow.congr

/-! #### FPRED_ROW -/

/-- The running sum leaves the bytes before its first. -/
theorem prefixLoop_of_lt {stride k i j : Nat} (h : j < i) (tmp : Bytes) :
    (prefixLoop stride k i tmp)[j]? = tmp[j]? := by
  induction k generalizing i tmp with
  | zero => rfl
  | succ k ih => rw [prefixLoop, ih (by omega), List.getElem?_set_ne (by omega)]

/-- R185, phase 1: every byte of the loop is its old value plus the new value of the byte one stride before it. -/
theorem prefixLoop_getElem? {stride k i j : Nat} {tmp : Bytes} (hs : 1 ≤ stride) (hi : stride ≤ i)
    (hk : i + k ≤ tmp.length) (hij : i ≤ j) (hjk : j < i + k) :
    (prefixLoop stride k i tmp)[j]?.getD 0 =
      tmp[j]?.getD 0 + (prefixLoop stride k i tmp)[j - stride]?.getD 0 := by
  induction k generalizing i tmp with
  | zero => omega
  | succ k ih =>
    rcases Nat.lt_or_eq_of_le hij with hlt | rfl
    · rw [prefixLoop, ih (by omega) (by simp; omega) hlt (by omega), List.getElem?_set_ne (by omega)]
    · rw [prefixLoop_of_lt (show i - stride < i by omega), prefixLoop, prefixLoop_of_lt (Nat.lt_succ_self i),
        List.getElem?_set_self (by omega), Option.getD_some]

/-- R185, phase 2. -/
theorem regroup_getElem? {little : Bool} {b n k j : Nat} (hk : k < n) (hj : j < b) (tmp : Bytes) :
    (regroup little b n tmp)[k * b + j]? = some (tmp[(if little then b - 1 - j else j) * n + k]?.getD 0) := by
  have hlt : k * b + j < n * b := by have := sample_end_le hk b; omega
  have hmod : (k * b + j) % b = j := by rw [Nat.mul_add_mod', Nat.mod_eq_of_lt hj]
  have hdiv : (k * b + j) / b = k := by
    rw [Nat.add_comm, Nat.add_mul_div_right _ _ (by omega), Nat.div_eq_of_lt hj, Nat.zero_add]
  rw [regroup, List.getElem?_map, List.getElem?_range hlt, Option.map_some, hmod, hdiv]

/-- R185, phase 1: the byte planes of row `r` after the running sum. -/
def State.rowPlanes (s : State) (b r : Nat) : Bytes :=
  prefixLoop s.config.spp.toNat (s.samplesPerRow * b - s.config.spp.toNat) s.config.spp.toNat
    (s.outBytes (s.rowBase b r) (s.samplesPerRow * b))

theorem fpredRow_eq (b r : Nat) (s : State) : fpredRow b (s.rowBase b r) s =
    s.writeBytes (s.rowBase b r) (regroup s.littleEndian b s.samplesPerRow (s.rowPlanes b r)) := rfl

theorem State.rowPlanes_getElem? (s : State) {b r i : Nat} (hi : i < s.samplesPerRow * b) :
    (s.rowPlanes b r)[i]?.getD 0 =
      if i < s.config.spp.toNat then s.readOut (s.rowBase b r + i)
      else s.readOut (s.rowBase b r + i) + (s.rowPlanes b r)[i - s.config.spp.toNat]?.getD 0 := by
  have hlength := s.outBytes_length (s.rowBase b r) (s.samplesPerRow * b)
  have hbyte : (s.outBytes (s.rowBase b r) (s.samplesPerRow * b))[i]?.getD 0 = s.readOut (s.rowBase b r + i) := by
    rw [State.outBytes_getElem? _ _ _ _ hi, Option.getD_some]
  split
  · next hlt => rw [State.rowPlanes, prefixLoop_of_lt hlt, hbyte]
  · next hge =>
    have hspp : 1 ≤ s.config.spp.toNat := by
      rw [State.samplesPerRow, Nat.mul_right_comm] at hi
      exact Nat.pos_of_mul_pos_left (Nat.zero_lt_of_lt hi)
    rw [State.rowPlanes, prefixLoop_getElem? hspp le_rfl (by omega) (by omega) (by omega), hbyte]

/-- R185 to R189. -/
theorem fpredRow_reversed (b r : Nat) (s : State) : s.FloatRow b r (fpredRow b (s.rowBase b r) s) := by
  refine ⟨fun i => (s.rowPlanes b r)[i]?.getD 0, fun i hi => s.rowPlanes_getElem? hi, fun k hk j hj => ?_⟩
  rw [fpredRow_eq, State.readOut_writeBytes, if_pos (by omega), Nat.add_assoc, Nat.add_sub_cancel_left,
    regroup_getElem? hk hj, Option.getD_some]

theorem State.FloatRow.congr {b r : Nat} {s s' t t' : State} (hs : s'.config = s.config)
    (_ht : t'.config = t.config) (hin : ∀ a, s.inRow b r a → s'.readOut a = s.readOut a)
    (hout : ∀ a, s.inRow b r a → t'.readOut a = t.readOut a) (h : s.FloatRow b r t) : s'.FloatRow b r t' := by
  have hn : s'.samplesPerRow = s.samplesPerRow := by simp only [State.samplesPerRow, hs]
  have hl : s'.littleEndian = s.littleEndian := by simp only [State.littleEndian, hs]
  obtain ⟨tmp, hsum, hgroup⟩ := h
  refine ⟨tmp, fun i hi => ?_, fun k hk j hj => ?_⟩
  · rw [hn] at hi
    rw [hs, State.rowBase_congr hs, hin _ ⟨by omega, by omega⟩]
    exact hsum i hi
  · rw [hn] at hk
    rw [hl, hn, State.rowBase_congr hs, hout _ (s.inRow_sample hk hj)]
    exact hgroup k hk j hj

theorem fpredRow_law : RowLaw fpredRow State.FloatRow where
  frame _ _ _ := State.writeBytes_frame _ _ _
  outside := fpredRow_readOut_of_outside
  reversed := fpredRow_reversed
  congr := State.FloatRow.congr

/-! #### Predictor steps (R87, R181) -/

/-- R181: the step after the predictor step of row `r - 1`. -/
def State.rowPhase (s : State) (r : Nat) : Phase := if r < s.config.rows.toNat then .predict r else .finish .none

theorem State.nextRow_phase (s : State) (r : Nat) : s.nextRow r = { s with phase := s.rowPhase (r + 1) } := by
  rw [State.nextRow, State.rowPhase]; split <;> rfl

/-- R181: a predictor step reverses the row that is due. -/
theorem RowLaw.rowStep {row : Nat → Nat → State → State} {R : Nat → Nat → State → State → Prop} (h : RowLaw row R)
    {s : State} {r : Nat} (hp : s.phase = .predict r) (b : Nat) :
    ∃ t, rowStep b row s = .next t ∧ R b r s t ∧ (∀ a, ¬ s.inRow b r a → t.readOut a = s.readOut a) ∧
      t = { s with outBuf := t.outBuf, phase := s.rowPhase (r + 1) } := by
  have hstep : Machine.rowStep b row s = .next ((row b (s.rowBase b r) s).nextRow r) := by rw [Machine.rowStep, hp]
  have hsame : ∀ a, ((row b (s.rowBase b r) s).nextRow r).readOut a = (row b (s.rowBase b r) s).readOut a :=
    State.readOut_congr (by simp) (by simp)
  refine ⟨_, hstep, ?_, fun a ha => (hsame a).trans (h.outside ha), ?_⟩
  · exact h.congr rfl (by simp) (fun _ _ => rfl) (fun a _ => hsame a) (h.reversed b r s)
  · rw [State.nextRow_phase, h.frame]; rfl

theorem predictorStep_hpred {s : State} {b : Nat} (hb : b ∈ [1, 2, 4]) (hbps : (s.bps 0).toNat = 8 * b) :
    predictorStep 1 s = rowStep b hpredRow s := by
  simp only [List.mem_cons, List.not_mem_nil, or_false] at hb
  rcases hb with rfl | rfl | rfl <;> rw [predictorStep, rowOpOf, hbps] <;> rfl

theorem predictorStep_fpred {s : State} {b : Nat} (hb : b ∈ [2, 3, 4, 8]) (hbps : (s.bps 0).toNat = 8 * b) :
    predictorStep 2 s = rowStep b fpredRow s := by
  simp only [List.mem_cons, List.not_mem_nil, or_false] at hb
  rcases hb with rfl | rfl | rfl | rfl <;> rw [predictorStep, rowOpOf, hbps] <;> rfl

/-- R87: with a row due of samples of `b` bytes, the operation `op` transforms it by `row`. -/
def PredictsBy (op : Instr) (b : Nat) (row : Nat → Nat → State → State) : Prop :=
  ∀ (s : State) (r : Nat), s.phase = .predict r → (s.bps 0).toNat = 8 * b → exec op s = rowStep b row s

theorem predictsBy_hpred {op : Instr} {b : Nat} (hop : op ∈ [Instr.opExternalHpred, .opLzwHpred])
    (hb : b ∈ [1, 2, 4]) : PredictsBy op b hpredRow := by
  intro s r hp hbps
  rw [← predictorStep_hpred hb hbps]
  simp only [List.mem_cons, List.not_mem_nil, or_false] at hop
  rcases hop with rfl | rfl <;> exact operationStep_predict hp _ _

theorem predictsBy_fpred {b : Nat} (hb : b ∈ [2, 3, 4, 8]) : PredictsBy .opExternalFpred b fpredRow :=
  fun _ _ hp hbps => (operationStep_predict hp _ _).trans (predictorStep_fpred hb hbps)

/-- Settles O9: the sub-operation that BPS selects is HPRED_ROW or FPRED_ROW, and `RowLaw.rowStep` says what it does. -/
theorem predictorStepsComplete : Obligations.PredictorStepsComplete := by
  refine fun s r b hp hbps => ⟨fun hb op hop => ?_, fun hb => ?_⟩
  · rw [predictsBy_hpred hop hb s r hp hbps]
    exact hpredRow_law.rowStep hp b
  · rw [predictsBy_fpred hb s r hp hbps]
    exact fpredRow_law.rowStep hp b

/-! ### All rows (R112, R113, R181) -/

theorem run_succ {s t : State} (h : step s = .next t) (n : Nat) :
    Host.Core.run Sys2Proof.core (n + 1) s = Host.Core.run Sys2Proof.core n t := by
  have hstep : Sys2Proof.core.step s = .next t := h
  simp only [Host.Core.run, hstep]

theorem run_one {s t : State} (h : step s = .next t) : Host.Core.run Sys2Proof.core 1 s = .next t := run_succ h 0

theorem State.noted_frame (s : State) : s.noted = { s with trail := s.noted.trail } := by
  unfold State.noted; split <;> rfl

/-- A running operation `op`, left alone, with row `k` of samples of `b` bytes to come, or the finish step. -/
structure State.RowsDue (op : Instr) (b k : Nat) (s : State) : Prop where
  busy : s.status.busy = true
  turns : s.turns = []
  decoded : decode (.operation s.config.mode) = .ok op
  bps : (s.bps 0).toNat = 8 * b
  phase : s.phase = s.rowPhase k

/-- The rows from `k` on have been reversed, each from its own bytes, and the operation has finished. -/
structure State.RowsReversed (R : Nat → Nat → State → State → Prop) (b k : Nat) (s u : State) : Prop where
  status : u.status = s.status.finished .none
  rows : ∀ r, k ≤ r → r < s.config.rows.toNat → R b r s u
  rest : ∀ a, a < s.rowBase b k ∨ s.rowBase b s.config.rows.toNat ≤ a → u.readOut a = s.readOut a
  frame : u = { s with status := u.status, phase := .idle, trail := [], outBuf := u.outBuf }

section

variable {row : Nat → Nat → State → State} {R : Nat → Nat → State → State → Prop} {op : Instr} {b k : Nat}

/-- One row. -/
theorem State.RowsDue.step (hlaw : RowLaw row R) (hop : PredictsBy op b row) {s : State}
    (h : s.RowsDue op b k) (hk : k < s.config.rows.toNat) :
    ∃ t, Machine.step s = .next t ∧ t.RowsDue op b (k + 1) ∧ R b k s t ∧
      (∀ a, ¬ s.inRow b k a → t.readOut a = s.readOut a) ∧
      t = { s with outBuf := t.outBuf, phase := t.phase, trail := t.trail } := by
  have hphase : s.phase = .predict k := h.phase.trans (if_pos hk)
  obtain ⟨t, hrow, hreversed, houtside, hframe⟩ := hlaw.rowStep hphase b
  have hexec : exec op s = .next t := (hop s k hphase h.bps).trans hrow
  have hframe' : t.noted = { s with outBuf := t.outBuf, phase := s.rowPhase (k + 1), trail := t.noted.trail } := by
    rw [t.noted_frame, hframe]
  have hsame : ∀ a, t.noted.readOut a = t.readOut a := State.readOut_congr (by simp) (by simp)
  refine ⟨t.noted, ?_, ?_, ?_, fun a ha => (hsame a).trans (houtside a ha), ?_⟩
  · rw [step_of_no_turns h.turns, blockStep_of_exec h.busy h.decoded hexec]
  · rw [hframe']
    exact { busy := h.busy, turns := h.turns, decoded := h.decoded, bps := h.bps, phase := rfl }
  · exact hlaw.congr rfl (by simp) (fun _ _ => rfl) (fun a _ => hsame a) hreversed
  · rw [hframe']

/-- R110: with no row left the finish step is next. -/
theorem State.RowsDue.finish {s : State} (h : s.RowsDue op b k) (hk : ¬ k < s.config.rows.toNat) :
    Machine.step s = .next (s.finish .none) := by
  rw [step_of_no_turns h.turns, blockStep_finish h.busy (h.phase.trans (if_neg hk))]

/-- Row `k`, then the rows from `k + 1` on. -/
theorem State.RowsReversed.cons (hlaw : RowLaw row R) {s t u : State} (hk : k < s.config.rows.toNat)
    (hrow : R b k s t) (houtside : ∀ a, ¬ s.inRow b k a → t.readOut a = s.readOut a)
    (hframe : t = { s with outBuf := t.outBuf, phase := t.phase, trail := t.trail })
    (h : t.RowsReversed R b (k + 1) u) : s.RowsReversed R b k u := by
  have hc : t.config = s.config := by rw [hframe]
  have hu : u.config = t.config := by rw [h.frame]
  have hstatus : t.status = s.status := by rw [hframe]
  have hbase : ∀ r, t.rowBase b r = s.rowBase b r := State.rowBase_congr hc b
  have hin : ∀ {r a}, t.inRow b r a → s.rowBase b r ≤ a := fun ha => by rw [← hbase]; exact ha.1
  have hnext : s.rowBase b k ≤ s.rowBase b (k + 1) := s.rowBase_mono b (Nat.le_succ k)
  have hlast : s.rowBase b (k + 1) ≤ s.rowBase b s.config.rows.toNat := s.rowBase_mono b hk
  refine ⟨hstatus ▸ h.status, fun r hkr hr => ?_, fun a ha => ?_, ?_⟩
  · rcases Nat.lt_or_eq_of_le hkr with hlt | rfl
    · have hle : s.rowBase b (k + 1) ≤ s.rowBase b r := s.rowBase_mono b hlt
      refine hlaw.congr hc.symm rfl (fun a ha => (houtside a fun hrow => ?_).symm) (fun _ _ => rfl)
        (h.rows r hlt (hc ▸ hr))
      have hge := hin ha
      have hlt' := ((s.inRow_iff b k a).mp hrow).2
      omega
    · refine hlaw.congr rfl hu (fun _ _ => rfl) (fun a ha => h.rest a (.inl ?_)) hrow
      rw [hbase]
      exact ((s.inRow_iff b k a).mp ha).2
  · rw [h.rest a, houtside a]
    · rw [s.inRow_iff]; omega
    · rw [hbase, hbase, hc]; omega
  · rw [h.frame, hframe]

/-- R181, R109: one step per row, and the finish step. -/
theorem State.RowsDue.run (hlaw : RowLaw row R) (hop : PredictsBy op b row) {s : State} (h : s.RowsDue op b k)
    (hk : k ≤ s.config.rows.toNat) :
    ∃ u, Host.Core.run Sys2Proof.core (s.config.rows.toNat - k + 1) s = .next u ∧ s.RowsReversed R b k u := by
  obtain ⟨n, hn⟩ := Nat.exists_eq_add_of_le hk
  induction n generalizing k s with
  | zero =>
    refine ⟨s.finish .none, ?_, rfl, fun r hkr hr => by omega, fun _ _ => rfl, rfl⟩
    have hnone : s.config.rows.toNat - k = 0 := by omega
    rw [hnone]
    exact run_one (h.finish (by omega))
  | succ n ih =>
    have hlt : k < s.config.rows.toNat := by omega
    obtain ⟨t, hstep, hdue, hrow, houtside, hframe⟩ := h.step hlaw hop hlt
    have hc : t.config = s.config := by rw [hframe]
    obtain ⟨u, hrun, hreversed⟩ := ih hdue (by rw [hc]; omega) (by rw [hc]; omega)
    refine ⟨u, ?_, hreversed.cons hlaw hlt hrow houtside hframe⟩
    rw [run_succ hstep, ← hrun, hc]
    congr 1
    omega

/-- R109, R112, R113: an operation without a decode, from START to DONE. -/
theorem RowLaw.external (hlaw : RowLaw row R) (hop : PredictsBy op b row)
    {s t : State} {irqEn : Bool} (hb : s.status.busy = false) (hturns : s.turns = []) (hcomp : s.comp = 0)
    (hpred : s.pred = 1 ∨ s.pred = 2) (hcheck : s.configCheck = .none)
    (hdec : decode (.operation s.config.mode) = .ok op) (hbps : (s.bps 0).toNat = 8 * b)
    (ht : exec (.start irqEn) s = .next t) :
    ∃ u, Host.Core.run Sys2Proof.core (s.config.rows.toNat + 1) t = .next u ∧
      u.status = { busy := false, done := true, err := .none, wTrunc := false, wOverrun := false, wUnderfill := false } ∧
      (∀ r < s.config.rows.toNat, R b r s u) ∧
      (∀ a, s.config.rows.toNat * (s.samplesPerRow * b) ≤ a → u.readOut a = s.readOut a) ∧
      u = { t with status := u.status, phase := .idle, trail := [], outBuf := u.outBuf } := by
  have hphase : s.firstPhase = s.rowPhase 0 := by
    simp only [State.firstPhase_external hcheck hcomp, State.predictorPhase, State.rowPhase, hpred, true_and]
  obtain rfl : ({ s with irqEn := irqEn } : State).begun s.firstPhase startTrail = t := by
    rw [exec_start_idle hb] at ht
    exact Host.Outcome.next.inj ht
  obtain ⟨u, hrun, hreversed⟩ := State.RowsDue.run hlaw hop (k := 0) (op := op)
    (s := ({ s with irqEn := irqEn } : State).begun s.firstPhase startTrail)
    { busy := rfl, turns := hturns, decoded := hdec, bps := hbps, phase := hphase } (Nat.zero_le _)
  exact ⟨u, hrun, hreversed.status,
    fun r hr => hlaw.congr (s := ({ s with irqEn := irqEn } : State).begun s.firstPhase startTrail) rfl rfl
      (fun _ _ => rfl) (fun _ _ => rfl) (hreversed.rows r (Nat.zero_le r) hr),
    fun a ha => hreversed.rest a (.inr ha), hreversed.frame⟩

end

/-- R106: the depths that HORIZONTAL takes. -/
theorem State.bps_of_hpred {s : State} (hcheck : s.configCheck = .none) (hpred : s.pred = 1) {b : Nat}
    (hbps : (s.bps 0).toNat = 8 * b) : b ∈ [1, 2, 4] := by
  obtain ⟨-, -, hok, -⟩ := State.configCheck_none hcheck
  rcases State.predictorOk_cases hok with h | ⟨-, -, h⟩ | ⟨h, -⟩
  · simp [hpred] at h
  · simp only [List.mem_cons, List.not_mem_nil, or_false]; omega
  · simp [hpred] at h

/-- R106: the depths that FLOAT takes. -/
theorem State.bps_of_fpred {s : State} (hcheck : s.configCheck = .none) (hpred : s.pred = 2) {b : Nat}
    (hbps : (s.bps 0).toNat = 8 * b) : b ∈ [2, 3, 4, 8] := by
  obtain ⟨-, -, hok, -⟩ := State.configCheck_none hcheck
  rcases State.predictorOk_cases hok with h | ⟨h, -⟩ | ⟨-, -, -, h⟩
  · simp [hpred] at h
  · simp [hpred] at h
  · simp only [List.mem_cons, List.not_mem_nil, or_false]; omega

/-- R81: the operation words by the fields of MODE. -/
theorem decode_operation_fields (s : State) :
    (s.pred = 1 → s.comp = 0 → decode (.operation s.config.mode) = .ok .opExternalHpred) ∧
      (s.pred = 2 → s.comp = 0 → decode (.operation s.config.mode) = .ok .opExternalFpred) := by
  rw [decode, decodeOperation, ← State.pred, ← State.comp]
  constructor <;> intro hp hc <;> rw [hp, hc] <;> rfl

/-- Settles O47: the START step, a step of HPRED_ROW per row, the finish step. -/
theorem externalHpredReversesEveryRow : Obligations.ExternalHpredReversesEveryRow := by
  intro s t irqEn b hb hturns hcomp hpred hcheck hbps ht
  exact hpredRow_law.external (predictsBy_hpred (by simp) (State.bps_of_hpred hcheck hpred hbps))
    hb hturns hcomp (.inl hpred) hcheck ((decode_operation_fields s).1 hpred hcomp) hbps ht

/-- Settles O48: the START step, a step of FPRED_ROW per row, the finish step. -/
theorem externalFpredReversesEveryRow : Obligations.ExternalFpredReversesEveryRow := by
  intro s t irqEn b hb hturns hcomp hpred hcheck hbps ht
  exact fpredRow_law.external (predictsBy_fpred (State.bps_of_fpred hcheck hpred hbps))
    hb hturns hcomp (.inr hpred) hcheck ((decode_operation_fields s).2 hpred hcomp) hbps ht

/-! ### Every operation finishes (R121)

The number of steps an operation has still to take goes down with every step: a decode step that does not end its loop
consumes a control byte or a code. -/

/-- The least number of bits an iteration of the decode loop consumes (R82, R86). -/
def State.itemBits (s : State) : Nat := if s.comp = 1 then 8 else 9

/-- An upper bound of the steps left. -/
def State.stepsLeft (s : State) : Nat :=
  match s.phase with
  | .idle => 0
  | .decode => (8 * s.config.inLen.toNat - s.cursor.toNat) / s.itemBits + s.config.rows.toNat + 2
  | .predict r => s.config.rows.toNat - r + 1
  | .finish _ => 1

theorem State.stepsLeft_decode {s : State} (h : s.phase = .decode) : s.stepsLeft =
    (8 * s.config.inLen.toNat - s.cursor.toNat) / s.itemBits + s.config.rows.toNat + 2 := by
  rw [State.stepsLeft, h]

theorem State.stepsLeft_predict {s : State} {r : Nat} (h : s.phase = .predict r) :
    s.stepsLeft = s.config.rows.toNat - r + 1 := by
  rw [State.stepsLeft, h]

theorem State.stepsLeft_le {s : State} (h : s.phase ≠ .decode) : s.stepsLeft ≤ s.config.rows.toNat + 1 := by
  rw [State.stepsLeft]
  split
  · omega
  · next hp => exact absurd hp h
  · omega
  · omega

theorem State.stepsLeft_pos {s : State} (h : s.phase ≠ .idle) : 0 < s.stepsLeft := by
  rw [State.stepsLeft]
  split
  · next hp => exact absurd hp h
  all_goals exact Nat.succ_pos _

theorem State.itemBits_packBits {s : State} (h : s.comp = 1) : s.itemBits = 8 := if_pos h

theorem State.itemBits_lzw {s : State} (h : s.comp = 2) : s.itemBits = 9 := if_neg (by simp [h])

/-- R121: a decode has at most the decode steps counted there left. -/
theorem State.stepsLeft_le_decodeBound {s : State} (h : s.phase = .decode → s.comp = 1 ∨ s.comp = 2) :
    s.stepsLeft ≤ s.decodeBound + s.config.rows.toNat + 1 := by
  by_cases hp : s.phase = .decode
  · rw [State.stepsLeft_decode hp]
    rcases h hp with hc | hc
    · have hbound : s.decodeBound = s.config.inLen.toNat + 1 := by simp [State.decodeBound, hc]
      rw [State.itemBits_packBits hc, hbound]
      omega
    · have hbound : s.decodeBound = 8 * s.config.inLen.toNat / 9 + 2 := by simp [State.decodeBound, hc]
      rw [State.itemBits_lzw hc, hbound]
      omega
  · have := State.stepsLeft_le hp
    omega

/-- The end of a decode loop is no decode step. -/
theorem State.afterDecode_phase_ne (s : State) : s.afterDecode.phase ≠ .decode := by
  rw [endOfDecodeReportsUnderfill s]
  simp only
  split <;> simp

/-- R82: an iteration of the PackBits loop that does not end it consumes the control byte. -/
theorem State.Decodes.packBits_consumes {s t : State} (h : s.Decodes) (hcomp : s.comp = 1)
    (ht : Machine.packBitsStep s = .next t) (hp : t.phase = .decode) : s.cursor.toNat + 8 ≤ t.cursor.toNat := by
  unfold Machine.packBitsStep at ht
  split at ht
  · cases ht; exact absurd hp (State.afterDecode_phase_ne _)
  split at ht
  · cases ht; exact absurd hp (State.afterDecode_phase_ne _)
  · next u hu =>
    have hroom := h.byteHere_room hcomp hu
    obtain ⟨-, hd⟩ := h.advance hroom fun _ => rfl
    have hwithin := (hd.runRecord (by simpa using hcomp) ht).1
    rw [← h.toActive.advance_cursor h.comp hroom]
    exact hwithin.cursor

/-- R86: an iteration of the LZW loop that does not end it consumes a code. -/
theorem State.Decodes.lzw_consumes {s t : State} (h : s.Decodes) (hcomp : s.comp = 2) (hfits : s.lzw.PrevFits)
    (ht : Machine.lzwStep s = .next t) (hp : t.phase = .decode) : s.cursor.toNat + 9 ≤ t.cursor.toNat := by
  have hcw := h.lzw.cw_le.1
  unfold Machine.lzwStep at ht
  split at ht
  · cases ht; exact absurd hp (State.afterDecode_phase_ne _)
  next hroom =>
  have hover : s.status.wOverrun = false := by
    rw [← Bool.not_eq_true]; exact fun hw => hroom (h.overrunFull hw)
  split at ht
  · cases ht; exact absurd hp (State.afterDecode_phase_ne _)
  · next code u hread =>
    obtain ⟨hin, rfl⟩ := State.readCode_some hread
    obtain ⟨-, hd⟩ := h.advance hin (by simp [hcomp])
    obtain ⟨hfirst, htable⟩ := classOf_bounds (ctx := s.lzwContext) rfl h.lzw.high (code := code)
    have hwithin := (hd.runCode (by simpa using hcomp) hfits hover hfirst htable ht).1
    have hcursor := h.toActive.advance_cursor h.comp hin
    have hle := hwithin.cursor
    omega

/-- A decode step leaves fewer steps. -/
theorem State.Decodes.stepsLeft_lt {s t : State} (h : s.Decodes) (hto : s.DecodesTo t) (ht : t.Inv)
    (hconsumes : t.phase = .decode → s.cursor.toNat + s.itemBits ≤ t.cursor.toNat) :
    t.stepsLeft < s.stepsLeft := by
  have hc : t.config = s.config := by rw [hto.frame]
  rw [State.stepsLeft_decode h.phase]
  by_cases hp : t.phase = .decode
  · have hitem : t.itemBits = s.itemBits := by rw [hto.frame]; rfl
    have hpos : 0 < s.itemBits := by rw [State.itemBits]; split <;> decide
    have hbound : t.cursor.toNat ≤ 8 * s.config.inLen.toNat := hc ▸ (ht.decodes hp).cursorBound
    have hle := hconsumes hp
    have hdiv : (8 * s.config.inLen.toNat - t.cursor.toNat) / s.itemBits <
        (8 * s.config.inLen.toNat - s.cursor.toNat) / s.itemBits := by
      rw [Nat.lt_iff_add_one_le, ← Nat.add_div_right _ hpos]
      exact Nat.div_le_div_right (by omega)
    rw [State.stepsLeft_decode hp, hitem, hc]
    omega
  · calc t.stepsLeft ≤ s.config.rows.toNat + 1 := hc ▸ State.stepsLeft_le hp
      _ < (8 * s.config.inLen.toNat - s.cursor.toNat) / s.itemBits + s.config.rows.toNat + 2 :=
        Nat.succ_lt_succ (Nat.lt_succ_of_le (Nat.le_add_left _ _))

/-- R87, R181: what a predictor step leaves as it is, and what comes next. -/
theorem predictorStep_frame {pred : BitVec 2} {s t : State} {r : Nat} (hp : s.phase = .predict r)
    (ht : predictorStep pred s = .next t) : t = { s with outBuf := t.outBuf, phase := s.rowPhase (r + 1) } := by
  unfold predictorStep at ht
  split at ht
  case h_2 => cases ht
  next op hop =>
  obtain ⟨b, row, -, hrow, hrun⟩ := runRow_eq_rowStep hop
  have hlaw : ∃ R, RowLaw row R := by
    rcases hrow with rfl | rfl
    · exact ⟨_, hpredRow_law⟩
    · exact ⟨_, fpredRow_law⟩
  obtain ⟨R, hlaw⟩ := hlaw
  obtain ⟨u, hu, -, -, hframe⟩ := hlaw.rowStep hp b
  rw [hrun, hu] at ht
  cases ht
  exact hframe

/-- A predictor step leaves fewer steps. -/
theorem predictorStep_stepsLeft_lt {pred : BitVec 2} {s t : State} {r : Nat} (hp : s.phase = .predict r)
    (hr : r < s.config.rows.toNat) (ht : predictorStep pred s = .next t) : t.stepsLeft < s.stepsLeft := by
  rw [State.stepsLeft_predict hp, predictorStep_frame hp ht, State.stepsLeft, State.rowPhase]
  by_cases hlast : r + 1 < s.config.rows.toNat
  · simp only [if_pos hlast]; omega
  · simp only [if_neg hlast]; omega

@[simp] theorem State.noted_stepsLeft (s : State) : s.noted.stepsLeft = s.stepsLeft := by
  simp [State.stepsLeft, State.itemBits]

/-- A step of the running operation ends it or leaves fewer steps. -/
theorem blockStep_stepsLeft {s t : State} (h : s.Inv) (hb : s.status.busy = true) (ht : blockStep s = .next t) :
    (t.status.busy = false ∧ t.status.done = true) ∨ (t.status.busy = true ∧ t.stepsLeft < s.stepsLeft) := by
  obtain ⟨u, rfl, hu⟩ := blockStep_cases h hb ht
  rw [State.noted_status, State.noted_stepsLeft]
  rcases hu with ⟨e, hp, rfl⟩ | ⟨r, hp, hu⟩ | ⟨hp, hc, hu⟩ | ⟨hp, hc, hu⟩
  · exact .inl ⟨rfl, rfl⟩
  · have hbusy : u.status.busy = true := by rw [predictorStep_frame hp hu]; exact hb
    exact .inr ⟨hbusy, predictorStep_stepsLeft_lt hp (h.predictRow r hp).1 hu⟩
  · have hd := h.decodes hp
    have hto := (State.DecodesTo.packBitsStep hu).1
    have hconsumes : u.phase = .decode → s.cursor.toNat + s.itemBits ≤ u.cursor.toNat := by
      rw [State.itemBits_packBits hc]
      exact hd.packBits_consumes hc hu
    exact .inr ⟨by rw [hto.status]; exact hb, hd.stepsLeft_lt hto (hd.packBitsStep hc hu).2 hconsumes⟩
  · have hd := h.decodes hp
    have hto := State.DecodesTo.lzwStep hu
    have hfits := h.decodePrev hp
    have hconsumes : u.phase = .decode → s.cursor.toNat + s.itemBits ≤ u.cursor.toNat := by
      rw [State.itemBits_lzw hc]
      exact hd.lzw_consumes hc hfits hu
    exact .inr ⟨by rw [hto.status]; exact hb, hd.stepsLeft_lt hto (hd.lzwStep hc hfits hu).2 hconsumes⟩

/-- Left alone, an operation finishes within the steps left. -/
theorem State.Inv.finishes {s : State} (h : s.Inv) (hb : s.status.busy = true) (hturns : s.turns = []) {m : Nat}
    (hm : s.stepsLeft ≤ m) : ∃ n t, n ≤ m ∧ Host.Core.run Sys2Proof.core n s = .next t ∧
      t.status.busy = false ∧ t.status.done = true := by
  induction m generalizing s with
  | zero =>
    have := State.stepsLeft_pos (h.busyPhase.mp hb)
    omega
  | succ m ih =>
    obtain ⟨t, ht⟩ := h.blockStep_next
    have hstep : step s = .next t := (step_of_no_turns hturns).trans ht
    rcases blockStep_stepsLeft h hb ht with ⟨hidle, hdone⟩ | ⟨hbusy, hlt⟩
    · exact ⟨1, t, by omega, run_one hstep, hidle, hdone⟩
    · obtain ⟨hwithin, hinv⟩ := blockStep_within_inv h hb ht
      have hturns' : t.turns = [] := by rw [hwithin.frame]; exact hturns
      obtain ⟨n, u, hn, hrun, hend⟩ := ih hinv hbusy hturns' (by omega)
      exact ⟨n + 1, u, by omega, (run_succ hstep n).trans hrun, hend⟩

/-- Settles O49: `stepsLeft` is within the bound and goes down with every step. -/
theorem everyOperationFinishes : Obligations.EveryOperationFinishes :=
  fun _ h hb hturns => h.finishes hb hturns (State.stepsLeft_le_decodeBound h.decodeComp)

end Sys2Proof.Machine

namespace Sys2Proof.Machine

/-! ### The item a running operation executes (R130, R154, R181) -/

/-- Settles O23: the meaning of PB_NOP is its state. -/
theorem pbNopChangesNothing : Obligations.PbNopChangesNothing := fun _ => rfl

theorem State.byteHere_of_le {s : State} (h : s.config.inLen.toNat ≤ s.cursor.toNat / 8) : s.byteHere = none :=
  if_pos h

theorem State.byteHere_of_lt {s : State} (h : s.cursor.toNat / 8 < s.config.inLen.toNat) :
    s.byteHere = some (s.inByte (s.cursor.toNat / 8)) := if_neg (Nat.not_le.mpr h)

/-- R130: with room in OUT and a byte of input left, the record of that byte runs, CURSOR past the byte. -/
theorem packBitsStep_record {s : State} {u : Byte} (hroom : s.outPos.toNat < s.outLen) (hu : s.byteHere = some u) :
    packBitsStep s = runRecord (recordOf u) (s.advance 8) := by
  rw [packBitsStep, if_neg (Nat.not_le.mpr hroom), hu]

/-- R84: the class of the bits of one code. -/
theorem classOfBits_code {ctx : LzwContext} {bits : List Bool} (h : bits.length = ctx.cw) :
    classOfBits ctx bits = classOf ctx (codeValue bits) := by
  rw [classOfBits, if_neg (by omega), List.take_of_length_le h.le]

/-- R154: with room in OUT the class of the next bits runs, CURSOR past the code if there is one. -/
theorem lzwStep_code {s : State} (hroom : s.outPos.toNat < s.outLen) (hcw : 0 < s.lzw.cw.toNat) :
    lzwStep s = runCode (classOfBits s.lzwContext s.codeBits)
      (if 8 * s.config.inLen.toNat < s.cursor.toNat + s.lzw.cw.toNat then s else s.advance s.lzw.cw.toNat) := by
  rw [lzwStep, if_neg (Nat.not_le.mpr hroom), State.readCode, State.codeBits]
  by_cases hend : 8 * s.config.inLen.toNat < s.cursor.toNat + s.lzw.cw.toNat
  · have hclass : classOfBits s.lzwContext [] = .implicitEnd := if_pos hcw
    simp only [if_pos hend, hclass]
  · have hclass := classOfBits_code (ctx := s.lzwContext) (s.inBits_length s.cursor.toNat s.lzw.cw.toNat)
    simp only [if_neg hend, hclass]

/-- R87: a predictor step runs the sub-operation that PRED and BPS decode to. -/
theorem predictorStep_decoded {p : BitVec 2} {s : State} {i : Instr}
    (h : decode (.predictor p (s.bps 0)) = .ok i) : predictorStep p s = exec i s := by
  rw [decode] at h
  rw [predictorStep]
  cases hop : rowOpOf p (s.bps 0) with
  | error r => rw [hop] at h; cases h
  | ok op =>
    rw [hop] at h
    cases h
    exact (exec_rowOp op s).symm

/-- Settles O5: the record, the code and the row, each run as the instruction it decodes to. -/
theorem operationRunsDecodedItem : Obligations.OperationRunsDecodedItem := by
  refine ⟨fun s u i hp hroom hin hu hi => ?_, fun s i hp hroom hcw hi op hop => ?_,
    fun s r i op p hp hop hi => ?_⟩
  · subst hu
    cases hi
    calc exec .opPackbits s = packBitsStep s := operationStep_decode hp _ _
      _ = runRecord (recordOf _) (s.advance 8) := packBitsStep_record hroom (State.byteHere_of_lt hin)
      _ = exec (recordOf _).instr (s.advance 8) := (exec_record _ _).symm
  · cases hi
    have hexec : exec op s = lzwStep s := by
      simp only [List.mem_cons, List.not_mem_nil, or_false] at hop
      rcases hop with rfl | rfl <;> exact operationStep_decode hp _ _
    rw [hexec, lzwStep_code hroom (by omega), exec_code, State.advance, BitVec.ofNat_toNat]
  · rw [← predictorStep_decoded hi]
    simp only [List.mem_cons, List.not_mem_nil, or_false, Prod.mk.injEq] at hop
    rcases hop with ⟨rfl, rfl⟩ | ⟨rfl, rfl⟩ | ⟨rfl, rfl⟩ <;> exact operationStep_predict hp _ _

/-! ### The input ahead of CURSOR (R131)

`s.bytesAhead n` is the input a literal record of `n` bytes copies. The rest of the input is what is ahead once CURSOR is
past it. -/

/-- The next `n` input bytes, as many as IN_LEN leaves. -/
def State.bytesAhead (s : State) (n : Nat) : Bytes :=
  (List.range (min n (s.config.inLen.toNat - s.cursor.toNat / 8))).map fun j => s.inByte (s.cursor.toNat / 8 + j)

theorem State.bytesAhead_length (s : State) (n : Nat) :
    (s.bytesAhead n).length = min n (s.config.inLen.toNat - s.cursor.toNat / 8) := by
  rw [State.bytesAhead, List.length_map, List.length_range]

theorem State.bytesAhead_congr {s t : State} (hconfig : t.config = s.config) (hcursor : t.cursor = s.cursor)
    (hin : t.inBuf = s.inBuf) (hups : t.powerUps = s.powerUps) (n : Nat) : t.bytesAhead n = s.bytesAhead n := by
  simp only [State.bytesAhead, hconfig, hcursor, State.inByte_congr hconfig hin hups]

theorem State.bytesAhead_of_none {s : State} (h : s.byteHere = none) (n : Nat) : s.bytesAhead n = [] := by
  have hle : s.config.inLen.toNat ≤ s.cursor.toNat / 8 := by
    by_contra hlt
    simp [State.byteHere_of_lt (Nat.lt_of_not_le hlt)] at h
  rw [State.bytesAhead, Nat.sub_eq_zero_of_le hle, Nat.min_zero, List.range_zero, List.map_nil]

/-- R15, R107: CURSOR, past a byte of the input, stands at the next byte. -/
theorem State.byteHere_eq_some {s : State} (hlen : s.config.inLen.toNat ≤ 2 ^ 28) {b : Byte}
    (h : s.byteHere = some b) : s.cursor.toNat / 8 < s.config.inLen.toNat ∧ b = s.inByte (s.cursor.toNat / 8) ∧
      (s.advance 8).cursor.toNat / 8 = s.cursor.toNat / 8 + 1 := by
  have hlt : s.cursor.toNat / 8 < s.config.inLen.toNat := by
    by_contra hle
    simp [State.byteHere_of_le (Nat.le_of_not_lt hle)] at h
  rw [State.byteHere_of_lt hlt] at h
  refine ⟨hlt, (Option.some.inj h).symm, ?_⟩
  rw [State.advance_cursor, BitVec.toNat_add, BitVec.toNat_ofNat]
  omega

theorem State.bytesAhead_succ {s : State} (hlen : s.config.inLen.toNat ≤ 2 ^ 28) {b : Byte}
    (h : s.byteHere = some b) (n : Nat) : s.bytesAhead (n + 1) = b :: (s.advance 8).bytesAhead n := by
  obtain ⟨hlt, rfl, hnext⟩ := State.byteHere_eq_some hlen h
  have hcount : min (n + 1) (s.config.inLen.toNat - s.cursor.toNat / 8) =
      min n (s.config.inLen.toNat - (s.cursor.toNat / 8 + 1)) + 1 := by omega
  simp only [State.bytesAhead, hnext, hcount, List.range_succ_eq_map, List.map_cons, List.map_map, Nat.add_zero,
    State.advance_config, State.advance_inByte, Function.comp_def, Nat.succ_eq_add_one, Nat.add_right_comm _ 1,
    Nat.add_assoc]

/-- The first byte of the input ahead, and the input ahead of the byte after it. -/
theorem State.bytesAhead_cons {s : State} (hlen : s.config.inLen.toNat ≤ 2 ^ 28) {n : Nat} {b : Byte} {bs : Bytes}
    (h : s.bytesAhead (n + 1) = b :: bs) : s.byteHere = some b ∧ (s.advance 8).bytesAhead n = bs := by
  cases hb : s.byteHere with
  | none => rw [State.bytesAhead_of_none hb] at h; cases h
  | some c =>
    rw [State.bytesAhead_succ hlen hb] at h
    obtain ⟨rfl, hrest⟩ := List.cons.inj h
    exact ⟨rfl, hrest⟩

theorem State.advance_advance (m n : Nat) (s : State) : (s.advance m).advance n = s.advance (m + n) := by
  rw [State.advance, State.advance, State.advance, BitVec.add_assoc, BitVec.ofNat_add]

/-- Input ahead in two parts: the first part, and the second once CURSOR is past the first. -/
theorem State.bytesAhead_append {s : State} (hlen : s.config.inLen.toNat ≤ 2 ^ 28) {bs cs : Bytes}
    (h : s.bytesAhead (bs ++ cs).length = bs ++ cs) :
    s.bytesAhead bs.length = bs ∧ (s.advance (8 * bs.length)).bytesAhead cs.length = cs := by
  induction bs generalizing s with
  | nil =>
    refine ⟨by simp [State.bytesAhead], ?_⟩
    exact (State.bytesAhead_congr (s := s) (t := s.advance 0) rfl (by simp) rfl rfl _).trans h
  | cons b bs ih =>
    obtain ⟨hb, hrest⟩ := State.bytesAhead_cons hlen h
    obtain ⟨hfirst, hsecond⟩ := ih (s := s.advance 8) hlen hrest
    rw [State.advance_advance] at hsecond
    refine ⟨?_, ?_⟩
    · rw [List.length_cons, State.bytesAhead_succ hlen hb, hfirst]
    · rwa [List.length_cons, show 8 * (bs.length + 1) = 8 + 8 * bs.length by omega]

/-! ### Literal and replicate records (R131, R132) -/

/-- `bs` copied from the input: emitted, and CURSOR past it. -/
def State.copied (bs : Bytes) (s : State) : State :=
  { s.emitAll bs with cursor := s.cursor + BitVec.ofNat 32 (8 * bs.length) }

theorem State.emitAll_advance (bs : Bytes) (n : Nat) (s : State) :
    (s.advance n).emitAll bs = { s.emitAll bs with cursor := s.cursor + BitVec.ofNat 32 n } :=
  s.emitAll_withCursor bs _

/-- R131: one byte copied, then the rest. -/
theorem State.copied_cons (b : Byte) (bs : Bytes) (s : State) :
    State.copied bs ((s.emit b).advance 8) = s.copied (b :: bs) := by
  have hcursor : s.cursor + BitVec.ofNat 32 8 + BitVec.ofNat 32 (8 * bs.length) =
      s.cursor + BitVec.ofNat 32 (8 * (b :: bs).length) := by
    rw [BitVec.add_assoc, ← BitVec.ofNat_add, List.length_cons, Nat.mul_succ, Nat.add_comm 8]
  rw [State.copied, State.copied, State.emitAll_advance, State.advance_cursor, State.emit_cursor, hcursor,
    State.emitAll]

/-- R131: the loop copies what is ahead, and ends the decode if that is less than it wants. -/
theorem literalLoop_eq {s : State} (hlen : s.config.inLen.toNat ≤ 2 ^ 28) (n : Nat) :
    literalLoop n s = if (s.bytesAhead n).length < n then ((s.copied (s.bytesAhead n)).warn .trunc).afterDecode
      else s.copied (s.bytesAhead n) := by
  induction n generalizing s with
  | zero => simp [literalLoop, State.bytesAhead, State.copied, State.emitAll]
  | succ n ih =>
    rw [literalLoop]
    cases hb : s.byteHere with
    | none => simp [State.bytesAhead_of_none hb, State.copied, State.emitAll]
    | some b =>
      have hahead : ((s.emit b).advance 8).bytesAhead n = (s.advance 8).bytesAhead n :=
        State.bytesAhead_congr (by simp) (by simp) (by simp) (by simp) n
      simp only [ih (s := (s.emit b).advance 8) (by simpa using hlen), hahead, State.copied_cons,
        State.bytesAhead_succ hlen hb, List.length_cons, Nat.add_lt_add_iff_right]

/-- Settles O24: the loop of PB_LITERAL, with the input it copies written out. -/
theorem pbLiteralCopiesPayload : Obligations.PbLiteralCopiesPayload := by
  intro s c hlen
  refine ⟨_, s.emitAll_emitted (s.bytesAhead (literalCount c)), congrArg Host.Outcome.next ?_⟩
  rw [literalLoop_eq hlen, State.copied, s.bytesAhead_length]
  rfl

/-- R85, R132: the count of a replicate record. -/
theorem replicateCount_eq {u : Byte} (h : 0x81 ≤ u.toNat) : replicateCount u = 257 - u.toNat := by
  rw [replicateCount, sext8, BitVec.toInt_eq_toNat_cond, if_neg (by omega)]
  omega

/-- R132: with its payload byte there. -/
theorem execPbReplicate_of_byte {s : State} {u b : Byte} (h : 0x81 ≤ u.toNat) (hb : s.byteHere = some b) :
    execPbReplicate u s = .next { s.emitAll (List.replicate (257 - u.toNat) b) with cursor := s.cursor + 8 } := by
  simp only [execPbReplicate, hb, replicateCount_eq h, State.emitAll_advance]
  rfl

/-- R132: without its payload byte. -/
theorem execPbReplicate_of_none {s : State} (u : Byte) (hb : s.byteHere = none) :
    execPbReplicate u s = .next (s.warn .trunc).afterDecode := by
  simp only [execPbReplicate, hb]

/-- Settles O25: without the payload byte, and with it. -/
theorem pbReplicateRepeatsByte : Obligations.PbReplicateRepeatsByte := fun s _ hu =>
  ⟨fun hend => execPbReplicate_of_none _ (State.byteHere_of_le hend),
    fun hin => ⟨_, s.emitAll_emitted _, execPbReplicate_of_byte hu (State.byteHere_of_lt hin)⟩⟩

/-! ### What OUT held (R134)

`State.Twins s₁ s₂ t₁ t₂`: `t₁` and `t₂`, reached from `s₁` and `s₂`, differ in OUT alone, and every byte of OUT was
written the same in both or left alone in both. Each part of a decode step keeps it. -/

structure State.Twins (s₁ s₂ t₁ t₂ : State) : Prop where
  frame : t₂ = { t₁ with outBuf := t₂.outBuf }
  bytes : ∀ a, t₁.readOut a = t₂.readOut a ∨ (t₁.readOut a = s₁.readOut a ∧ t₂.readOut a = s₂.readOut a)

/-- Both outcomes are next states, and those are twins. -/
def State.TwinNext (s₁ s₂ : State) (o₁ o₂ : Host.Outcome State Fault Refusal) : Prop :=
  ∃ t₁ t₂, o₁ = .next t₁ ∧ o₂ = .next t₂ ∧ State.Twins s₁ s₂ t₁ t₂

namespace State.Twins

variable {s₁ s₂ t₁ t₂ : State}

theorem refl (h : s₂ = { s₁ with outBuf := s₂.outBuf }) : Twins s₁ s₂ s₁ s₂ := ⟨h, fun _ => .inr ⟨rfl, rfl⟩⟩

theorem next (h : Twins s₁ s₂ t₁ t₂) : TwinNext s₁ s₂ (.next t₁) (.next t₂) := ⟨t₁, t₂, rfl, rfl, h⟩

/-- A part of a step that neither reads nor writes OUT. -/
theorem map {f : State → State} (hout : ∀ t, (f t).outBuf = t.outBuf) (hups : ∀ t, (f t).powerUps = t.powerUps)
    (hf : ∀ t m, f { t with outBuf := m } = { f t with outBuf := m }) (h : Twins s₁ s₂ t₁ t₂) :
    Twins s₁ s₂ (f t₁) (f t₂) where
  frame := by rw [hout, ← hf, ← h.frame]
  bytes a := by
    have hread : ∀ t, (f t).readOut a = t.readOut a := fun t => State.readOut_congr (hout t) (hups t) a
    rw [hread, hread]
    exact h.bytes a

theorem advance (n : Nat) (h : Twins s₁ s₂ t₁ t₂) : Twins s₁ s₂ (t₁.advance n) (t₂.advance n) :=
  h.map (fun _ => rfl) (fun _ => rfl) fun _ _ => rfl

theorem warn (w : Warning) (h : Twins s₁ s₂ t₁ t₂) : Twins s₁ s₂ (t₁.warn w) (t₂.warn w) :=
  h.map (fun _ => rfl) (fun _ => rfl) fun _ _ => rfl

theorem outLen (h : Twins s₁ s₂ t₁ t₂) : t₂.outLen = t₁.outLen := by
  rw [h.frame]; exact State.outLen_congr rfl rfl

theorem outPos (h : Twins s₁ s₂ t₁ t₂) : t₂.outPos = t₁.outPos := by rw [h.frame]

theorem byteHere (h : Twins s₁ s₂ t₁ t₂) : t₂.byteHere = t₁.byteHere := by rw [h.frame]; rfl

/-- R109: the end of a decode loop looks at OUT_POS, OUT_LEN and the configuration. -/
theorem afterDecode (h : Twins s₁ s₂ t₁ t₂) : Twins s₁ s₂ t₁.afterDecode t₂.afterDecode := by
  refine h.map (fun _ => by simp) (fun _ => by simp) fun t m => ?_
  rw [endOfDecodeReportsUnderfill, endOfDecodeReportsUnderfill]
  rfl

/-- R63: `Emit` writes the same bytes at the same addresses. -/
theorem emitAll (bs : Bytes) (h : Twins s₁ s₂ t₁ t₂) : Twins s₁ s₂ (t₁.emitAll bs) (t₂.emitAll bs) := by
  have h₁ := t₁.emitAll_emitted bs
  have h₂ := t₂.emitAll_emitted bs
  have hpos : (t₂.emitAll bs).outPos = (t₁.emitAll bs).outPos := by
    rw [BitVec.toNat_eq, h₂.outPos, h₁.outPos, h.outLen, h.outPos]
  have hstatus : (t₂.emitAll bs).status = (t₁.emitAll bs).status := by
    rw [h₂.status, h₁.status, h.outLen, h.frame]
  refine ⟨?_, fun a => ?_⟩
  · rw [h₂.frame, h₁.frame, hpos, hstatus, h.frame]
  · rw [h₁.bytes, h₂.bytes, hpos, h.outPos]
    split
    · exact .inl rfl
    · exact h.bytes a

/-- R131. -/
theorem literalLoop (n : Nat) (h : Twins s₁ s₂ t₁ t₂) : Twins s₁ s₂ (literalLoop n t₁) (literalLoop n t₂) := by
  induction n generalizing t₁ t₂ with
  | zero => exact h
  | succ n ih =>
    rw [Machine.literalLoop, Machine.literalLoop, h.byteHere]
    cases t₁.byteHere with
    | none => exact (h.warn .trunc).afterDecode
    | some b => exact ih ((h.emitAll [b]).advance 8)

/-- R131 to R133. -/
theorem runRecord (r : Record) (h : Twins s₁ s₂ t₁ t₂) : TwinNext s₁ s₂ (runRecord r t₁) (runRecord r t₂) := by
  cases r with
  | nop => exact h.next
  | literal c => exact (h.literalLoop (literalCount c)).next
  | replicate u =>
    rw [Machine.runRecord, Machine.runRecord, execPbReplicate, execPbReplicate, h.byteHere]
    cases t₁.byteHere with
    | none => exact (h.warn .trunc).afterDecode.next
    | some b => exact ((h.advance 8).emitAll _).next

/-- R130. -/
theorem packBitsStep (h : Twins s₁ s₂ t₁ t₂) : TwinNext s₁ s₂ (packBitsStep t₁) (packBitsStep t₂) := by
  rw [Machine.packBitsStep, Machine.packBitsStep, h.outLen, h.outPos, h.byteHere]
  split
  · exact h.afterDecode.next
  cases t₁.byteHere with
  | none => exact (h.warn .trunc).afterDecode.next
  | some u => exact (h.advance 8).runRecord (recordOf u)

end State.Twins

/-- Settles O26: no part of a PackBits decode step reads OUT. -/
theorem packBitsIgnoresOldOutput : Obligations.PackBitsIgnoresOldOutput := by
  intro s₁ s₂ hs hp
  have hp₂ : s₂.phase = .decode := by rw [hs]; exact hp
  obtain ⟨t₁, t₂, h₁, h₂, htwins⟩ := (State.Twins.refl hs).packBitsStep
  exact ⟨t₁, t₂, (operationStep_decode hp _ _).trans h₁, (operationStep_decode hp₂ _ _).trans h₂, htwins.frame,
    htwins.bytes⟩

/-! ### The round trip (R135)

A decode step of OP_PACKBITS with the encoding of a record ahead emits what the record expands to and puts CURSOR past the
encoding. A decode loop takes a step per record until OUT_LEN bytes are there. -/

/-- R82, R91: the control byte of a literal record. -/
theorem recordOf_lit {n : Nat} (hlow : 1 ≤ n) (hhigh : n ≤ 128) :
    ∃ c, recordOf (BitVec.ofNat 8 (n - 1)) = .literal c ∧ literalCount c = n := by
  refine ⟨BitVec.ofNat 7 (n - 1), ?_, ?_⟩
  · rw [← recordOf_literal]
    congr 1
    apply BitVec.eq_of_toNat_eq
    simp only [BitVec.toNat_ofNat, BitVec.toNat_setWidth]
    omega
  · rw [literalCount, BitVec.toNat_ofNat]
    omega

/-- R82, R91: the control byte of a replicate record. -/
theorem recordOf_rep {n : Nat} (hlow : 2 ≤ n) (hhigh : n ≤ 128) :
    ∃ u : Byte, recordOf (BitVec.ofNat 8 (257 - n)) = .replicate u ∧ 0x81 ≤ u.toNat ∧ 257 - u.toNat = n := by
  have hvalue : (BitVec.ofNat 8 (257 - n)).toNat = 257 - n := by
    rw [BitVec.toNat_ofNat]
    omega
  exact ⟨_, recordOf_replicate (by omega), by omega, by omega⟩

/-- R131: the whole payload of a literal record ahead. -/
theorem literalLoop_of_bytesAhead {s : State} (hlen : s.config.inLen.toNat ≤ 2 ^ 28) {bs : Bytes}
    (h : s.bytesAhead bs.length = bs) : literalLoop bs.length s = s.copied bs := by
  rw [literalLoop_eq hlen, h, if_neg (Nat.lt_irrefl _)]

/-- R82, R130, R131, R132: one record. -/
theorem packBitsStep_text {r : RecordText} (hok : r.ok = true) {s : State} (hlen : s.config.inLen.toNat ≤ 2 ^ 28)
    (hroom : s.outPos.toNat < s.outLen) (hahead : s.bytesAhead r.assemble.length = r.assemble) :
    packBitsStep s = .next
      { s.emitAll r.expand with cursor := s.cursor + BitVec.ofNat 32 (8 * r.assemble.length) } := by
  cases r with
  | nop =>
    obtain ⟨hcontrol, -⟩ := State.bytesAhead_cons hlen hahead
    rw [packBitsStep_record hroom hcontrol]
    rfl
  | lit bs =>
    obtain ⟨hcontrol, hpayload⟩ := State.bytesAhead_cons hlen hahead
    simp only [RecordText.ok, Bool.and_eq_true, decide_eq_true_eq] at hok
    obtain ⟨c, hrecord, hcount⟩ := recordOf_lit hok.1 hok.2
    rw [packBitsStep_record hroom hcontrol, hrecord, runRecord, execPbLiteral, hcount,
      literalLoop_of_bytesAhead (s := s.advance 8) hlen hpayload, State.copied, State.emitAll_advance,
      State.advance_cursor, BitVec.add_assoc, ← BitVec.ofNat_add]
    simp only [RecordText.assemble, RecordText.expand, List.length_cons, Nat.mul_succ, Nat.add_comm 8]
  | rep n b =>
    obtain ⟨hcontrol, hpayload⟩ := State.bytesAhead_cons hlen hahead
    obtain ⟨hbyte, -⟩ := State.bytesAhead_cons (s := s.advance 8) hlen hpayload
    simp only [RecordText.ok, Bool.and_eq_true, decide_eq_true_eq] at hok
    obtain ⟨u, hrecord, hreplicate, hcount⟩ := recordOf_rep hok.1 hok.2
    rw [packBitsStep_record hroom hcontrol, hrecord, runRecord, execPbReplicate_of_byte hreplicate hbyte, hcount,
      State.emitAll_advance, State.advance_cursor, BitVec.add_assoc]
    rfl

/-- OP_PACKBITS, left alone, with the records `rs` ahead and room for exactly what they expand to. -/
structure State.RecordsDue (rs : List RecordText) (s : State) : Prop where
  status : s.status = Status.started
  turns : s.turns = []
  phase : s.phase = .decode
  comp : s.comp = 1
  pred : s.pred = 0
  inLen : s.config.inLen.toNat ≤ 2 ^ 28
  ahead : s.bytesAhead (rs.flatMap RecordText.assemble).length = rs.flatMap RecordText.assemble
  room : s.outLen = s.outPos.toNat + (rs.flatMap RecordText.expand).length

/-- `u` is the end of an operation that has emitted `bs` from `s` on, without a new warning. -/
def State.FinishedWith (bs : Bytes) (s u : State) : Prop :=
  ∃ v, s.Emitted bs v ∧
    u = { v with status := s.status.finished .none, cursor := u.cursor, phase := .idle, trail := [] }

/-- Left alone, the operation emits `bs` and finishes; with nothing to emit it reads no input. -/
def State.Unpacks (bs : Bytes) (s : State) : Prop :=
  ∃ n u, Host.Core.run Sys2Proof.core n s = .next u ∧ s.FinishedWith bs u ∧ (bs = [] → u.cursor = s.cursor)

/-- `Emit` looks at neither CURSOR nor the values noted for R40. -/
theorem State.Emitted.withCursorTrail {s u : State} {bs : Bytes} (h : s.Emitted bs u) (c : Word)
    (trail : List Snapshot) :
    ({ s with cursor := c, trail := trail } : State).Emitted bs { u with cursor := c, trail := trail } where
  outPos := h.outPos
  status := h.status
  bytes := h.bytes
  frame := by rw [h.frame]

/-- With room for the whole string there is no warning. -/
theorem State.Emitted.frame_of_room {s u : State} {bs : Bytes} (h : s.Emitted bs u)
    (hroom : s.outPos.toNat + bs.length ≤ s.outLen) : u = { s with outPos := u.outPos, outBuf := u.outBuf } := by
  have hstatus : u.status = s.status := by rw [h.status, if_neg (by omega)]
  rw [h.frame, hstatus]

/-- A step that emits `bs`, and what the operation emits after it. -/
theorem State.FinishedWith.cons {s t u v : State} {bs cs : Bytes} (hv : s.Emitted bs v)
    (hstatus : v.status = s.status) (ht : t = { v with cursor := t.cursor, trail := t.trail })
    (h : t.FinishedWith cs u) : s.FinishedWith (bs ++ cs) u := by
  obtain ⟨w, hw, hu⟩ := h
  have hback : ({ t with cursor := v.cursor, trail := v.trail } : State) = v := by rw [ht]
  have hw' := hw.withCursorTrail v.cursor v.trail
  rw [hback] at hw'
  have hstatus' : t.status = s.status := by rw [ht]; exact hstatus
  refine ⟨_, hv.trans hw', ?_⟩
  rw [hu, hstatus']

/-- R81: OP_PACKBITS by the fields of MODE. -/
theorem decode_operation_packBits {s : State} (hcomp : s.comp = 1) (hpred : s.pred = 0) :
    decode (.operation s.config.mode) = .ok .opPackbits := by
  rw [decode, decodeOperation, ← State.pred, ← State.comp, hcomp, hpred]
  rfl

/-- R109: after a decode that has filled OUT, without a predictor, comes the finish step. -/
theorem State.afterDecode_of_full {s : State} (hfull : s.outLen ≤ s.outPos.toNat) (hpred : s.pred = 0) :
    s.afterDecode = s.fatal .none := by
  rw [State.afterDecode, if_neg (Nat.not_lt.mpr hfull), State.enterPredictor, hpred]
  rfl

namespace State.RecordsDue

variable {r : RecordText} {rs : List RecordText} {s : State}

/-- R100: a step of the operation is a step of its decode loop. -/
theorem step_eq (h : s.RecordsDue rs) {t : State} (ht : packBitsStep s = .next t) : step s = .next t.noted := by
  rw [step_of_no_turns h.turns]
  refine blockStep_of_exec ?_ (decode_operation_packBits h.comp h.pred) ((operationStep_decode h.phase _ _).trans ht)
  rw [h.status, Status.started]

/-- Past a record, with its bytes out, the rest of the records are due. -/
theorem rest (h : s.RecordsDue (r :: rs)) {pos : Word} (hpos : pos.toNat = s.outPos.toNat + r.expand.length)
    (buf : Memory) (trail : List Snapshot) :
    ({ s with
        cursor := s.cursor + BitVec.ofNat 32 (8 * r.assemble.length)
        outPos := pos, outBuf := buf, trail := trail } : State).RecordsDue rs where
  status := h.status
  turns := h.turns
  phase := h.phase
  comp := h.comp
  pred := h.pred
  inLen := h.inLen
  ahead := by
    have hahead := h.ahead
    rw [List.flatMap_cons] at hahead
    exact (State.bytesAhead_congr rfl rfl rfl rfl _).trans (State.bytesAhead_append h.inLen hahead).2
  room := by
    have hroom := h.room
    rw [List.flatMap_cons, List.length_append, ← Nat.add_assoc, ← hpos] at hroom
    exact hroom

/-- A decode step takes one record. -/
theorem step_record (h : s.RecordsDue (r :: rs)) (hok : r.ok = true) (hroom : s.outPos.toNat < s.outLen) :
    ∃ v t, s.Emitted r.expand v ∧ v.status = s.status ∧ step s = .next t ∧
      t = { v with cursor := t.cursor, trail := t.trail } ∧ t.RecordsDue rs := by
  have hahead := h.ahead
  have hout := h.room
  rw [List.flatMap_cons] at hahead hout
  rw [List.length_append] at hout
  have he := s.emitAll_emitted r.expand
  have hframe := he.frame_of_room (by omega)
  have hpos : (s.emitAll r.expand).outPos.toNat = s.outPos.toNat + r.expand.length := by
    rw [he.outPos]
    omega
  refine ⟨s.emitAll r.expand, _, he, by rw [hframe],
    h.step_eq (packBitsStep_text hok h.inLen hroom (State.bytesAhead_append h.inLen hahead).1),
    by rw [State.noted_frame], ?_⟩
  rw [State.noted_frame, hframe]
  exact h.rest hpos _ _

/-- R109, R110: with nothing left to expand, the end of the decode loop and the finish step. -/
theorem unpacks_of_nil (h : s.RecordsDue rs) (hnil : rs.flatMap RecordText.expand = []) :
    s.Unpacks (rs.flatMap RecordText.expand) := by
  have hroom := h.room
  rw [hnil, List.length_nil, Nat.add_zero] at hroom
  have hdecode : step s = .next (s.fatal .none).noted := by
    rw [h.step_eq (packBitsStep_complete hroom.le), State.afterDecode_of_full hroom.le h.pred]
  have hfinish : step (s.fatal .none).noted = .next ((s.fatal .none).noted.finish .none) := by
    rw [step_of_no_turns (by simpa using h.turns),
      blockStep_finish (e := .none) (by simp [h.status, Status.started]) (by simp)]
  refine ⟨2, _, (run_succ hdecode 1).trans (run_one hfinish), ⟨s, hnil ▸ .refl s, ?_⟩, fun _ => by simp⟩
  rw [State.noted_frame]
  rfl

/-- R135: a step per record until the output is complete, then the finish. -/
theorem unpacks (h : s.RecordsDue rs) (hok : ∀ r ∈ rs, r.ok = true) : s.Unpacks (rs.flatMap RecordText.expand) := by
  induction rs generalizing s with
  | nil => exact h.unpacks_of_nil rfl
  | cons r rs ih =>
    by_cases hnil : (r :: rs).flatMap RecordText.expand = []
    · exact h.unpacks_of_nil hnil
    · have hroom : s.outPos.toNat < s.outLen := by
        have hpos := List.length_pos_iff.mpr hnil
        rw [h.room]
        omega
      obtain ⟨v, t, hv, hstatus, hstep, ht, hdue⟩ := h.step_record (hok r (by simp)) hroom
      obtain ⟨n, u, hrun, hfinished, -⟩ := ih hdue fun q hq => hok q (by simp [hq])
      exact ⟨n + 1, u, (run_succ hstep n).trans hrun, hfinished.cons hv hstatus ht, fun h => absurd h hnil⟩

end State.RecordsDue

/-- The input that stands at CURSOR = 0, byte by byte, is the input ahead. -/
theorem State.bytesAhead_of_getElem? {s : State} {bs : Bytes} (hcursor : s.cursor = 0)
    (hfits : bs.length ≤ s.config.inLen.toNat) (h : ∀ i < bs.length, some (s.inByte i) = bs[i]?) :
    s.bytesAhead bs.length = bs := by
  have hlength : (s.bytesAhead bs.length).length = bs.length := by
    rw [State.bytesAhead_length, hcursor]
    simpa using hfits
  refine List.ext_getElem hlength fun i hi hi' => ?_
  have hbyte := h i hi'
  rw [List.getElem?_eq_getElem hi'] at hbyte
  simpa [State.bytesAhead, hcursor] using Option.some.inj hbyte

/-- Settles O27: the records are due, and `RecordsDue.unpacks` says what the operation emits. -/
theorem packBitsRoundTrip : Obligations.PackBitsRoundTrip := by
  intro s records hstatus hturns hphase hcomp hpred hcursor hpos hinLen hok hfits hbytes hout
  have hdue : s.RecordsDue records :=
    { status := hstatus, turns := hturns, phase := hphase, comp := hcomp, pred := hpred, inLen := hinLen
      ahead := State.bytesAhead_of_getElem? hcursor hfits hbytes, room := by simp [hpos, hout] }
  obtain ⟨n, u, hrun, ⟨v, hv, hu⟩, hnil⟩ := hdue.unpacks hok
  have hlen : v.outPos.toNat = (records.flatMap RecordText.expand).length := by
    rw [hv.outPos, hout, hpos]
    simp
  have hread : ∀ a, u.readOut a = if a < (records.flatMap RecordText.expand).length then
      (records.flatMap RecordText.expand)[a]?.getD 0 else s.readOut a := fun a => by
    have hsame : u.readOut a = v.readOut a := by rw [hu]; rfl
    rw [hsame, hv.bytes, hlen, hpos]
    simp
  refine ⟨n, u, hrun, ?_, ?_, fun i hi => ?_, fun hx => (hnil hx).trans hcursor, fun i hi => ?_⟩
  · rw [hu, hstatus]
    rfl
  · rw [hu]
    exact hlen
  · rw [hread, if_pos hi, List.getElem?_eq_getElem hi, Option.getD_some]
  · rw [hread, if_neg (Nat.not_lt.mpr hi)]

end Sys2Proof.Machine

namespace Sys2Proof.Machine

/-! ### Codes (R152) and the width they are read at (R164) -/

/-- R152: fewer than CW bits remain. -/
theorem State.readCode_of_short {s : State} (h : 8 * s.config.inLen.toNat < s.cursor.toNat + s.lzw.cw.toNat) :
    s.readCode = none := if_pos h

/-- R152: CW bits remain. -/
theorem State.readCode_of_room {s : State} (h : s.cursor.toNat + s.lzw.cw.toNat ≤ 8 * s.config.inLen.toNat) :
    s.readCode = some (codeValue (s.inBits s.cursor.toNat s.lzw.cw.toNat), s.advance s.lzw.cw.toNat) :=
  if_neg (Nat.not_lt.mpr h)

/-- Settles O28: the two cases of `readCode`. -/
theorem readCodeTakesNextBits : Obligations.ReadCodeTakesNextBits := fun s =>
  ⟨State.readCode_of_short, fun h => by
    rw [State.readCode_of_room h, s.codeValue_inBits, State.advance, BitVec.ofNat_toNat]⟩

/-- Settles O37: an addition that succeeds has room, and `widthAfter` keeps R164. -/
theorem codeWidthFollowsTableSize : Obligations.CodeWidthFollowsTableSize := by
  refine ⟨fun _ => rfl, fun s t str _ hhigh hcw ht => ?_⟩
  have hroom : s.lzw.tsize.toNat < 4096 := by
    refine lt_of_le_of_ne hhigh fun hfull => ?_
    rw [State.addEntry_full str hfull] at ht
    cases ht
  obtain ⟨z, hz, -, htsize, hwidth, -⟩ := State.addEntry_of_lt str hroom
  rw [hz] at ht
  cases ht
  have hsucc : (s.lzw.tsize + 1).toNat = s.lzw.tsize.toNat + 1 := by rw [BitVec.toNat_add]; simp; omega
  calc z.cw.toNat = widthFor (s.lzw.tsize.toNat + 1) := by rw [hwidth, widthAfter_eq hroom hcw]
    _ = widthFor z.tsize.toNat := by rw [htsize, hsucc]

/-! ### The meanings of the codes (R155 to R163) -/

/-- Settles O36: the four meanings, as they are. -/
theorem lzwEndingCodes : Obligations.LzwEndingCodes := fun _ _ => ⟨rfl, rfl, rfl, rfl⟩

/-- Settles O33: each of the three tests PREV first. -/
theorem lzwCodesNeedPrevious : Obligations.LzwCodesNeedPrevious := by
  intro s b c hprev i hi
  simp only [List.mem_cons, List.not_mem_nil, or_false] at hi
  rcases hi with rfl | rfl | rfl
  · simp only [exec, execLzwLiteral, hprev, State.fatal]
  · simp only [exec, execLzwTable, hprev, State.fatal]
  · simp only [exec, execLzwPending, hprev, State.fatal]

/-- R156, with its one change of the datapath. -/
theorem execLzwFirst_eq (c : Byte) (s : State) :
    execLzwFirst c s = .next { s.emitAll [c] with lzw := { s.lzw with prev := some [c] } } := by
  rw [execLzwFirst, s.entry_byte, State.setPrev, State.emitAll_lzw]

/-- Settles O34: `emitAll` of one byte, then the change of PREV. -/
theorem lzwFirstSetsPrev : Obligations.LzwFirstSetsPrev := fun s c =>
  ⟨_, s.emitAll_emitted [c], execLzwFirst_eq c s⟩

/-- R159, with a previous string. -/
theorem execLzwLiteral_of_prev {s : State} {p : Bytes} (h : s.lzw.prev = some p) (c : Byte) :
    execLzwLiteral c s = .next (s.emitAndAdd [c] (p ++ [c])) := by
  simp only [execLzwLiteral, h, s.entry_byte, List.take_succ_cons, List.take_zero]

/-- R160, with a previous string and a defined entry. -/
theorem execLzwTable_of_prev {s : State} {p str : Bytes} {c : BitVec 12} (h : s.lzw.prev = some p)
    (hlow : 258 ≤ c.toNat) (hentry : Store.get? s.lzw.dict c.toNat = some str) :
    execLzwTable c s = .next (s.emitAndAdd str (p ++ str.take 1)) := by
  have hstr : s.entry c.toNat = str := by rw [State.entry, if_neg (by omega), hentry, Option.getD_some]
  simp only [execLzwTable, h, hstr]

/-- R161, with a previous string. -/
theorem execLzwPending_of_prev {s : State} {p : Bytes} (h : s.lzw.prev = some p) :
    execLzwPending s = .next (s.emitAndAdd (p ++ p.take 1) (p ++ p.take 1)) := by
  simp only [execLzwPending, h]

/-- R153, R159 to R161, with room in the table. -/
theorem State.emitAndAdd_added {s : State} (str entry : Bytes) (h : s.lzw.tsize.toNat < 4096) :
    ∃ u y, s.Emitted str u ∧ s.lzw.Added str entry y ∧ s.emitAndAdd str entry = { u with lzw := y } := by
  obtain ⟨y, hadded, heq⟩ := State.emitAndAdd_of_lt str entry h
  exact ⟨_, y, s.emitAll_emitted str, hadded, heq⟩

/-- R153, R159, R160, with a full table. -/
theorem State.emitAndAdd_fatal {s : State} (str entry : Bytes) (h : s.lzw.tsize.toNat = 4096) :
    ∃ u, s.Emitted str u ∧ s.emitAndAdd str entry = { u with phase := .finish .lzwTableFull } :=
  ⟨_, s.emitAll_emitted str, State.emitAndAdd_full str entry h⟩

/-- Settles O30: the meaning is `emitAndAdd` of the byte. -/
theorem lzwLiteralEmitsAndAdds : Obligations.LzwLiteralEmitsAndAdds := by
  refine fun s c => ⟨fun p hp hroom => ?_, fun p hp hfull => ?_⟩
  · obtain ⟨u, y, hu, hy, heq⟩ := State.emitAndAdd_added [c] (p ++ [c]) hroom
    exact ⟨u, y, hu, hy, (execLzwLiteral_of_prev hp c).trans (congrArg _ heq)⟩
  · obtain ⟨u, hu, heq⟩ := State.emitAndAdd_fatal [c] (p ++ [c]) hfull
    exact ⟨u, hu, (execLzwLiteral_of_prev hp c).trans (congrArg _ heq)⟩

/-- Settles O31: the meaning is `emitAndAdd` of the entry. -/
theorem lzwTableEmitsAndAdds : Obligations.LzwTableEmitsAndAdds := by
  refine fun s c b str hlow hentry => ⟨fun p hp hroom => ?_, fun p hp hfull => ?_⟩
  · obtain ⟨u, y, hu, hy, heq⟩ := State.emitAndAdd_added (b :: str) (p ++ [b]) hroom
    exact ⟨u, y, hu, hy, (execLzwTable_of_prev hp hlow hentry).trans (congrArg _ heq)⟩
  · obtain ⟨u, hu, heq⟩ := State.emitAndAdd_fatal (b :: str) (p ++ [b]) hfull
    exact ⟨u, hu, (execLzwTable_of_prev hp hlow hentry).trans (congrArg _ heq)⟩

/-- Settles O32: the meaning is `emitAndAdd` of PREV and its first byte. -/
theorem lzwPendingEmitsAndAdds : Obligations.LzwPendingEmitsAndAdds := by
  intro s b str hp hroom
  obtain ⟨u, y, hu, hy, heq⟩ := State.emitAndAdd_added (b :: str ++ [b]) (b :: str ++ [b]) (Nat.lt_succ_of_le hroom)
  exact ⟨u, y, hu, hy, (execLzwPending_of_prev hp).trans (congrArg _ heq)⟩

/-- R155, R158: fewer than 9 bits after a CLEAR. -/
theorem execLzwClear_of_short {s : State} (h : 8 * s.config.inLen.toNat < s.cursor.toNat + 9) :
    execLzwClear s = .next (s.clearTable.warn .trunc).afterDecode := by
  rw [execLzwClear, State.readCode_of_short (s := s.clearTable) h, execLzwImplicitEnd]

/-- R155: the code after a CLEAR. -/
theorem execLzwClear_of_room {s : State} (h : s.cursor.toNat + 9 ≤ 8 * s.config.inLen.toNat) {code : Nat}
    (hcode : codeValue (s.inBits s.cursor.toNat 9) = code) :
    execLzwClear s =
      if code = 257 then .next (s.clearTable.advance 9).afterDecode
      else if 256 ≤ code then .next ((s.clearTable.advance 9).fatal .lzwBadCode)
      else execLzwFirst (BitVec.ofNat 8 code) (s.clearTable.advance 9) := by
  have hread : s.clearTable.readCode = some (code, s.clearTable.advance 9) := by
    rw [State.readCode_of_room (s := s.clearTable) h, ← hcode, ← s.clearTable_inBits]
    rfl
  rw [execLzwClear, hread]
  rfl

/-- Settles O35: no code after the CLEAR, END, a code that is no byte, a byte. -/
theorem lzwClearReadsFirstCode : Obligations.LzwClearReadsFirstCode := by
  intro s z code v
  have hvalue : codeValue (s.inBits s.cursor.toNat 9) = code := s.codeValue_inBits s.cursor.toNat 9
  refine ⟨execLzwClear_of_short, fun h hend => ?_, fun h hbad hne => ?_, fun h hbyte => ?_⟩
  · exact (execLzwClear_of_room h hvalue).trans (if_pos hend)
  · exact (execLzwClear_of_room h hvalue).trans ((if_neg hne).trans (if_pos hbad))
  · have hne : code ≠ 257 := by omega
    have hlow : ¬ 256 ≤ code := by omega
    exact ⟨_, v.emitAll_emitted _, (execLzwClear_of_room h hvalue).trans
      ((if_neg hne).trans ((if_neg hlow).trans (execLzwFirst_eq _ v)))⟩

end Sys2Proof.Machine

namespace Sys2Proof.Machine

/-! ### The round trip of LZW (R165)

A decode step of OP_LZW with a code of the stream ahead, or a CLEAR and the code after it, emits the string the code names,
puts CURSOR past its bits and leaves the table that the rest of the stream is written for. -/

/-- `Emit` looks at neither CURSOR nor the LZW datapath. -/
theorem State.emitAll_withCursorLzw (bs : Bytes) (s : State) (c : Word) (z : LzwRegs) :
    ({ s with cursor := c, lzw := z } : State).emitAll bs = { s.emitAll bs with cursor := c, lzw := z } := by
  induction bs generalizing s with
  | nil => rfl
  | cons b bs ih =>
    have hemit : ({ s with cursor := c, lzw := z } : State).emit b = { s.emit b with cursor := c, lzw := z } := by
      have hlen : ({ s with cursor := c, lzw := z } : State).outLen = s.outLen := State.outLen_congr rfl rfl
      rw [State.emit, State.emit, hlen]
      split <;> rfl
    rw [State.emitAll, hemit, ih, State.emitAll]

/-! #### The bits ahead (R83, R152) -/

theorem State.inBits_add (s : State) (p m n : Nat) : s.inBits p (m + n) = s.inBits p m ++ s.inBits (p + m) n := by
  induction m generalizing p with
  | zero => rw [Nat.zero_add]; rfl
  | succ m ih => rw [Nat.succ_add, State.inBits, State.inBits, ih, List.cons_append, Nat.add_right_comm, Nat.add_assoc]

/-- Bits ahead in two parts. -/
theorem State.inBits_append {s : State} {p : Nat} {xs ys : List Bool}
    (h : s.inBits p (xs ++ ys).length = xs ++ ys) :
    s.inBits p xs.length = xs ∧ s.inBits (p + xs.length) ys.length = ys := by
  rw [List.length_append, s.inBits_add] at h
  exact List.append_inj h (s.inBits_length p xs.length)

/-- R83, R92: a code written in `n` bits reads as itself. -/
theorem State.codeValue_of_ahead {s : State} {p n code : Nat} {bits : List Bool} (hcode : code < 2 ^ n)
    (h : s.inBits p (bitsOf n code ++ bits).length = bitsOf n code ++ bits) : codeValue (s.inBits p n) = code := by
  have hbits := (State.inBits_append h).1
  rw [bitsOf_length] at hbits
  rw [hbits, codeValue_bitsOf, Nat.mod_eq_of_lt hcode]

/-! #### The table a stream is written for (R41, R164) -/

/-- The datapath has the added entries `table` and the previous string `prev`. -/
structure LzwRegs.Tabled (table : List Bytes) (prev : Option Bytes) (z : LzwRegs) : Prop where
  tsize : z.tsize.toNat = 258 + table.length
  cw : z.cw.toNat = widthFor (258 + table.length)
  prev : z.prev = prev
  dict : ∀ k, Store.get? z.dict (258 + k) = table[k]?

theorem LzwRegs.Tabled.ofReset : LzwRegs.reset.Tabled [] none := ⟨rfl, rfl, rfl, fun _ => rfl⟩

/-- R151, R156. -/
theorem LzwRegs.Tabled.first (z : LzwRegs) (str : Bytes) :
    ({ z.cleared with prev := some str } : LzwRegs).Tabled [] (some str) := ⟨rfl, rfl, rfl, fun _ => rfl⟩

/-- R153: an addition that has room. -/
theorem LzwRegs.Tabled.afterAdd {z : LzwRegs} {table : List Bytes} {prev : Option Bytes} (h : z.Tabled table prev)
    (hroom : 258 + table.length < 4096) (str entry : Bytes) :
    (z.afterAdd str entry).Tabled (table ++ [entry]) (some str) := by
  have htsize := h.tsize
  have hsucc : (z.tsize + 1).toNat = 258 + (table ++ [entry]).length := by
    rw [BitVec.toNat_add, htsize, List.length_append]
    simp
    omega
  refine ⟨hsucc, ?_, rfl, fun k => ?_⟩
  · have hwidth : z.cw.toNat = widthFor z.tsize.toNat := by rw [h.cw, htsize]
    rw [LzwRegs.afterAdd, widthAfter_eq (by omega) hwidth, htsize, List.length_append, List.length_singleton,
      Nat.add_assoc]
  · rw [LzwRegs.afterAdd, Store.get?_set, htsize, h.dict]
    rcases Nat.lt_trichotomy k table.length with hk | rfl | hk
    · rw [if_neg (by omega), List.getElem?_append_left hk]
    · simp
    · rw [if_neg (by omega), List.getElem?_eq_none (by omega), List.getElem?_eq_none (by simp; omega)]

/-- R41, R159 to R161: what a code names: a byte, the pending string, or an added entry. -/
theorem codeString_cases {table : List Bytes} {p str : Bytes} {code : Nat} (h : codeString table p code = some str) :
    (code < 256 ∧ str = [BitVec.ofNat 8 code]) ∨
      (code = 258 + table.length ∧ str = p ++ p.take 1) ∨
      (258 ≤ code ∧ code < 258 + table.length ∧ table[code - 258]? = some str) := by
  unfold codeString at h
  split_ifs at h with hbyte hcontrol hpending
  · exact .inl ⟨hbyte, (Option.some.inj h).symm⟩
  · exact .inr (.inl ⟨hpending, (Option.some.inj h).symm⟩)
  · have hlt : code - 258 < table.length := (List.getElem?_eq_some_iff.mp h).1
    exact .inr (.inr ⟨by omega, by omega, h⟩)

/-- A code that names a string is at most TSIZE. -/
theorem codeString_le {table : List Bytes} {p str : Bytes} {code : Nat} (h : codeString table p code = some str) :
    code ≤ 258 + table.length := by
  rcases codeString_cases h with ⟨hbyte, -⟩ | ⟨rfl, -⟩ | ⟨-, hlt, -⟩ <;> omega

/-- R84, R154, R159 to R161: a code that names `str` emits it and adds the previous string with its first byte. -/
theorem runCode_of_codeString {s : State} {table : List Bytes} {p str : Bytes} {code : Nat}
    (h : s.lzw.Tabled table (some p)) (hroom : 258 + table.length < 4096)
    (hcode : codeString table p code = some str) :
    runCode (classOf s.lzwContext code) s = .next (s.emitAndAdd str (p ++ str.take 1)) := by
  have hprev : s.lzwContext.prevSet = true := congrArg Option.isSome h.prev
  have htsize : s.lzwContext.tsize = 258 + table.length := h.tsize
  rcases codeString_cases hcode with ⟨hbyte, rfl⟩ | ⟨rfl, rfl⟩ | ⟨hlow, hhigh, hentry⟩
  · rw [classOf_in_stream (ctx := s.lzwContext) rfl hprev (by omega) (by omega), if_pos hbyte]
    exact execLzwLiteral_of_prev h.prev _
  · rw [← htsize, classOf_pending (ctx := s.lzwContext) rfl hprev (by omega)]
    have hfirst : (p ++ p.take 1).take 1 = p.take 1 := by cases p <;> rfl
    rw [hfirst]
    exact execLzwPending_of_prev h.prev
  · rw [classOf_in_stream (ctx := s.lzwContext) rfl hprev (by omega) (by omega), if_neg (by omega), if_pos (by omega)]
    have hvalue : (BitVec.ofNat 12 code).toNat = 258 + (code - 258) := by rw [BitVec.toNat_ofNat]; omega
    refine execLzwTable_of_prev h.prev (by omega) ?_
    rw [hvalue, h.dict, hentry]

/-! #### One code, and CLEAR with the code after it -/

/-- R154, R158: fewer than CW bits remain. -/
theorem lzwStep_of_short {s : State} (hroom : s.outPos.toNat < s.outLen)
    (h : 8 * s.config.inLen.toNat < s.cursor.toNat + s.lzw.cw.toNat) :
    lzwStep s = .next (s.warn .trunc).afterDecode := by
  rw [lzwStep, if_neg (Nat.not_le.mpr hroom), State.readCode_of_short h]
  rfl

/-- R154: the code of the next CW bits runs, CURSOR past it. -/
theorem lzwStep_of_read {s : State} (hroom : s.outPos.toNat < s.outLen)
    (h : s.cursor.toNat + s.lzw.cw.toNat ≤ 8 * s.config.inLen.toNat) {code : Nat}
    (hcode : codeValue (s.inBits s.cursor.toNat s.lzw.cw.toNat) = code) :
    lzwStep s = runCode (classOf s.lzwContext code) (s.advance s.lzw.cw.toNat) := by
  rw [lzwStep, if_neg (Nat.not_le.mpr hroom), State.readCode_of_room h, hcode]

/-- R154: a code written ahead runs, CURSOR past it. -/
theorem lzwStep_of_ahead {s : State} {n code : Nat} {bits : List Bool} (hroom : s.outPos.toNat < s.outLen)
    (hcw : s.lzw.cw.toNat = n) (hcode : code < 2 ^ n)
    (hfits : s.cursor.toNat + (bitsOf n code ++ bits).length ≤ 8 * s.config.inLen.toNat)
    (hahead : s.inBits s.cursor.toNat (bitsOf n code ++ bits).length = bitsOf n code ++ bits) :
    lzwStep s = runCode (classOf s.lzwContext code) (s.advance n) := by
  subst hcw
  rw [List.length_append, bitsOf_length] at hfits
  exact lzwStep_of_read hroom (by omega) (State.codeValue_of_ahead hcode hahead)

/-- OP_LZW, left alone, with the code stream `bits` ahead, the table it is written for, and room for exactly `m`. -/
structure State.CodesDue (table : List Bytes) (prev : Option Bytes) (bits : List Bool) (m : Bytes) (s : State) :
    Prop where
  status : s.status = Status.started
  turns : s.turns = []
  phase : s.phase = .decode
  comp : s.comp = 2
  pred : s.pred = 0
  inLen : s.config.inLen.toNat ≤ 2 ^ 28
  tabled : s.lzw.Tabled table prev
  fits : s.cursor.toNat + bits.length ≤ 8 * s.config.inLen.toNat
  ahead : s.inBits s.cursor.toNat bits.length = bits
  room : s.outLen = s.outPos.toNat + m.length

/-- Left alone, the operation emits `m` and finishes. -/
def State.Spells (m : Bytes) (s : State) : Prop :=
  ∃ n u, Host.Core.run Sys2Proof.core n s = .next u ∧ s.FinishedWith m { u with lzw := s.lzw }

/-- `FinishedWith` does not look at the LZW datapath. -/
theorem State.FinishedWith.withLzw {s u : State} {bs : Bytes} (h : s.FinishedWith bs u) (z : LzwRegs) :
    ({ s with lzw := z } : State).FinishedWith bs { u with lzw := z } := by
  obtain ⟨v, hv, hu⟩ := h
  refine ⟨{ v with lzw := z }, ⟨hv.outPos, hv.status, hv.bytes, by rw [hv.frame]⟩, ?_⟩
  rw [hu]

/-- R81: OP_LZW by the fields of MODE. -/
theorem decode_operation_lzw {s : State} (hcomp : s.comp = 2) (hpred : s.pred = 0) :
    decode (.operation s.config.mode) = .ok .opLzw := by
  rw [decode, decodeOperation, ← State.pred, ← State.comp, hcomp, hpred]
  rfl

/-- R100: a step of OP_LZW in its decode phase is a step of its decode loop. -/
theorem step_lzw {s t : State} (hbusy : s.status.busy = true) (hturns : s.turns = []) (hphase : s.phase = .decode)
    (hcomp : s.comp = 2) (hpred : s.pred = 0) (ht : lzwStep s = .next t) : step s = .next t.noted := by
  rw [step_of_no_turns hturns]
  exact blockStep_of_exec hbusy (decode_operation_lzw hcomp hpred) ((operationStep_decode hphase _ _).trans ht)

/-- R100, R110: left alone, the operation takes its finish step. -/
theorem step_finish {s : State} {e : ErrCode} (hbusy : s.status.busy = true) (hturns : s.turns = [])
    (hphase : s.phase = .finish e) : step s = .next (s.finish e) := by
  rw [step_of_no_turns hturns, blockStep_finish hbusy hphase]

namespace State.CodesDue

variable {s : State} {table table' : List Bytes} {prev prev' : Option Bytes} {xs bits : List Bool} {str m : Bytes}

theorem busy (h : s.CodesDue table prev bits m) : s.status.busy = true := by rw [h.status, Status.started]

theorem cw (h : s.CodesDue table prev bits m) : s.lzw.cw.toNat = widthFor (258 + table.length) := h.tabled.cw

/-- Past the codes `xs`, with their string out and the table they leave, the rest of the stream is due. -/
theorem rest (h : s.CodesDue table prev (xs ++ bits) (str ++ m)) {z : LzwRegs} (hz : z.Tabled table' prev') {pos : Word}
    (hpos : pos.toNat = s.outPos.toNat + str.length) (buf : Memory) (trail : List Snapshot) :
    ({ s with
        cursor := s.cursor + BitVec.ofNat 32 xs.length
        outPos := pos, outBuf := buf, lzw := z, trail := trail } : State).CodesDue table' prev' bits m := by
  have hinLen := h.inLen
  have hfits := h.fits
  have hroom := h.room
  rw [List.length_append] at hfits hroom
  have hcursor : (s.cursor + BitVec.ofNat 32 xs.length).toNat = s.cursor.toNat + xs.length := by
    rw [BitVec.toNat_add, BitVec.toNat_ofNat]
    omega
  refine ⟨h.status, h.turns, h.phase, h.comp, h.pred, h.inLen, hz, ?_, ?_, ?_⟩
  · rw [hcursor]
    exact (Nat.add_assoc ..).trans_le hfits
  · rw [hcursor]
    refine Eq.trans ?_ (State.inBits_append h.ahead).2
    apply State.inBits_congr <;> rfl
  · rw [hpos, Nat.add_assoc]
    exact hroom

/-- A decode step that takes the codes `xs`, which name `str`. -/
theorem step (h : s.CodesDue table prev (xs ++ bits) (str ++ m)) {z : LzwRegs} (hz : z.Tabled table' prev')
    (hstep : lzwStep s =
      .next { s.emitAll str with cursor := s.cursor + BitVec.ofNat 32 xs.length, lzw := z }) :
    ∃ v t, s.Emitted str v ∧ v.status = s.status ∧ step s = .next t ∧
      t = { v with cursor := t.cursor, lzw := t.lzw, trail := t.trail } ∧ t.CodesDue table' prev' bits m := by
  have hroom := h.room
  rw [List.length_append] at hroom
  have he := s.emitAll_emitted str
  have hframe := he.frame_of_room (by omega)
  have hpos : (s.emitAll str).outPos.toNat = s.outPos.toNat + str.length := by
    rw [he.outPos]
    omega
  refine ⟨s.emitAll str, _, he, by rw [hframe], step_lzw h.busy h.turns h.phase h.comp h.pred hstep,
    by rw [State.noted_frame], ?_⟩
  rw [State.noted_frame, hframe]
  exact h.rest hz hpos _ _

/-- A step that takes codes, and what the operation emits after it. -/
theorem spells_cons (h : s.CodesDue table prev (xs ++ bits) (str ++ m)) {z : LzwRegs} (hz : z.Tabled table' prev')
    (hstep : lzwStep s = .next { s.emitAll str with cursor := s.cursor + BitVec.ofNat 32 xs.length, lzw := z })
    (hrest : ∀ t : State, t.CodesDue table' prev' bits m → t.Spells m) : s.Spells (str ++ m) := by
  obtain ⟨v, t, hv, hstatus, hnext, ht, hdue⟩ := h.step hz hstep
  obtain ⟨n, u, hrun, hfinished⟩ := hrest t hdue
  have hlzw : v.lzw = s.lzw := by rw [hv.frame]
  refine ⟨n + 1, u, (run_succ hnext n).trans hrun, State.FinishedWith.cons hv hstatus ?_ (hfinished.withLzw s.lzw)⟩
  rw [ht, ← hlzw]

/-- R109, R110: with nothing left to emit, the end of the decode loop and the finish step. -/
theorem spells_nil (h : s.CodesDue table prev bits []) : s.Spells [] := by
  have hfull : s.outLen ≤ s.outPos.toNat := h.room.le
  have hdecode : Machine.step s = .next (s.fatal .none).noted := by
    refine step_lzw h.busy h.turns h.phase h.comp h.pred ?_
    rw [lzwStep_complete hfull, State.afterDecode_of_full hfull h.pred]
  have hfinish : Machine.step (s.fatal .none).noted = .next ((s.fatal .none).noted.finish .none) :=
    step_finish (by simpa using h.busy) (by simpa using h.turns) (by simp)
  refine ⟨2, _, (run_succ hdecode 1).trans (run_one hfinish), s, .refl s, ?_⟩
  rw [State.noted_frame]
  rfl

theorem hasRoom (h : s.CodesDue table prev bits m) (hm : m ≠ []) : s.outPos.toNat < s.outLen := by
  have hpos := List.length_pos_iff.mpr hm
  rw [h.room]
  omega

/-- R155, R156: CLEAR and the byte after it, in one step. -/
theorem lzwStep_clear {c : Byte}
    (h : s.CodesDue table prev (bitsOf (widthFor (258 + table.length)) 256 ++ (bitsOf 9 c.toNat ++ bits)) (c :: m)) :
    lzwStep s = .next { s.emitAll [c] with
      cursor := s.cursor + BitVec.ofNat 32 (bitsOf (widthFor (258 + table.length)) 256 ++ bitsOf 9 c.toNat).length
      lzw := { s.lzw.cleared with prev := some [c] } } := by
  have hcw := h.cw
  have hfits := h.fits
  have hahead := h.ahead
  have hroom := h.hasRoom (List.cons_ne_nil c m)
  have hinLen := h.inLen
  have hwidth : 256 < 2 ^ widthFor (258 + table.length) :=
    (by decide : 256 < 2 ^ 9).trans_le (Nat.pow_le_pow_right (by decide) (widthFor_bounds _).1)
  generalize widthFor (258 + table.length) = n at *
  have hclear : lzwStep s = execLzwClear (s.advance n) := lzwStep_of_ahead hroom hcw hwidth hfits hahead
  simp only [List.length_append, bitsOf_length] at hfits
  have hcursor : (s.advance n).cursor.toNat = s.cursor.toNat + n := by
    rw [State.advance_cursor, BitVec.toNat_add, BitVec.toNat_ofNat]
    omega
  have hvalue : codeValue ((s.advance n).inBits (s.advance n).cursor.toNat 9) = c.toNat := by
    have hbyte := (State.inBits_append hahead).2
    rw [bitsOf_length] at hbyte
    rw [hcursor, State.advance_inBits]
    exact State.codeValue_of_ahead (by omega) hbyte
  rw [hclear, execLzwClear_of_room (by rw [hcursor, State.advance_config]; omega) hvalue, if_neg (by omega),
    if_neg (by omega), BitVec.ofNat_toNat, BitVec.setWidth_eq, execLzwFirst_eq]
  have hstart : ((s.advance n).clearTable.advance 9) =
      { s with cursor := s.cursor + BitVec.ofNat 32 (n + 9), lzw := s.lzw.cleared } := by
    rw [State.advance, State.clearTable, State.advance, BitVec.ofNat_add, BitVec.add_assoc]
  rw [hstart, State.emitAll_withCursorLzw, List.length_append, bitsOf_length, bitsOf_length]

/-- R159 to R161: any other code. -/
theorem lzwStep_string {p : Bytes} {code : Nat} (hroom : 258 + table.length < 4096)
    (hcode : codeString table p code = some str) (hsome : str ++ m ≠ [])
    (h : s.CodesDue table (some p) (bitsOf (widthFor (258 + table.length)) code ++ bits) (str ++ m)) :
    lzwStep s = .next { s.emitAll str with
      cursor := s.cursor + BitVec.ofNat 32 (bitsOf (widthFor (258 + table.length)) code).length
      lzw := s.lzw.afterAdd str (p ++ str.take 1) } := by
  have hwidth : code < 2 ^ widthFor (258 + table.length) :=
    (codeString_le hcode).trans_lt (lt_two_pow_widthFor hroom)
  have htsize : s.lzw.tsize.toNat < 4096 := h.tabled.tsize.trans_lt hroom
  calc lzwStep s
      = runCode (classOf s.lzwContext code) (s.advance (widthFor (258 + table.length))) :=
        lzwStep_of_ahead (h.hasRoom hsome) h.cw hwidth h.fits h.ahead
    _ = .next ((s.advance (widthFor (258 + table.length))).emitAndAdd str (p ++ str.take 1)) :=
        runCode_of_codeString (s := s.advance _) h.tabled hroom hcode
    _ = _ := by
        rw [State.emitAndAdd_eq (s := s.advance _) _ _ htsize, State.emitAll_advance, bitsOf_length]
        rfl

/-- R165: a step per code until the output is complete, then the finish. -/
theorem spells (text : LzwText table prev bits m) (h : s.CodesDue table prev bits m) : s.Spells m := by
  induction text generalizing s with
  | stop table prev => exact h.spells_nil
  | clear table prev c bits m htable text ih =>
    have hstep := h.lzwStep_clear
    rw [← List.append_assoc] at h
    exact spells_cons (str := [c]) h (.first s.lzw [c]) hstep fun t ht => ih ht
  | code table p str code bits m hroom hcode text ih =>
    by_cases hnil : str ++ m = []
    · rw [hnil] at h ⊢
      exact h.spells_nil
    · exact h.spells_cons (h.tabled.afterAdd hroom str _) (h.lzwStep_string hroom hcode hnil) fun t ht => ih ht

end State.CodesDue

/-- What an operation that began with OUT_POS = 0 and room for exactly `bs` has done when it has finished. -/
theorem State.FinishedWith.filled {s u : State} {bs : Bytes} (h : s.FinishedWith bs u) (hpos : s.outPos = 0)
    (hout : s.outLen = bs.length) :
    u.status = s.status.finished .none ∧ u.outPos.toNat = bs.length ∧ (∀ i < bs.length, some (u.readOut i) = bs[i]?) ∧
      ∀ i, bs.length ≤ i → u.readOut i = s.readOut i := by
  obtain ⟨v, hv, hu⟩ := h
  have hlen : v.outPos.toNat = bs.length := by
    rw [hv.outPos, hout, hpos]
    simp
  have hread : ∀ a, u.readOut a = if a < bs.length then bs[a]?.getD 0 else s.readOut a := fun a => by
    have hsame : u.readOut a = v.readOut a := by rw [hu]; rfl
    rw [hsame, hv.bytes, hlen, hpos]
    simp
  refine ⟨by rw [hu], by rw [hu]; exact hlen, fun i hi => ?_, fun i hi => ?_⟩
  · rw [hread, if_pos hi, List.getElem?_eq_getElem hi, Option.getD_some]
  · rw [hread, if_neg (Nat.not_lt.mpr hi)]

/-- Settles O38: the codes are due, and `CodesDue.spells` says what the operation emits. -/
theorem lzwRoundTrip : Obligations.LzwRoundTrip := by
  intro s bits m hstatus hturns hphase hcomp hpred hcursor hpos hlzw hinLen hfits hbits text hout
  have hdue : s.CodesDue [] none bits m :=
    { status := hstatus, turns := hturns, phase := hphase, comp := hcomp, pred := hpred, inLen := hinLen
      tabled := hlzw ▸ .ofReset, fits := by simpa [hcursor] using hfits, ahead := by rw [hcursor]; exact hbits
      room := by simp [hpos, hout] }
  obtain ⟨n, u, hrun, hfinished⟩ := hdue.spells text
  obtain ⟨hend, hlen, hbytes, hframe⟩ := hfinished.filled hpos hout
  exact ⟨n, u, hrun, hend.trans (by rw [hstatus]; rfl), hlen, hbytes, hframe⟩

end Sys2Proof.Machine

namespace Sys2Proof.Machine

/-! ### A truncated stream (R165)

With IN_LEN cut, a decode step of OP_LZW answers what it answered before, or the code it wants is past the cut and it ends
the decode with what OUT then holds. Without a predictor no later step changes that. -/

/-- The state with another IN_LEN. -/
def State.cut (k : Word) (s : State) : State := { s with config := { s.config with inLen := k } }

@[simp] theorem State.cut_status (k : Word) (s : State) : (s.cut k).status = s.status := rfl
@[simp] theorem State.cut_phase (k : Word) (s : State) : (s.cut k).phase = s.phase := rfl
@[simp] theorem State.cut_turns (k : Word) (s : State) : (s.cut k).turns = s.turns := rfl
@[simp] theorem State.cut_lzw (k : Word) (s : State) : (s.cut k).lzw = s.lzw := rfl

/-! #### What does not look at IN_LEN -/

theorem State.cut_inBits (k : Word) (s : State) (p n : Nat) : (s.cut k).inBits p n = s.inBits p n := by
  induction n generalizing p with
  | zero => rfl
  | succ n ih => rw [State.inBits, State.inBits, ih]; rfl

theorem State.cut_emitAll (k : Word) (bs : Bytes) (s : State) : (s.cut k).emitAll bs = (s.emitAll bs).cut k := by
  induction bs generalizing s with
  | nil => rfl
  | cons b bs ih =>
    have hemit : (s.cut k).emit b = (s.emit b).cut k := by
      rw [State.emit, State.emit, apply_ite (State.cut k)]
      rfl
    rw [State.emitAll, hemit, ih, State.emitAll]

theorem State.cut_afterDecode (k : Word) (s : State) : (s.cut k).afterDecode = s.afterDecode.cut k := by
  rw [endOfDecodeReportsUnderfill, endOfDecodeReportsUnderfill]
  rfl

theorem State.cut_noted (k : Word) (s : State) : (s.cut k).noted = s.noted.cut k := by
  rw [State.noted, State.noted, apply_ite (State.cut k)]
  rfl

theorem State.cut_addEntry (k : Word) (str : Bytes) (s : State) :
    (s.cut k).addEntry str = (s.addEntry str).map (State.cut k) := by
  rw [State.addEntry, State.addEntry, apply_ite (Option.map (State.cut k))]
  rfl

theorem State.cut_emitAndAdd (k : Word) (str entry : Bytes) (s : State) :
    (s.cut k).emitAndAdd str entry = (s.emitAndAdd str entry).cut k := by
  rw [State.emitAndAdd, State.emitAndAdd, s.cut_emitAll, State.cut_addEntry]
  cases (s.emitAll str).addEntry entry <;> rfl

/-! #### A decode step -/

/-- The decode ends for want of input; only CURSOR and the table may have moved since `s`. -/
def State.EndsShort (k : Word) (s : State) (o : Host.Outcome State Fault Refusal) : Prop :=
  ∃ w : State, w = { s.cut k with cursor := w.cursor, lzw := w.lzw } ∧ o = .next (w.warn .trunc).afterDecode

/-- From `s`, the outcome `o'` with IN_LEN cut is the outcome `o` without, or the decode ends for want of input. -/
def State.CutTo (k : Word) (s : State) (o o' : Host.Outcome State Fault Refusal) : Prop :=
  (∃ u, o = .next u ∧ o' = .next (u.cut k)) ∨ s.EndsShort k o'

/-- R155: the code after the CLEAR may be past the cut. -/
theorem execLzwClear_cut {k : Word} {s : State} (hk : k.toNat ≤ s.config.inLen.toNat) :
    s.CutTo k (execLzwClear s) (execLzwClear (s.cut k)) := by
  by_cases hshort : 8 * k.toNat < s.cursor.toNat + 9
  · exact .inr ⟨(s.cut k).clearTable, rfl, execLzwClear_of_short (s := s.cut k) hshort⟩
  · left
    obtain ⟨code, hcode⟩ : ∃ code, codeValue (s.inBits s.cursor.toNat 9) = code := ⟨_, rfl⟩
    have hcode' : codeValue ((s.cut k).inBits (s.cut k).cursor.toNat 9) = code := by rw [s.cut_inBits]; exact hcode
    rw [execLzwClear_of_room (by omega) hcode, execLzwClear_of_room (s := s.cut k) (Nat.le_of_not_lt hshort) hcode']
    have hstart : (s.cut k).clearTable.advance 9 = (s.clearTable.advance 9).cut k := rfl
    rw [hstart]
    split_ifs with hend hbad
    · exact ⟨_, rfl, congrArg _ (State.cut_afterDecode k _)⟩
    · exact ⟨_, rfl, rfl⟩
    · rw [execLzwFirst_eq, execLzwFirst_eq, State.cut_emitAll]
      exact ⟨_, rfl, rfl⟩

/-- R155 to R163: only CLEAR reads input. -/
theorem runCode_cut {k : Word} {s : State} (hk : k.toNat ≤ s.config.inLen.toNat) (c : CodeClass) :
    s.CutTo k (runCode c s) (runCode c (s.cut k)) := by
  cases c with
  | clear => exact execLzwClear_cut hk
  | endCode => exact .inl ⟨_, rfl, congrArg _ (s.cut_afterDecode k)⟩
  | first c =>
    rw [runCode, runCode, execLzwFirst_eq, execLzwFirst_eq, State.cut_emitAll]
    exact .inl ⟨_, rfl, rfl⟩
  | literal _ | table _ | pending =>
    simp only [runCode, execLzwLiteral, execLzwTable, execLzwPending, State.cut_lzw]
    cases s.lzw.prev with
    | none => exact .inl ⟨_, rfl, rfl⟩
    | some p => exact .inl ⟨_, rfl, congrArg _ (s.cut_emitAndAdd k _ _)⟩
  | invalid c => exact .inl ⟨_, rfl, rfl⟩
  | noClear c => exact .inl ⟨_, rfl, rfl⟩
  | implicitEnd => exact .inl ⟨_, rfl, congrArg _ ((s.warn .trunc).cut_afterDecode k)⟩

/-- R154. -/
theorem lzwStep_cut {k : Word} {s : State} (hk : k.toNat ≤ s.config.inLen.toNat) :
    s.CutTo k (lzwStep s) (lzwStep (s.cut k)) := by
  by_cases hfull : s.outLen ≤ s.outPos.toNat
  · rw [lzwStep_complete hfull, lzwStep_complete (s := s.cut k) hfull, State.cut_afterDecode]
    exact .inl ⟨_, rfl, rfl⟩
  have hroom : s.outPos.toNat < s.outLen := Nat.lt_of_not_le hfull
  by_cases hshort : 8 * k.toNat < s.cursor.toNat + s.lzw.cw.toNat
  · exact .inr ⟨s.cut k, rfl, lzwStep_of_short (s := s.cut k) hroom hshort⟩
  · have hcode : codeValue ((s.cut k).inBits (s.cut k).cursor.toNat (s.cut k).lzw.cw.toNat) =
        codeValue (s.inBits s.cursor.toNat s.lzw.cw.toNat) := congrArg codeValue (s.cut_inBits k _ _)
    rw [lzwStep_of_read hroom (by omega) rfl,
      lzwStep_of_read (s := s.cut k) hroom (Nat.le_of_not_lt hshort) hcode]
    exact runCode_cut (s := s.advance s.lzw.cw.toNat) hk _

/-! #### The run -/

/-- Bytes of OUT below OUT_POS stay, and OUT_POS does not go back. -/
structure State.Extends (s t : State) : Prop where
  outPos : s.outPos.toNat ≤ t.outPos.toNat
  bytes : ∀ a < s.outPos.toNat, t.readOut a = s.readOut a

theorem State.Extends.trans {s t u : State} (h : s.Extends t) (k : t.Extends u) : s.Extends u where
  outPos := h.outPos.trans k.outPos
  bytes a ha := (k.bytes a (ha.trans_le h.outPos)).trans (h.bytes a ha)

theorem State.Extends.of_eq {s t : State} (hpos : t.outPos = s.outPos) (hbuf : t.outBuf = s.outBuf)
    (hups : t.powerUps = s.powerUps) : s.Extends t :=
  ⟨by rw [hpos], fun a _ => State.readOut_congr hbuf hups a⟩

theorem State.DecodesTo.toExtends {s t : State} (h : s.DecodesTo t) : s.Extends t :=
  ⟨h.outPos, fun a ha => h.bytes a (.inl ha)⟩

/-- Without a predictor a step of the block only adds to the output. -/
theorem blockStep_extends {s t : State} (h : s.Inv) (hpred : s.pred = 0) (ht : blockStep s = .next t) :
    s.Extends t := by
  cases hb : s.status.busy with
  | false =>
    rw [blockStep_idle hb] at ht
    cases ht
    exact .of_eq rfl rfl rfl
  | true =>
    obtain ⟨u, rfl, hu⟩ := blockStep_cases h hb ht
    refine State.Extends.trans ?_ (.of_eq u.noted_outPos u.noted_outBuf u.noted_powerUps)
    rcases hu with ⟨e, -, rfl⟩ | ⟨r, hp, -⟩ | ⟨-, -, hu⟩ | ⟨-, -, hu⟩
    · exact .of_eq rfl rfl rfl
    · have hrow := (h.predictRow r hp).2
      simp [hpred] at hrow
    · exact (State.DecodesTo.packBitsStep hu).1.toExtends
    · exact (State.DecodesTo.lzwStep hu).toExtends

/-- A run in parts: its first step and the rest. -/
theorem run_succ_cases {s t : State} {n : Nat} (h : Host.Core.run Sys2Proof.core (n + 1) s = .next t) :
    ∃ u, step s = .next u ∧ Host.Core.run Sys2Proof.core n u = .next t := by
  simp only [Host.Core.run] at h
  split at h
  · next u hu => exact ⟨u, hu, h⟩
  · cases h
  · cases h

/-- A step of the block leaves the configuration and the turns. -/
theorem State.Inv.blockStep_frame {s t : State} (h : s.Inv) (ht : Machine.blockStep s = .next t) :
    t.config = s.config ∧ t.turns = s.turns := by
  cases hb : s.status.busy with
  | false =>
    rw [blockStep_idle hb] at ht
    cases ht
    exact ⟨rfl, rfl⟩
  | true =>
    rw [(blockStep_within_inv h hb ht).1.frame]
    exact ⟨rfl, rfl⟩

/-- Left alone and without a predictor the block only adds to the output. -/
theorem run_extends {s t : State} {n : Nat} (h : s.Inv) (hturns : s.turns = []) (hpred : s.pred = 0)
    (hrun : Host.Core.run Sys2Proof.core n s = .next t) : s.Extends t := by
  induction n generalizing s with
  | zero => cases hrun; exact .of_eq rfl rfl rfl
  | succ n ih =>
    obtain ⟨u, hu, hrest⟩ := run_succ_cases hrun
    rw [step_of_no_turns hturns] at hu
    obtain ⟨hconfig, hturns'⟩ := h.blockStep_frame hu
    have hpred' : u.pred = 0 := by rw [State.pred, hconfig]; exact hpred
    exact (blockStep_extends h hpred hu).trans (ih (h.blockStep hu) (hturns'.trans hturns) hpred' hrest)

theorem run_idle {s : State} (hturns : s.turns = []) (hidle : s.status.busy = false) (n : Nat) :
    Host.Core.run Sys2Proof.core n s = .next s := by
  induction n with
  | zero => rfl
  | succ n ih =>
    have hstep : step s = .next s := (step_of_no_turns hturns).trans (blockStep_idle hidle)
    rw [run_succ hstep, ih]

/-- R110: a run that ends an operation whose finish step is due is that step. -/
theorem run_finish {s t : State} {e : ErrCode} {n : Nat} (hbusy : s.status.busy = true) (hturns : s.turns = [])
    (hphase : s.phase = .finish e) (hrun : Host.Core.run Sys2Proof.core n s = .next t)
    (hidle : t.status.busy = false) : t = s.finish e := by
  cases n with
  | zero =>
    cases hrun
    simp [hbusy] at hidle
  | succ n =>
    rw [run_succ (step_finish hbusy hturns hphase), run_idle (s := s.finish e) hturns rfl] at hrun
    cases hrun
    rfl

/-- OP_LZW, left alone, in its decode phase. -/
structure State.LzwDecoding (s : State) : Prop where
  inv : s.Inv
  turns : s.turns = []
  phase : s.phase = .decode
  comp : s.comp = 2
  pred : s.pred = 0

namespace State.LzwDecoding

variable {s t u : State} {k : Word}

theorem busy (h : s.LzwDecoding) : s.status.busy = true := h.inv.busyPhase.mpr (by simp [h.phase])

theorem step_eq (h : s.LzwDecoding) (hu : lzwStep s = .next u) : step s = .next u.noted :=
  step_lzw h.busy h.turns h.phase h.comp h.pred hu

theorem step_cut (h : s.LzwDecoding) (hu : lzwStep (s.cut k) = .next u) : step (s.cut k) = .next u.noted :=
  step_lzw h.busy h.turns h.phase h.comp h.pred hu

/-- A decode step leaves OP_LZW in its decode phase or leaves the finish step. -/
theorem next (h : s.LzwDecoding) (hu : lzwStep s = .next u) :
    u.status.busy = true ∧ u.turns = [] ∧ u.config = s.config ∧ (u.noted.LzwDecoding ∨ ∃ e, u.phase = .finish e) := by
  have hinv : u.Inv := ((h.inv.decodes h.phase).lzwStep h.comp (h.inv.decodePrev h.phase) hu).2
  have hto := State.DecodesTo.lzwStep hu
  have hbusy : u.status.busy = true := by rw [hto.status]; exact h.busy
  have hturns : u.turns = [] := by rw [hto.frame]; exact h.turns
  have hconfig : u.config = s.config := by rw [hto.frame]
  have hcomp : u.comp = 2 := by rw [State.comp, hconfig]; exact h.comp
  have hpred : u.pred = 0 := by rw [State.pred, hconfig]; exact h.pred
  refine ⟨hbusy, hturns, hconfig, ?_⟩
  cases hphase : u.phase with
  | idle => exact absurd hphase (hinv.busyPhase.mp hbusy)
  | decode => exact .inl ⟨hinv.noted, by simpa using hturns, by simpa using hphase, by simpa using hcomp,
      by simpa using hpred⟩
  | predict r =>
    have hrow := (hinv.predictRow r hphase).2
    simp [hpred] at hrow
  | finish e => exact .inr ⟨e, rfl⟩

end State.LzwDecoding

/-- The operation finishes without an error, with no output but the first bytes of `t`'s. -/
def State.FinishesWithin (s t : State) : Prop :=
  ∃ n u, Host.Core.run Sys2Proof.core n s = .next u ∧
    u.status.busy = false ∧ u.status.done = true ∧ u.status.err = .none ∧ u.Extends t

/-- R109: without a predictor the finish step follows the decode. -/
theorem State.afterDecode_phase_of_pred {s : State} (h : s.pred = 0) : s.afterDecode.phase = .finish .none := by
  simp [endOfDecodeReportsUnderfill s, h]

/-- R158, R109, R110: a decode that ends for want of input, and the finish step. -/
theorem State.LzwDecoding.finishes_short {s t : State} {k : Word} (h : s.LzwDecoding)
    (hshort : s.EndsShort k (lzwStep (s.cut k))) (hst : s.Extends t) : (s.cut k).FinishesWithin t := by
  obtain ⟨w, hw, hv⟩ := hshort
  have hto := State.DecodesTo.truncated w
  have hpred : w.pred = 0 := by rw [hw]; exact h.pred
  have hphase : (w.warn .trunc).afterDecode.phase = .finish .none :=
    State.afterDecode_phase_of_pred (by simpa using hpred)
  have hbusy : (w.warn .trunc).afterDecode.status.busy = true := by rw [hto.status, hw]; exact h.busy
  have hturns : (w.warn .trunc).afterDecode.turns = [] := by rw [hto.frame, hw]; exact h.turns
  have hfinish : step (w.warn .trunc).afterDecode.noted = .next ((w.warn .trunc).afterDecode.noted.finish .none) :=
    step_finish (by simpa using hbusy) (by simpa using hturns) (by simpa using hphase)
  have hend : State.Extends ((w.warn .trunc).afterDecode.noted.finish .none) w :=
    .of_eq (by simp) (by simp) (by simp)
  have hstart : w.Extends s := .of_eq (by rw [hw]; rfl) (by rw [hw]; rfl) (by rw [hw]; rfl)
  exact ⟨2, _, (run_succ (h.step_cut hv) 1).trans (run_one hfinish), rfl, rfl, rfl, (hend.trans hstart).trans hst⟩

/-- R165: the run with IN_LEN cut, along the run without. -/
theorem State.LzwDecoding.finishes_cut {s t : State} {k : Word} {n : Nat} (h : s.LzwDecoding)
    (hk : k.toNat ≤ s.config.inLen.toNat) (hrun : Host.Core.run Sys2Proof.core n s = .next t)
    (hidle : t.status.busy = false) (herr : t.status.err = .none) : (s.cut k).FinishesWithin t := by
  induction n generalizing s with
  | zero =>
    cases hrun
    simp [h.busy] at hidle
  | succ n ih =>
    rcases lzwStep_cut hk with ⟨u, hu, hcut⟩ | hshort
    · obtain ⟨hbusy, hturns, hconfig, hnext⟩ := h.next hu
      have hstep : step (s.cut k) = .next (u.noted.cut k) := by rw [h.step_cut hcut, State.cut_noted]
      rw [run_succ (h.step_eq hu)] at hrun
      rcases hnext with hnext | ⟨e, hphase⟩
      · obtain ⟨m, v, hrun', hend⟩ := ih hnext (by simpa [hconfig] using hk) hrun
        exact ⟨m + 1, v, (run_succ hstep m).trans hrun', hend⟩
      · have ht := run_finish (by simpa using hbusy) (by simpa using hturns) (by simpa using hphase) hrun hidle
        subst ht
        refine ⟨2, (u.noted.cut k).finish e, (run_succ hstep 1).trans (run_one ?_), rfl, rfl, herr, .of_eq rfl rfl rfl⟩
        exact step_finish (by simpa using hbusy) (by simpa using hturns) (by simpa using hphase)
    · exact h.finishes_short hshort (run_extends h.inv h.turns h.pred hrun)

/-- Settles O39: the operation is in its decode, and `finishes_cut` follows its run. -/
theorem truncatedStreamGivesPrefix : Obligations.TruncatedStreamGivesPrefix := by
  intro s t k n hinv hturns _ hphase hcomp hpred hk _ hrun hidle herr
  have hdecoding : s.LzwDecoding := ⟨hinv, hturns, hphase, hcomp, hpred⟩
  obtain ⟨n', t', hrun', hbusy, hdone, hnone, hpos, hbytes⟩ := hdecoding.finishes_cut hk hrun hidle herr
  exact ⟨n', t', hrun', hbusy, hdone, hnone, hpos, fun a ha => (hbytes a ha).symm⟩

end Sys2Proof.Machine

namespace Sys2Proof.Machine

/-! ### The sub-operations (R182 to R189)

Each is `rowStep` of HPRED_ROW or FPRED_ROW at its depth, so `RowLaw.rowStep` says what it does to the row that is due. -/

/-- R182 to R184. -/
theorem exec_hpred {i : Instr} {b : Nat} (h : (i, b) ∈ [(Instr.hpred8, 1), (Instr.hpred16, 2), (Instr.hpred32, 4)])
    (s : State) : exec i s = rowStep b hpredRow s := by
  simp only [List.mem_cons, Prod.mk.injEq, List.not_mem_nil, or_false] at h
  rcases h with ⟨rfl, rfl⟩ | ⟨rfl, rfl⟩ | ⟨rfl, rfl⟩ <;> rfl

/-- R186 to R189. -/
theorem exec_fpred {i : Instr} {b : Nat}
    (h : (i, b) ∈ [(Instr.fpred16, 2), (Instr.fpred24, 3), (Instr.fpred32, 4), (Instr.fpred64, 8)])
    (s : State) : exec i s = rowStep b fpredRow s := by
  simp only [List.mem_cons, Prod.mk.injEq, List.not_mem_nil, or_false] at h
  rcases h with ⟨rfl, rfl⟩ | ⟨rfl, rfl⟩ | ⟨rfl, rfl⟩ | ⟨rfl, rfl⟩ <;> rfl

/-- Settles O41: the sub-operation is HPRED_ROW at its depth, and `RowLaw.rowStep` says what it does. -/
theorem horizontalRowsReconstructed : Obligations.HorizontalRowsReconstructed := by
  intro s r i b hp hi
  rw [exec_hpred hi]
  exact hpredRow_law.rowStep hp b

/-- Settles O42: the sub-operation is FPRED_ROW at its depth, and `RowLaw.rowStep` says what it does. -/
theorem floatRowsReconstructed : Obligations.FloatRowsReconstructed := by
  intro s r i b hp hi
  rw [exec_fpred hi]
  exact fpredRow_law.rowStep hp b

/-! ### Bands (R192) -/

/-- Pixel `x` of a row has its sample of band `q` in the row. -/
theorem State.bandSample_lt (s : State) {x q : Nat} (hx : x < s.config.width.toNat) (hq : q < s.config.spp.toNat) :
    x * s.config.spp.toNat + q < s.samplesPerRow := by
  have hend := sample_end_le hx s.config.spp.toNat
  rw [State.samplesPerRow]
  omega

section
variable {b r q : Nat} {s t : State}

theorem State.HorizontalRow.band_zero (h : s.HorizontalRow b r t) (hw : 0 < s.config.width.toNat)
    (hq : q < s.config.spp.toNat) :
    t.outRead (s.rowBase b r + (0 * s.config.spp.toNat + q) * b) b =
      s.outRead (s.rowBase b r + (0 * s.config.spp.toNat + q) * b) b := by
  rw [h _ (s.bandSample_lt hw hq), if_pos (by omega)]

/-- The sample SPP before that of pixel `x + 1` is that of pixel `x` in the same band. -/
theorem State.HorizontalRow.band_succ (h : s.HorizontalRow b r t) {x : Nat} (hx : x + 1 < s.config.width.toNat)
    (hq : q < s.config.spp.toNat) :
    t.outRead (s.rowBase b r + ((x + 1) * s.config.spp.toNat + q) * b) b =
      (s.outRead (s.rowBase b r + ((x + 1) * s.config.spp.toNat + q) * b) b +
        t.outRead (s.rowBase b r + (x * s.config.spp.toNat + q) * b) b) % 2 ^ (8 * b) := by
  have hprev : (x + 1) * s.config.spp.toNat + q = x * s.config.spp.toNat + q + s.config.spp.toNat := by ring
  rw [h _ (s.bandSample_lt hx hq), if_neg (by omega), hprev, Nat.add_sub_cancel]

/-- R192: by induction along the pixels of the row. -/
theorem State.HorizontalRow.band_congr {s' t' : State} (h : s.HorizontalRow b r t) (h' : s'.HorizontalRow b r t')
    (hc : s'.config = s.config) (hq : q < s.config.spp.toNat)
    (hold : ∀ x < s.config.width.toNat,
      s.outRead (s.rowBase b r + (x * s.config.spp.toNat + q) * b) b =
        s'.outRead (s.rowBase b r + (x * s.config.spp.toNat + q) * b) b)
    {x : Nat} (hx : x < s.config.width.toNat) :
    t.outRead (s.rowBase b r + (x * s.config.spp.toNat + q) * b) b =
      t'.outRead (s.rowBase b r + (x * s.config.spp.toNat + q) * b) b := by
  have hbase : s'.rowBase b r = s.rowBase b r := State.rowBase_congr hc b r
  induction x with
  | zero =>
    have hzero := h'.band_zero (q := q) (by rwa [hc]) (by rwa [hc])
    rw [hbase, hc] at hzero
    rw [h.band_zero hx hq, hzero, hold 0 hx]
  | succ x ih =>
    have hsucc := h'.band_succ (q := q) (by rwa [hc]) (by rwa [hc])
    rw [hbase, hc] at hsucc
    rw [h.band_succ hx hq, hsucc, hold (x + 1) hx, ih (Nat.lt_of_succ_lt hx)]

end

/-- Settles O44: both rows are reversed, and `HorizontalRow.band_congr` compares them band by band. -/
theorem bandsAreIndependent : Obligations.BandsAreIndependent := by
  intro s₁ s₂ r q i b hp hi hs hq hold
  have hc : s₂.config = s₁.config := by rw [hs]
  have hp' : s₂.phase = .predict r := by rw [hs]; exact hp
  obtain ⟨t₁, ht₁, hrow₁, -⟩ := hpredRow_law.rowStep hp b
  obtain ⟨t₂, ht₂, hrow₂, -⟩ := hpredRow_law.rowStep hp' b
  exact ⟨t₁, t₂, (exec_hpred hi s₁).trans ht₁, (exec_hpred hi s₂).trans ht₂,
    fun _ hx => hrow₁.band_congr hrow₂ hc hq hold hx⟩

/-! ### Nothing to transform (log 5, R193) -/

theorem rowStep_of_not_due {s : State} (h : ∀ r, s.phase ≠ .predict r) (b : Nat)
    (row : Nat → Nat → State → State) : rowStep b row s = .next s := by
  unfold rowStep
  split
  · next r hp => exact absurd hp (h r)
  all_goals rfl

/-- Settles O43: each sub-operation is `rowStep`, which looks at the phase. -/
theorem noRowDueChangesNothing : Obligations.NoRowDueChangesNothing := by
  intro s hs i hi
  simp only [List.mem_cons, List.not_mem_nil, or_false] at hi
  rcases hi with rfl | rfl | rfl | rfl | rfl | rfl | rfl <;> exact rowStep_of_not_due hs _ _

/-- R193: with at most one pixel in a row no sample has another SPP before it. -/
theorem hpredRow_of_narrow {s : State} (h : s.config.width.toNat ≤ 1) (b base : Nat) : hpredRow b base s = s := by
  have hle : s.samplesPerRow ≤ s.config.spp.toNat := by
    simpa [State.samplesPerRow] using Nat.mul_le_mul_right s.config.spp.toNat h
  rw [hpredRow, Nat.sub_eq_zero_of_le hle, hpredLoop]

theorem rowStep_hpred_of_narrow {s : State} (h : s.config.width.toNat ≤ 1) (b : Nat) :
    ∃ t, rowStep b hpredRow s = .next t ∧ t.outBuf = s.outBuf := by
  unfold rowStep
  split
  · next r _ => exact ⟨_, rfl, by rw [State.nextRow_outBuf, hpredRow_of_narrow h]⟩
  all_goals exact ⟨s, rfl, rfl⟩

/-- Settles O45: HPRED_ROW answers the row as it was. -/
theorem narrowRowsUnchanged : Obligations.NarrowRowsUnchanged := by
  intro s i hw hi
  simp only [List.mem_cons, List.not_mem_nil, or_false] at hi
  rcases hi with rfl | rfl | rfl <;> exact rowStep_hpred_of_narrow hw _

end Sys2Proof.Machine

namespace Sys2Proof.Machine

/-! ### Hardware reset (R240, R45) -/

/-- What survives a soft reset: the parameters, IN and OUT, and the model's own fields (log 7). -/
theorem State.softReset_eq_resetOf (s : State) : s.softReset =
    { State.resetOf s.params with
      inBuf := s.inBuf, outBuf := s.outBuf, turns := s.turns, hostRead := s.hostRead, draws := s.draws,
      powerUps := s.powerUps } := rfl

/-- IN and OUT do not survive a hardware reset; the count of such resets gives them new free values (log 2). -/
theorem State.hardReset_eq_resetOf (s : State) : s.hardReset =
    { State.resetOf s.params with
      turns := s.turns, hostRead := s.hostRead, draws := s.draws, powerUps := s.powerUps + 1 } := by
  rw [State.hardReset, s.softReset_eq_resetOf]
  rfl

theorem hostStep_hardReset (s : State) : hostStep .hardReset s = .next s.hardReset := rfl

/-- Settles O22: the reset input looks at nothing, BUSY and the phase included. -/
theorem hardResetAbandonsOperation : Obligations.HardResetAbandonsOperation := by
  intro s
  rw [hostStep_hardReset, s.hardReset_eq_resetOf]

end Sys2Proof.Machine
